-- ==== Sys2Proof/Word.lean ====
section
/-! DEFINITION. The value types of the block: the numeric domain `Num`, the command word, the schemes,
segments, polarities and symbols (`spec/00_scope.md` R5, R7; `spec/20_memory.md` R30, R34; `spec/30_encoding.md` R51).

No value of the block is a string of bytes (R46), so nothing but the command word and a character is a bit vector. -/

namespace Sys2Proof

/-- The 8-bit command word of R51. -/
abbrev CmdWord := BitVec 8

/-- One character of `PARSE`'s operand, one byte each (R54, D15). -/
abbrev CharCode := BitVec 8

/-- The spec's `Num`, the domain of every time, width, level and parameter (R5), as VALUES: an exact rational, and the four
kinds of value that only the binary instances have. `rat 0` is `+0`. Which of these a given instance `NUM` contains is
`Number.inFormat` (Machine/Arith.lean).
DESIGN CHOICE (log 1): one NaN stands for all NaNs; no rule can tell two NaNs apart. -/
inductive Number where
  /-- A finite number other than `-0`. -/
  | rat (x : Rat)
  /-- The negative zero of a binary instance. -/
  | negZero
  /-- An infinity of a binary instance, negative when `neg`. -/
  | inf (neg : Bool)
  /-- Any NaN of a binary instance. -/
  | nan
  deriving DecidableEq, Repr, Inhabited

/-- The constant `0` of R5. -/
def Number.zero : Number := .rat 0

/-- The constant `1` of R5. -/
def Number.one : Number := .rat 1

/-- The constant `0.5` of R5. -/
def Number.half : Number := .rat (mkRat 1 2)

/-- The seven schemes of R7. -/
inductive Scheme where
  | nrzl | nrzi | rz | man | ami | mlt3 | hdb3
  deriving DecidableEq, Repr, Inhabited

/-- The two amplitude classes of R15. -/
inductive AmpClass where
  | closed | opened
  deriving DecidableEq, Repr

/-- A segment (R34): the signal holds `level` for every time `x` with `start <= x < stop`. The spec's field `end` is
`stop` here, `end` being a word of Lean's. -/
structure Segment where
  start : Number
  stop  : Number
  level : Number
  deriving DecidableEq, Repr

/-- A polarity (R7, R16). -/
inductive Polarity where
  | pos | neg
  deriving DecidableEq, Repr

/-- The HDB3 symbols `SIL`, `POS`, `NEG` (R21, R121). -/
inductive Symb where
  | sil | pos | neg
  deriving DecidableEq, Repr

end Sys2Proof
end

