-- ==== Sys2Proof/Config.lean ====
section
/-! DEFINITION. What the spec leaves to the implementation (`spec/00_scope.md` R6): the open parameters `NUM` and `N_MAX`
as a record of plain data, and the two default constants, which have no value in the spec and are used by no rule. -/

namespace Sys2Proof

/-- The three admitted instances of `NUM` (R5). -/
inductive NumFormat where
  /-- `Q`: the rational numbers, exact arithmetic. -/
  | rational
  /-- IEEE 754 double precision. -/
  | binary64
  /-- IEEE 754 single precision. -/
  | binary32
  deriving DecidableEq, Repr

/-- The open parameters of R6 that a rule depends on. The machine holds its configuration in `State.config`, where no
step changes it, so that a statement about every state is a statement about every configuration (log 2). -/
structure Config where
  /-- `NUM` (R5, D2). -/
  num  : NumFormat
  /-- `N_MAX`, the greatest admitted length of a bit sequence; `none` is unbounded (R43, D13). -/
  nMax : Option Nat
  deriving DecidableEq, Repr

/-- The reference instance `Q` and the default bound of R6. -/
def Config.reference : Config := { num := .rational, nMax := none }

/-- `DEFAULT_TB` (R6, R172, D11): OPEN, no value in the spec and none here; no rule uses it. -/
opaque Config.defaultTb : Number

/-- `DEFAULT_V` (R6, R172, D11): OPEN, no value in the spec and none here; no rule uses it. -/
opaque Config.defaultV : Number

end Sys2Proof
end

