-- ==== Sys2Proof/Machine/Arith.lean ====
section
/-! DEFINITION. The operations of `spec/00_scope.md` R5 on `Num`, in the three instances of `NUM`.

In `Q` every operation is exact. In a binary instance each is one IEEE 754 operation: the exact result on rationals,
rounded once to nearest, ties to even (R5, `spec/93_implementation_defined.md` G1; the corners with zeros, infinities
and NaNs are PRESUMED from IEEE 754, log 14). -/

namespace Sys2Proof

/-! ### Exact arithmetic

Sums and products of rationals written with `mkRat`, which evaluates everywhere (Lean's own are sealed); Laws/Arith.lean
proves them equal to `+` and `*`. -/

/-- `x + y`, exact. -/
def exactAdd (x y : Rat) : Rat := mkRat (x.num * y.den + y.num * x.den) (x.den * y.den)

/-- `x * y`, exact. -/
def exactMul (x y : Rat) : Rat := mkRat (x.num * y.num) (x.den * y.den)

/-! ### Rounding of a binary instance -/

/-- Precision in bits, the hidden one included. -/
def NumFormat.precision : NumFormat → Nat
  | .rational => 0
  | .binary64 => 53
  | .binary32 => 24

/-- The greatest exponent of a finite value; the least of a normal one is `1 - maxExp`. -/
def NumFormat.maxExp : NumFormat → Nat
  | .rational => 0
  | .binary64 => 1023
  | .binary32 => 127

/-- `n / d` to the nearest natural number, ties to the even one. -/
def roundHalfEven (n d : Nat) : Nat :=
  let q := n / d
  let r := n % d
  if 2 * r < d then q
  else if d < 2 * r then q + 1
  else if q % 2 = 0 then q else q + 1

/-- The numerator and denominator of `(n / d) / 2^k`. -/
def scaleDown (n d : Nat) (k : Int) : Nat × Nat :=
  if 0 ≤ k then (n, d * 2 ^ k.toNat) else (n * 2 ^ (-k).toNat, d)

/-- `floor (log2 (n / d))` for positive `n` and `d`. -/
def floorLog2 (n d : Nat) : Int :=
  let e : Int := (Nat.log2 n : Int) - Nat.log2 d
  let (a, b) := scaleDown n d e
  if a < b then e - 1 else e

/-- The exponent of the unit in the last place of the value nearest `n / d`: `precision` bits for a normal value, the
fixed least exponent for a subnormal one. -/
def NumFormat.ulpExp (f : NumFormat) (n d : Nat) : Int :=
  max (floorLog2 n d) (1 - f.maxExp) - (f.precision - 1 : Nat)

/-- The magnitude `n / d` rounded to nearest even with an unbounded greatest exponent. -/
def NumFormat.roundMagnitude (f : NumFormat) (n d : Nat) : Rat :=
  let k := f.ulpExp n d
  let (a, b) := scaleDown n d k
  let m := roundHalfEven a b
  if 0 ≤ k then mkRat (m * 2 ^ k.toNat : Nat) 1 else mkRat (m : Nat) (2 ^ (-k).toNat)

/-- A zero with a sign; `Q` has one zero. -/
def signedZero (f : NumFormat) (neg : Bool) : Number :=
  match f with
  | .rational => .rat 0
  | _ => if neg then .negZero else .rat 0

/-- The value of a binary instance nearest the exact non-zero `x` (R5: to nearest, ties to even): beyond the greatest
finite value an infinity, below half the least a zero of `x`'s sign. In `Q` it is `x`. -/
def Number.round (f : NumFormat) (x : Rat) : Number :=
  match f with
  | .rational => .rat x
  | f =>
    if x.num = 0 then .rat 0
    else
      let neg := decide (x.num < 0)
      let m := f.roundMagnitude x.num.natAbs x.den
      if m.num = 0 then signedZero f neg
      else if (f.maxExp : Int) < floorLog2 m.num.natAbs m.den then .inf neg
      else .rat (if neg then -m else m)

/-! ### The operations of R5 -/

/-- `finite(a)`: false exactly for the two infinities and NaN. -/
def Number.finite : Number → Bool
  | .rat _ | .negZero => true
  | .inf _ | .nan => false

/-- The sign bit of a value that is not NaN. -/
def Number.signBit : Number → Bool
  | .rat x => decide (x.num < 0)
  | .negZero => true
  | .inf neg => neg
  | .nan => false

/-- `-a`, exact. -/
def Number.neg (f : NumFormat) : Number → Number
  | .rat x => if x.num = 0 then signedZero f true else .rat (-x)
  | .negZero => .rat 0
  | .inf neg => .inf (!neg)
  | .nan => .nan

/-- `abs(a)`, exact. -/
def Number.abs : Number → Number
  | .rat x => if x.num < 0 then .rat (-x) else .rat x
  | .negZero => .rat 0
  | .inf _ => .inf false
  | .nan => .nan

/-- The sum of two finite values: exact, then rounded. A sum of zero is `+0` unless both terms are `-0`. -/
def Number.addFinite (f : NumFormat) (x y : Rat) : Number :=
  let r := exactAdd x y
  if r.num = 0 then .rat 0 else Number.round f r

/-- `a + b`. -/
def Number.add (f : NumFormat) : Number → Number → Number
  | .nan, _ => .nan
  | _, .nan => .nan
  | .inf s, .inf t => if s = t then .inf s else .nan
  | .inf s, _ => .inf s
  | _, .inf t => .inf t
  | .negZero, .negZero => .negZero
  | .negZero, .rat y => Number.addFinite f 0 y
  | .rat x, .negZero => Number.addFinite f x 0
  | .rat x, .rat y => Number.addFinite f x y

/-- `a - b`, which is `a + (-b)`. -/
def Number.sub (f : NumFormat) (a b : Number) : Number := Number.add f a (Number.neg f b)

/-- The product of two finite values, of which `neg` is the sign: exact, then rounded. -/
def Number.mulFinite (f : NumFormat) (neg : Bool) (x y : Rat) : Number :=
  let r := exactMul x y
  if r.num = 0 then signedZero f neg else Number.round f r

/-- An infinity times `b`, of which `neg` is the sign. -/
def Number.mulInf (neg : Bool) : Number → Number
  | .rat y => if y.num = 0 then .nan else .inf neg
  | .negZero => .nan
  | .inf _ => .inf neg
  | .nan => .nan

/-- `a * b`. -/
def Number.mul (f : NumFormat) (a b : Number) : Number :=
  let neg := a.signBit != b.signBit
  match a, b with
  | .nan, _ => .nan
  | _, .nan => .nan
  | .inf _, b => Number.mulInf neg b
  | a, .inf _ => Number.mulInf neg a
  | .negZero, _ => signedZero f neg
  | _, .negZero => signedZero f neg
  | .rat x, .rat y => Number.mulFinite f neg x y

/-- The place of a value in the order: first the side (an infinity lies beyond every finite value), then the number;
`none` for NaN, which is unordered. `-0` and `0` have one place. -/
def Number.place : Number → Option (Int × Rat)
  | .rat x => some (0, x)
  | .negZero => some (0, 0)
  | .inf neg => some (if neg then -1 else 1, 0)
  | .nan => none

/-- `a > b`. -/
def Number.gt (a b : Number) : Bool :=
  match a.place, b.place with
  | some (i, x), some (j, y) => decide (j < i) || (decide (i = j) && decide (y < x))
  | _, _ => false

/-- `a = b` as numbers: `-0 = 0`, and NaN equals nothing. -/
def Number.eq (a b : Number) : Bool :=
  match a.place, b.place with
  | some p, some q => decide (p = q)
  | _, _ => false

/-- `a <= b`. -/
def Number.le (a b : Number) : Bool := b.gt a || a.eq b

/-- `a != b`, true of NaN and anything. -/
def Number.ne (a b : Number) : Bool := !a.eq b

/-- The value is an element of the instance (R5): `Q` has the rationals and nothing else, a binary instance the numbers
its format represents, both zeros, both infinities and NaN. -/
def Number.inFormat (f : NumFormat) (a : Number) : Bool :=
  match f, a with
  | .rational, .rat _ => true
  | .rational, _ => false
  | f, .rat x => decide (Number.round f x = .rat x)
  | _, _ => true

end Sys2Proof
end

