-- ==== Sys2Proof/Syntax.lean ====
section
/-! DEFINITION. The abstract syntax of the 40 commands (`spec/30_encoding.md` R50), one constructor per row of
`spec/opcode_table.json`, and the transport form of one command (R51, R54): a command word followed by its operands as a
sequence of abstract values. -/

namespace Sys2Proof

/-- The commands of R50. Operands: a `Num`, a bit sequence (`bits[0]` first, R31) whose elements can be nothing but 0 or
1 (R32), or a sequence of characters. -/
inductive Instr where
  /-- `CHK_TB`: R70. -/
  | chkTb (x : Number)
  /-- `CHK_AMPC`: R71. -/
  | chkAmpc (x : Number)
  /-- `CHK_AMPO`: R72. -/
  | chkAmpo (x : Number)
  /-- `CHK_DUTY`: R73. -/
  | chkDuty (x : Number)
  /-- `PARSE`: R140. -/
  | parse (chars : List CharCode)
  /-- `CONSTRUCT.NRZL`: R75. -/
  | constructNrzl (tb v : Number)
  /-- `CONSTRUCT.NRZI`: R75. -/
  | constructNrzi (tb v : Number)
  /-- `CONSTRUCT.RZ`: R75. -/
  | constructRz (tb v duty : Number)
  /-- `CONSTRUCT.MAN`: R75. -/
  | constructMan (tb v : Number)
  /-- `CONSTRUCT.AMI`: R75. -/
  | constructAmi (tb v : Number)
  /-- `CONSTRUCT.MLT3`: R75. -/
  | constructMlt3 (tb v : Number)
  /-- `CONSTRUCT.HDB3`: R75. -/
  | constructHdb3 (tb v : Number)
  /-- `SET_TB.NRZL`: R76. -/
  | setTbNrzl (x : Number)
  /-- `SET_TB.NRZI`: R76. -/
  | setTbNrzi (x : Number)
  /-- `SET_TB.RZ`: R76. -/
  | setTbRz (x : Number)
  /-- `SET_TB.MAN`: R76. -/
  | setTbMan (x : Number)
  /-- `SET_TB.AMI`: R76. -/
  | setTbAmi (x : Number)
  /-- `SET_TB.MLT3`: R76. -/
  | setTbMlt3 (x : Number)
  /-- `SET_TB.HDB3`: R76. -/
  | setTbHdb3 (x : Number)
  /-- `SET_AMP.NRZL`: R77. -/
  | setAmpNrzl (x : Number)
  /-- `SET_AMP.NRZI`: R77. -/
  | setAmpNrzi (x : Number)
  /-- `SET_AMP.RZ`: R77. -/
  | setAmpRz (x : Number)
  /-- `SET_AMP.MAN`: R77. -/
  | setAmpMan (x : Number)
  /-- `SET_AMP.AMI`: R77. -/
  | setAmpAmi (x : Number)
  /-- `SET_AMP.MLT3`: R77. -/
  | setAmpMlt3 (x : Number)
  /-- `SET_AMP.HDB3`: R77. -/
  | setAmpHdb3 (x : Number)
  /-- `SET_DUTY.NRZL`: R79. -/
  | setDutyNrzl (x : Number)
  /-- `SET_DUTY.NRZI`: R79. -/
  | setDutyNrzi (x : Number)
  /-- `SET_DUTY.RZ`: R78. -/
  | setDutyRz (x : Number)
  /-- `SET_DUTY.MAN`: R79. -/
  | setDutyMan (x : Number)
  /-- `SET_DUTY.AMI`: R79. -/
  | setDutyAmi (x : Number)
  /-- `SET_DUTY.MLT3`: R79. -/
  | setDutyMlt3 (x : Number)
  /-- `SET_DUTY.HDB3`: R79. -/
  | setDutyHdb3 (x : Number)
  /-- `ENCODE.NRZL`: R90. -/
  | encodeNrzl (bits : List Bool)
  /-- `ENCODE.NRZI`: R91. -/
  | encodeNrzi (bits : List Bool)
  /-- `ENCODE.RZ`: R100. -/
  | encodeRz (bits : List Bool)
  /-- `ENCODE.MAN`: R101. -/
  | encodeMan (bits : List Bool)
  /-- `ENCODE.AMI`: R110. -/
  | encodeAmi (bits : List Bool)
  /-- `ENCODE.MLT3`: R111. -/
  | encodeMlt3 (bits : List Bool)
  /-- `ENCODE.HDB3`: R130. -/
  | encodeHdb3 (bits : List Bool)
  deriving DecidableEq, Repr

/-- `SET_TB.s x` (R76), the scheme `s` given as a value. -/
def Instr.setTb (s : Scheme) (x : Number) : Instr :=
  match s with
  | .nrzl => .setTbNrzl x
  | .nrzi => .setTbNrzi x
  | .rz => .setTbRz x
  | .man => .setTbMan x
  | .ami => .setTbAmi x
  | .mlt3 => .setTbMlt3 x
  | .hdb3 => .setTbHdb3 x

/-- `SET_AMP.s x` (R77), the scheme `s` given as a value. -/
def Instr.setAmp (s : Scheme) (x : Number) : Instr :=
  match s with
  | .nrzl => .setAmpNrzl x
  | .nrzi => .setAmpNrzi x
  | .rz => .setAmpRz x
  | .man => .setAmpMan x
  | .ami => .setAmpAmi x
  | .mlt3 => .setAmpMlt3 x
  | .hdb3 => .setAmpHdb3 x

/-- `SET_DUTY.s x` (R78, R79), the scheme `s` given as a value. -/
def Instr.setDuty (s : Scheme) (x : Number) : Instr :=
  match s with
  | .nrzl => .setDutyNrzl x
  | .nrzi => .setDutyNrzi x
  | .rz => .setDutyRz x
  | .man => .setDutyMan x
  | .ami => .setDutyAmi x
  | .mlt3 => .setDutyMlt3 x
  | .hdb3 => .setDutyHdb3 x

/-- `ENCODE.s bits` (R80), the scheme `s` given as a value. -/
def Instr.encodeBits (s : Scheme) (bits : List Bool) : Instr :=
  match s with
  | .nrzl => .encodeNrzl bits
  | .nrzi => .encodeNrzi bits
  | .rz => .encodeRz bits
  | .man => .encodeMan bits
  | .ami => .encodeAmi bits
  | .mlt3 => .encodeMlt3 bits
  | .hdb3 => .encodeHdb3 bits

/-- `CONSTRUCT.s` (R75), the scheme `s` given as a value; `duty` is an operand of `CONSTRUCT.RZ` only and is dropped for
every other scheme. -/
def Instr.construct (s : Scheme) (tb v duty : Number) : Instr :=
  match s with
  | .nrzl => .constructNrzl tb v
  | .nrzi => .constructNrzi tb v
  | .rz => .constructRz tb v duty
  | .man => .constructMan tb v
  | .ami => .constructAmi tb v
  | .mlt3 => .constructMlt3 tb v
  | .hdb3 => .constructHdb3 tb v

/-- One abstract value of a command's or a response's transport form (R54, R55). How a platform carries a `Num` or a
length is not fixed by the spec (R46, D14), so the unit of transport is the value itself. -/
inductive Item where
  /-- A number. -/
  | num (x : Number)
  /-- A length, or the count of the segments of a payload. -/
  | len (n : Nat)
  /-- One bit of a bit sequence. -/
  | bit (b : Bool)
  /-- One character. -/
  | chr (c : CharCode)
  /-- A status code of a response. -/
  | code (n : Nat)
  deriving DecidableEq, Repr

/-- One command as the host presents it (R51): the command word, then the operands. -/
structure Frame where
  word  : CmdWord
  items : List Item
  deriving DecidableEq, Repr

end Sys2Proof
end

