-- ==== Sys2Proof/WellFormed.lean ====
section
/-! DEFINITION. When a command is one that the configured block admits: its numbers are elements of `NUM`
(`spec/00_scope.md` R5, `spec/30_encoding.md` R54) and its sequence is no longer than `N_MAX` (`spec/20_memory.md` R43). -/

namespace Sys2Proof

/-- The `Num` operands of a command. -/
def Instr.nums : Instr → List Number
  | .chkTb x | .chkAmpc x | .chkAmpo x | .chkDuty x => [x]
  | .parse _ => []
  | .constructNrzl tb v | .constructNrzi tb v | .constructMan tb v | .constructAmi tb v
  | .constructMlt3 tb v | .constructHdb3 tb v => [tb, v]
  | .constructRz tb v duty => [tb, v, duty]
  | .setTbNrzl x | .setTbNrzi x | .setTbRz x | .setTbMan x | .setTbAmi x | .setTbMlt3 x | .setTbHdb3 x => [x]
  | .setAmpNrzl x | .setAmpNrzi x | .setAmpRz x | .setAmpMan x | .setAmpAmi x | .setAmpMlt3 x | .setAmpHdb3 x => [x]
  | .setDutyNrzl x | .setDutyNrzi x | .setDutyRz x | .setDutyMan x | .setDutyAmi x | .setDutyMlt3 x
  | .setDutyHdb3 x => [x]
  | .encodeNrzl _ | .encodeNrzi _ | .encodeRz _ | .encodeMan _ | .encodeAmi _ | .encodeMlt3 _ | .encodeHdb3 _ => []

/-- The length of a command's sequence operand; 0 where it has none. -/
def Instr.seqLength : Instr → Nat
  | .parse chars => chars.length
  | .encodeNrzl bits | .encodeNrzi bits | .encodeRz bits | .encodeMan bits | .encodeAmi bits | .encodeMlt3 bits
  | .encodeHdb3 bits => bits.length
  | .chkTb _ | .chkAmpc _ | .chkAmpo _ | .chkDuty _ => 0
  | .constructNrzl _ _ | .constructNrzi _ _ | .constructRz _ _ _ | .constructMan _ _ | .constructAmi _ _
  | .constructMlt3 _ _ | .constructHdb3 _ _ => 0
  | .setTbNrzl _ | .setTbNrzi _ | .setTbRz _ | .setTbMan _ | .setTbAmi _ | .setTbMlt3 _ | .setTbHdb3 _ => 0
  | .setAmpNrzl _ | .setAmpNrzi _ | .setAmpRz _ | .setAmpMan _ | .setAmpAmi _ | .setAmpMlt3 _ | .setAmpHdb3 _ => 0
  | .setDutyNrzl _ | .setDutyNrzi _ | .setDutyRz _ | .setDutyMan _ | .setDutyAmi _ | .setDutyMlt3 _
  | .setDutyHdb3 _ => 0

/-- A sequence of length `n` is within `N_MAX` (R43). -/
def Config.admitsLength (c : Config) (n : Nat) : Bool :=
  match c.nMax with
  | none => true
  | some m => decide (n ≤ m)

/-- Every `Num` operand is an element of the configured `NUM`. -/
def Instr.numsAdmitted (c : Config) (i : Instr) : Bool := i.nums.all (Number.inFormat c.num)

/-- Well-formed for a configuration: both checks. -/
def Instr.wellFormed (c : Config) (i : Instr) : Bool := i.numsAdmitted c && c.admitsLength i.seqLength

end Sys2Proof
end

