-- ==== Sys2Proof/Decode.lean ====
section
/-! DEFINITION. Decoding a presented command into the abstract syntax (`spec/30_encoding.md` R51 to R54, R56), the
encoder written from the same table, and the host's `decodeTableWord`. -/

namespace Sys2Proof

/-! ### The command word -/

/-- `cmd[7:4]`, the operation class (R51, R53). -/
def CmdWord.op (w : CmdWord) : BitVec 4 := w.extractLsb' 4 4

/-- `cmd[3]`, which must be 0 (R51). -/
def CmdWord.z (w : CmdWord) : BitVec 1 := w.extractLsb' 3 1

/-- `cmd[2:0]`, the scheme or function selector (R51). -/
def CmdWord.sel (w : CmdWord) : BitVec 3 := w.extractLsb' 0 3

/-- What a legal command word names (R53): a function, or an operation class with its scheme. -/
inductive Opcode where
  | chkTb | chkAmpc | chkAmpo | chkDuty | parse
  | construct (s : Scheme)
  | setTb (s : Scheme)
  | setAmp (s : Scheme)
  | setDuty (s : Scheme)
  | encode (s : Scheme)
  deriving DecidableEq, Repr

/-- The scheme selector of R52. -/
def Scheme.sel : Scheme → BitVec 3
  | .nrzl => 0 | .nrzi => 1 | .rz => 2 | .man => 3 | .ami => 4 | .mlt3 => 5 | .hdb3 => 6

/-- The scheme a selector names; 7 is reserved (R52). -/
def schemeOf (sel : BitVec 3) : Option Scheme :=
  match sel.toNat with
  | 0 => some .nrzl | 1 => some .nrzi | 2 => some .rz | 3 => some .man | 4 => some .ami | 5 => some .mlt3
  | 6 => some .hdb3 | _ => none

/-- The function a selector names in class 0; 5 to 7 are reserved (R53). -/
def functionOf (sel : BitVec 3) : Option Opcode :=
  match sel.toNat with
  | 0 => some .chkTb | 1 => some .chkAmpc | 2 => some .chkAmpo | 3 => some .chkDuty | 4 => some .parse
  | _ => none

/-- The opcode of a command word; `none` for a reserved word (R53, R56). -/
def opcodeOf (w : CmdWord) : Option Opcode :=
  if w.z = 0 then
    match w.op.toNat with
    | 0 => functionOf w.sel
    | 1 => (schemeOf w.sel).map .construct
    | 2 => (schemeOf w.sel).map .setTb
    | 3 => (schemeOf w.sel).map .setAmp
    | 4 => (schemeOf w.sel).map .setDuty
    | 5 => (schemeOf w.sel).map .encode
    | _ => none
  else none

/-! ### The operands -/

/-- The bits that make up all of `items`, when there are exactly `n` of them. -/
def bitItems : Nat → List Item → Option (List Bool)
  | 0, [] => some []
  | n + 1, .bit b :: rest => (bitItems n rest).map (b :: ·)
  | _, _ => none

/-- The characters that make up all of `items`, when there are exactly `n` of them. -/
def chrItems : Nat → List Item → Option (List CharCode)
  | 0, [] => some []
  | n + 1, .chr c :: rest => (chrItems n rest).map (c :: ·)
  | _, _ => none

/-- One number and nothing else. -/
def oneNum (k : Number → Instr) : List Item → Option Instr
  | [.num x] => some (k x)
  | _ => none

/-- The operands of a `CONSTRUCT.s`: `tb`, `v`, and for RZ also `duty` (R53). -/
def constructOperands : Scheme → List Item → Option Instr
  | .rz, [.num tb, .num v, .num duty] => some (.constructRz tb v duty)
  | .rz, _ => none
  | s, [.num tb, .num v] => some (.construct s tb v .zero)
  | _, _ => none

/-- The operands of an opcode, in the order of R53 and the form of R54: a sequence is its length and then its elements in
index order. -/
def Opcode.operands (op : Opcode) (items : List Item) : Option Instr :=
  match op with
  | .chkTb => oneNum .chkTb items
  | .chkAmpc => oneNum .chkAmpc items
  | .chkAmpo => oneNum .chkAmpo items
  | .chkDuty => oneNum .chkDuty items
  | .parse =>
    match items with
    | .len n :: rest => (chrItems n rest).map .parse
    | _ => none
  | .construct s => constructOperands s items
  | .setTb s => oneNum (.setTb s) items
  | .setAmp s => oneNum (.setAmp s) items
  | .setDuty s => oneNum (.setDuty s) items
  | .encode s =>
    match items with
    | .len n :: rest => (bitItems n rest).map (.encodeBits s)
    | _ => none

/-- What decoding a presented command gives. -/
inductive Decoded where
  /-- A command of the abstract syntax. -/
  | instr (i : Instr)
  /-- A reserved command word (R56). -/
  | reserved (w : CmdWord)
  /-- A legal command word whose operands are not those of R53 (log 7). -/
  | badOperands (op : Opcode)
  deriving DecidableEq, Repr

/-- The decoder, total on every word and every list of operand items. A reserved word reads no operand (R56). -/
def decode (f : Frame) : Decoded :=
  match opcodeOf f.word with
  | none => .reserved f.word
  | some op =>
    match op.operands f.items with
    | none => .badOperands op
    | some i => .instr i

/-! ### The encoder -/

/-- The command word with class `op`, `z = 0` and selector `sel` (R51). -/
def wordOf (op : BitVec 4) (sel : BitVec 3) : CmdWord := op ++ (0#1 ++ sel)

/-- The command word of an opcode (R52, R53). -/
def Opcode.word : Opcode → CmdWord
  | .chkTb => wordOf 0 0
  | .chkAmpc => wordOf 0 1
  | .chkAmpo => wordOf 0 2
  | .chkDuty => wordOf 0 3
  | .parse => wordOf 0 4
  | .construct s => wordOf 1 s.sel
  | .setTb s => wordOf 2 s.sel
  | .setAmp s => wordOf 3 s.sel
  | .setDuty s => wordOf 4 s.sel
  | .encode s => wordOf 5 s.sel

/-- The transport form of a bit sequence (R54): the length, then the bits. -/
def seqOfBits (bits : List Bool) : List Item := .len bits.length :: bits.map .bit

/-- The transport form of a character sequence (R54). -/
def seqOfChars (chars : List CharCode) : List Item := .len chars.length :: chars.map .chr

/-- The opcode of a command. -/
def Instr.opcode : Instr → Opcode
  | .chkTb _ => .chkTb
  | .chkAmpc _ => .chkAmpc
  | .chkAmpo _ => .chkAmpo
  | .chkDuty _ => .chkDuty
  | .parse _ => .parse
  | .constructNrzl _ _ => .construct .nrzl
  | .constructNrzi _ _ => .construct .nrzi
  | .constructRz _ _ _ => .construct .rz
  | .constructMan _ _ => .construct .man
  | .constructAmi _ _ => .construct .ami
  | .constructMlt3 _ _ => .construct .mlt3
  | .constructHdb3 _ _ => .construct .hdb3
  | .setTbNrzl _ => .setTb .nrzl
  | .setTbNrzi _ => .setTb .nrzi
  | .setTbRz _ => .setTb .rz
  | .setTbMan _ => .setTb .man
  | .setTbAmi _ => .setTb .ami
  | .setTbMlt3 _ => .setTb .mlt3
  | .setTbHdb3 _ => .setTb .hdb3
  | .setAmpNrzl _ => .setAmp .nrzl
  | .setAmpNrzi _ => .setAmp .nrzi
  | .setAmpRz _ => .setAmp .rz
  | .setAmpMan _ => .setAmp .man
  | .setAmpAmi _ => .setAmp .ami
  | .setAmpMlt3 _ => .setAmp .mlt3
  | .setAmpHdb3 _ => .setAmp .hdb3
  | .setDutyNrzl _ => .setDuty .nrzl
  | .setDutyNrzi _ => .setDuty .nrzi
  | .setDutyRz _ => .setDuty .rz
  | .setDutyMan _ => .setDuty .man
  | .setDutyAmi _ => .setDuty .ami
  | .setDutyMlt3 _ => .setDuty .mlt3
  | .setDutyHdb3 _ => .setDuty .hdb3
  | .encodeNrzl _ => .encode .nrzl
  | .encodeNrzi _ => .encode .nrzi
  | .encodeRz _ => .encode .rz
  | .encodeMan _ => .encode .man
  | .encodeAmi _ => .encode .ami
  | .encodeMlt3 _ => .encode .mlt3
  | .encodeHdb3 _ => .encode .hdb3

/-- The operand items of a command (R53, R54): its numbers in order, or its one sequence. -/
def Instr.items : Instr → List Item
  | .parse chars => seqOfChars chars
  | .encodeNrzl bits | .encodeNrzi bits | .encodeRz bits | .encodeMan bits | .encodeAmi bits | .encodeMlt3 bits
  | .encodeHdb3 bits => seqOfBits bits
  | i => i.nums.map .num

/-- The encoder: the command word and the operands of a command. -/
def encode (i : Instr) : Frame := { word := i.opcode.word, items := i.items }

/-! ### One row of the table as a word -/

/-- The operands of an opcode with every value zero: `+0` for a number, length 0 for a sequence. -/
def Opcode.zeroItems : Opcode → List Item
  | .chkTb | .chkAmpc | .chkAmpo | .chkDuty => [.num .zero]
  | .setTb _ | .setAmp _ | .setDuty _ => [.num .zero]
  | .construct .rz => [.num .zero, .num .zero, .num .zero]
  | .construct _ => [.num .zero, .num .zero]
  | .parse | .encode _ => [.len 0]

/-- The command whose word is the low 8 bits of `w` and whose operands are zeros; a reserved word has none (log 16). -/
def frameOfTableWord (nbits w : Nat) : Frame :=
  let word : CmdWord := BitVec.ofNat 8 (w % 2 ^ nbits)
  { word, items := match opcodeOf word with | none => [] | some op => op.zeroItems }

/-- What the decoder reads from the instruction whose bits are `w`; a set bit above the command word is no bit of any
command. -/
def decodeTableWord (nbits w : Nat) : Option Instr :=
  if w % 2 ^ nbits < 256 then
    match decode (frameOfTableWord nbits w) with
    | .instr i => some i
    | _ => none
  else none

end Sys2Proof
end

