-- ==== Sys2Proof/Machine/State.lean ====
section
/-! DEFINITION. The state of the block (`spec/10_state.md`, `spec/70_reset_and_hazards.md` R170, R178): seven units, the
command in progress with its transient registers, the response, what the host does next, and the configuration. -/

namespace Sys2Proof.Machine

/-! ### The response (R18, R55, R150) -/

/-- The complete set of statuses (R150). -/
inductive Status where
  | ok | invalidBitPeriod | badAmplitude | wrongDuty | unsupported | notConstructed | illegalCommand | parseReject
  deriving DecidableEq, Repr

/-- The payload of a response (R18). -/
inductive Payload where
  /-- No payload. -/
  | empty
  /-- The checked value of a `CHK_*`. -/
  | num (x : Number)
  /-- The bit sequence of a `PARSE`. -/
  | bits (bits : List Bool)
  /-- The output sequence of an `ENCODE`. -/
  | segments (out : List Segment)
  deriving DecidableEq, Repr

/-- A response: one status and a payload (R18). -/
structure Response where
  status  : Status
  payload : Payload
  deriving DecidableEq, Repr

/-! ### Transient state of one `ENCODE` (R16) -/

/-- The running clock `t` and the output sequence `out` (R16, R20), the two registers `Emit` works on. -/
structure Wave where
  t   : Number
  out : List Segment
  deriving DecidableEq, Repr

/-- HDB3's own transient registers (R16, R21, R22). DESIGN CHOICE (log 18): `marks` is kept as an unbounded number, one of
the two forms R22 allows. -/
structure Hdb3Regs where
  pol   : Polarity
  marks : Nat
  zeros : Nat
  sym   : List Symb
  deriving DecidableEq, Repr

/-- The encoder at work with the registers of R16 that it has beside `i`, `t` and `out`. -/
inductive Engine where
  | nrzl
  | nrzi (acc : Number)
  | rz
  | man
  | ami (acc : Number)
  | mlt3 (idx : Fin 4)
  | hdb3 (regs : Hdb3Regs)
  deriving DecidableEq, Repr

/-- The transient state of one `ENCODE` command: its operand, the cursor `i` (R19), and the registers. -/
structure Transient where
  bits   : List Bool
  i      : Nat
  wave   : Wave
  engine : Engine
  deriving DecidableEq, Repr

/-- The command in progress (R170, R173). -/
inductive Busy where
  /-- Presented, and nothing of it done yet. -/
  | presented (f : Frame)
  /-- An `ENCODE` that has passed its entry tests (R80). -/
  | encoding (tr : Transient)
  deriving DecidableEq, Repr

/-! ### The persistent state (R10 to R12) -/

/-- The registers every unit has (R11). -/
structure CoderUnit where
  valid : Bool
  tb    : Number
  v     : Number
  deriving DecidableEq, Repr

/-- What the host does at one step of the model (R178, log 4). -/
inductive HostEvent where
  /-- One whole transaction: the command is presented, performed and answered in this step (R4, R38). -/
  | command (f : Frame)
  /-- The command is presented; the steps that follow perform it piece by piece. -/
  | start (f : Frame)
  /-- The host does nothing in this step. -/
  | wait
  /-- The host applies a reset (R170), also during a command. -/
  | reset
  deriving DecidableEq, Repr

/-- The state of the block. -/
structure State where
  /-- The open parameters (R6); no step changes them (log 2). -/
  config   : Config
  /-- `P[NRZL]` (R10, R11). -/
  nrzl     : CoderUnit
  /-- `P[NRZI]`. -/
  nrzi     : CoderUnit
  /-- `P[RZ]`, its `DUTY` apart. -/
  rz       : CoderUnit
  /-- `P[MAN]`. -/
  man      : CoderUnit
  /-- `P[AMI]`. -/
  ami      : CoderUnit
  /-- `P[MLT3]`. -/
  mlt3     : CoderUnit
  /-- `P[HDB3]`. -/
  hdb3     : CoderUnit
  /-- `P[RZ].DUTY` (R12). -/
  rzDuty   : Number
  /-- The command in progress; `none` between commands (R24). -/
  busy     : Option Busy
  /-- The response that the last step returned to the host; not kept beyond it (R18, log 5). -/
  response : Option Response
  /-- What the host does next, in order (R178, log 4). -/
  inbox    : List HostEvent
  deriving DecidableEq, Repr

/-! ### Why a step can stop -/

/-- The faults. -/
inductive Fault where
  /-- Raised by `step` when the host presents a command while another is in progress (R173, U2: "the model takes one
  command at a time and has no step for an overlap"). Safe: nothing is claimed of a host that does so. -/
  | overlappingCommands
  /-- Raised by `ENCODE.HDB3` when `P[HDB3].V` has no sign (R7, U1). Safe: unreachable under R14. -/
  | signUndefined
  /-- Raised by `ENCODE.HDB3` when `SymDrop3` finds no three `SIL` (R21, U1). Safe: never happens (R131 (b)). -/
  | symDropUndefined
  deriving DecidableEq, Repr

/-- The refusals. -/
inductive Refusal where
  /-- An instruction that has no meaning in the model yet. Safe. -/
  | notModelled (mnemonic : String)
  /-- Raised by `ENCODE.s` and `PARSE` for a sequence longer than `N_MAX` (R43, U9). Safe. -/
  | lengthOverNMax
  /-- Raised by `step` for an operand that is no element of `NUM` (R5, log 8). Safe. -/
  | operandOutsideNum
  /-- Raised by `step` for a legal word with operands that are not those of R53 (log 7). Safe. -/
  | badOperands
  deriving DecidableEq, Repr

/-! ### Reset (R24, R170) -/

/-- A unit after reset: `VALID = 0`. DESIGN CHOICE (log 3): `TB` and `V`, which "hold no value", are 0. -/
def CoderUnit.reset : CoderUnit := { valid := false, tb := .zero, v := .zero }

/-- The block with configuration `c` right after reset. -/
def State.resetWith (c : Config) : State where
  config   := c
  nrzl     := .reset
  nrzi     := .reset
  rz       := .reset
  man      := .reset
  ami      := .reset
  mlt3     := .reset
  hdb3     := .reset
  rzDuty   := .zero
  busy     := none
  response := none
  inbox    := []

/-- The block right after reset, in the reference instance (R6: `Q`, unbounded; log 2). -/
def State.reset : State := State.resetWith Config.reference

end Sys2Proof.Machine
end

