-- ==== Sys2Proof/Machine/Flags.lean ====
section
/-! DEFINITION. Responses, "the only flag-like state of the block" (`spec/10_state.md` R18): their making, the status
codes and the transport form of `spec/30_encoding.md` R55. -/

namespace Sys2Proof.Machine

/-- The code of a status (R55). -/
def Status.code : Status → Nat
  | .ok => 0
  | .invalidBitPeriod => 1
  | .badAmplitude => 2
  | .wrongDuty => 3
  | .unsupported => 4
  | .notConstructed => 5
  | .illegalCommand => 6
  | .parseReject => 7

/-- `return (OK)`. -/
def Response.done : Response := { status := .ok, payload := .empty }

/-- `return (OK, payload)`. -/
def Response.answer (p : Payload) : Response := { status := .ok, payload := p }

/-- `return (st)` for a failure: a failing command returns no payload (R153). -/
def Response.failure (st : Status) : Response := { status := st, payload := .empty }

/-- A segment as its three `Num` in the order `start`, `end`, `level` (R55). -/
def segmentItems (g : Segment) : List Item := [.num g.start, .num g.stop, .num g.level]

/-- The items of a payload: the segments "in sequence order after their count" (R55). DEDUCED (log 13): a checked value is
one number, and a bit sequence has the form that R54 gives it as an operand. -/
def Payload.items : Payload → List Item
  | .empty => []
  | .num x => [.num x]
  | .bits bs => seqOfBits bs
  | .segments gs => .len gs.length :: (gs.map segmentItems).flatten

/-- The transport form of a response: one status code followed by the payload (R55). -/
def Response.items (r : Response) : List Item := .code r.status.code :: r.payload.items

end Sys2Proof.Machine
end

