-- ==== Sys2Proof/Machine/Operands.lean ====
section
/-! DEFINITION. What a command does with its operands: the four parameter checks
(`spec/40_validator_and_configuration.md` R70 to R74), the reading of one bit (`spec/20_memory.md` R33) and of one
character (`spec/45_bit_string_parser.md` R140). -/

namespace Sys2Proof.Machine

/-- The test of `CHK_TB` (R70). -/
def bitPeriodOk (x : Number) : Bool := x.finite && x.gt .zero

/-- The test of `CHK_AMPC` (R71). -/
def ampClosedOk (x : Number) : Bool := x.finite && x.gt .zero

/-- The test of `CHK_AMPO` (R72). -/
def ampOpenOk (x : Number) : Bool := x.finite && x.ne .zero

/-- The test of `CHK_DUTY` (R73). -/
def dutyOk (x : Number) : Bool := x.finite && x.gt .zero && x.le .one

/-- The amplitude class of a scheme (R15; HDB3 by decision D4). -/
def ampClass : Scheme → AmpClass
  | .nrzl | .rz | .man | .mlt3 => .closed
  | .nrzi | .ami | .hdb3 => .opened

/-- The test of `ampcheck(s, x)` (R74). -/
def ampOk (s : Scheme) (x : Number) : Bool :=
  match ampClass s with
  | .closed => ampClosedOk x
  | .opened => ampOpenOk x

/-- `BitRead(i)` (R33); `none` when `i` is not below the length, which ends the per-bit loop (R19). -/
def bitRead (bits : List Bool) (i : Nat) : Option Bool := bits[i]?

/-- The bit a character stands for: 0x30 is 0, 0x31 is 1 (R140, D15), and every other character is none. -/
def bitOfChar (c : CharCode) : Option Bool :=
  if c = 0x30#8 then some false
  else if c = 0x31#8 then some true
  else none

end Sys2Proof.Machine
end

