-- ==== Sys2Proof/Machine/Ops.lean ====
section
/-! DEFINITION. The named operations over the state: reading and writing the registers of a unit, the response, `Emit`,
the entry of an `ENCODE`, and what the host's events do around a command. -/

namespace Sys2Proof.Machine

/-- What a meaning answers. -/
abbrev Result := Host.Outcome State Fault Refusal

/-! ### The registers (`spec/10_state.md` R10 to R12, `spec/00_scope.md` R8) -/

/-- The registers of unit `P[sc]`. -/
def State.unit (s : State) : Scheme → CoderUnit
  | .nrzl => s.nrzl
  | .nrzi => s.nrzi
  | .rz => s.rz
  | .man => s.man
  | .ami => s.ami
  | .mlt3 => s.mlt3
  | .hdb3 => s.hdb3

/-- The state with the registers `u` in unit `P[sc]`; no other unit is touched (R10). -/
def State.setUnit (s : State) (sc : Scheme) (u : CoderUnit) : State :=
  match sc with
  | .nrzl => { s with nrzl := u }
  | .nrzi => { s with nrzi := u }
  | .rz => { s with rz := u }
  | .man => { s with man := u }
  | .ami => { s with ami := u }
  | .mlt3 => { s with mlt3 := u }
  | .hdb3 => { s with hdb3 := u }

/-- `P[sc].TB <- x`. -/
def State.setTb (s : State) (sc : Scheme) (x : Number) : State := s.setUnit sc { s.unit sc with tb := x }

/-- `P[sc].V <- x`. -/
def State.setV (s : State) (sc : Scheme) (x : Number) : State := s.setUnit sc { s.unit sc with v := x }

/-- `P[RZ].DUTY <- x`. -/
def State.setDuty (s : State) (x : Number) : State := { s with rzDuty := x }

/-- `P[sc].VALID <- 1`. -/
def State.setValid (s : State) (sc : Scheme) : State := s.setUnit sc { s.unit sc with valid := true }

/-- `return`: the command ends with the response `r` (R18). -/
def State.respond (s : State) (r : Response) : State := { s with response := some r }

/-- A command that fails: the status is returned and nothing else changes (`spec/60_exceptions.md` R153). This takes the
place of an exception's entry on this hardware, which has none (R153, R157). -/
def State.fail (s : State) (st : Status) : State := s.respond (.failure st)

/-! ### The output primitive (`spec/20_memory.md` R35) -/

/-- The start of an `ENCODE`: the clock at 0 and no segment (R16, R80). -/
def Wave.start : Wave := { t := .zero, out := [] }

/-- `Emit(w, lv)`: one segment from the clock to the clock plus `w`, or nothing when the candidate is degenerate. -/
def emit (f : NumFormat) (w lv : Number) (a : Wave) : Wave :=
  let e := Number.add f a.t w
  if w.gt .zero && e.gt a.t then { t := e, out := a.out ++ [{ start := a.t, stop := e, level := lv }] } else a

/-! ### The entry of an `ENCODE` (`spec/40_validator_and_configuration.md` R80) -/

/-- The part of `ENCODE.s` that all schemes share: a sequence over `N_MAX` is refused (R43, log 9), a unit that is not
valid answers `NotConstructed`, and otherwise the scheme's algorithm `alg` runs on the unit's registers. Only a defect of
U1 makes `alg` fail. -/
def encodeEntry (sc : Scheme) (bits : List Bool) (alg : CoderUnit → Except Fault (List Segment)) (s : State) : Result :=
  if s.config.admitsLength bits.length then
    if (s.unit sc).valid then
      match alg (s.unit sc) with
      | .ok out => .next (s.respond (.answer (.segments out)))
      | .error e => .fault e
    else .next (s.fail .notConstructed)
  else .refused .lengthOverNMax

/-! ### The host's side (`spec/70_reset_and_hazards.md` R170, R173, R178) -/

/-- A reserved command word was presented: `IllegalCommand`, no effect (R56). -/
def illegalCommand (s : State) : State := s.fail .illegalCommand

/-- The block after a reset event: the reset state, in the same configuration; what the host does next is not the
block's to lose (R170). -/
def State.afterReset (s : State) : State := { State.resetWith s.config with inbox := s.inbox }

/-- No command ends in this step, so no response is returned, and an earlier one is not kept (R18, log 5). -/
def State.noResponse (s : State) : State := { s with response := none }

/-- The host's next event and the state without it; with none left the host waits. -/
def State.takeEvent (s : State) : HostEvent × State :=
  match s.inbox with
  | [] => (.wait, s)
  | e :: rest => (e, { s with inbox := rest })

/-- A command is presented and not yet performed. -/
def State.present (s : State) (f : Frame) : State := { s with busy := some (.presented f), response := none }

/-- No command is in progress any more. -/
def State.release (s : State) : State := { s with busy := none }

/-- The state in which the host presents the command of a table word next, with no command in progress. -/
def State.presentNext (s : State) (f : Frame) : State := { s with busy := none, inbox := .command f :: s.inbox }

end Sys2Proof.Machine
end

