-- ==== Sys2Proof/Machine/AmiMlt3.lean ====
section
/-! DEFINITION. The AMI and MLT-3 encoders (`spec/43_ami_mlt3.md`). -/

namespace Sys2Proof.Machine

/-- The step of R110 for one bit: a mark inverts the accumulator and emits it, a zero emits level 0. -/
def amiBit (f : NumFormat) (u : CoderUnit) (r : Number × Wave) (b : Bool) : Number × Wave :=
  if b then
    let acc := Number.neg f r.1
    (acc, emit f u.tb acc r.2)
  else (r.1, emit f u.tb .zero r.2)

/-- The output of AMI; the accumulator starts at `v`. -/
def amiRun (f : NumFormat) (u : CoderUnit) (bits : List Bool) : List Segment :=
  (bits.foldl (amiBit f u) (u.v, .start)).2.out

/-- `ENCODE.AMI bits` (R110). -/
def execEncodeAmi (bits : List Bool) (s : State) : Result :=
  encodeEntry .ami bits (fun u => .ok (amiRun s.config.num u bits)) s

/-- `cyc[idx]` of the cycle `[0, v, 0, -v]` (R111). -/
def mlt3Level (f : NumFormat) (v : Number) (idx : Fin 4) : Number :=
  match idx with
  | 0 => .zero
  | 1 => v
  | 2 => .zero
  | 3 => Number.neg f v

/-- The index after the bit `b`: a 1 advances it modulo 4 (R111). -/
def mlt3Next (idx : Fin 4) (b : Bool) : Fin 4 :=
  if b then ⟨(idx.val + 1) % 4, Nat.mod_lt _ (by decide)⟩ else idx

/-- The step of R111 for one bit: the advance comes before the emission. -/
def mlt3Bit (f : NumFormat) (u : CoderUnit) (r : Fin 4 × Wave) (b : Bool) : Fin 4 × Wave :=
  let idx := mlt3Next r.1 b
  (idx, emit f u.tb (mlt3Level f u.v idx) r.2)

/-- The output of MLT-3; the index starts at 0. -/
def mlt3Run (f : NumFormat) (u : CoderUnit) (bits : List Bool) : List Segment :=
  (bits.foldl (mlt3Bit f u) (0, .start)).2.out

/-- `ENCODE.MLT3 bits` (R111). -/
def execEncodeMlt3 (bits : List Bool) (s : State) : Result :=
  encodeEntry .mlt3 bits (fun u => .ok (mlt3Run s.config.num u bits)) s

end Sys2Proof.Machine
end

