-- ==== Sys2Proof/Machine/Check.lean ====
section
/-! DEFINITION. The four parameter checks as commands (`spec/40_validator_and_configuration.md` R70 to R73). -/

namespace Sys2Proof.Machine

/-- A check as a command: the checked value, or the status of the failure; no register is read or written. -/
def checkCommand (passed : Bool) (st : Status) (x : Number) (s : State) : Result :=
  .next (if passed then s.respond (.answer (.num x)) else s.fail st)

/-- `CHK_TB x` (R70). -/
def execChkTb (x : Number) (s : State) : Result := checkCommand (bitPeriodOk x) .invalidBitPeriod x s

/-- `CHK_AMPC x` (R71). -/
def execChkAmpc (x : Number) (s : State) : Result := checkCommand (ampClosedOk x) .badAmplitude x s

/-- `CHK_AMPO x` (R72). -/
def execChkAmpo (x : Number) (s : State) : Result := checkCommand (ampOpenOk x) .badAmplitude x s

/-- `CHK_DUTY x` (R73). -/
def execChkDuty (x : Number) (s : State) : Result := checkCommand (dutyOk x) .wrongDuty x s

end Sys2Proof.Machine
end

