-- ==== Sys2Proof/Machine/Construct.lean ====
section
/-! DEFINITION. Construction of a unit (`spec/40_validator_and_configuration.md` R75). -/

namespace Sys2Proof.Machine

/-- `CONSTRUCT.s` for a unit without a duty register: bit period, then amplitude; on success all registers and `VALID`,
otherwise nothing (R75; the order of the tests is D9's). -/
def construct (sc : Scheme) (tb v : Number) (s : State) : Result :=
  .next (
    if bitPeriodOk tb then
      if ampOk sc v then (((s.setTb sc tb).setV sc v).setValid sc).respond .done
      else s.fail .badAmplitude
    else s.fail .invalidBitPeriod)

/-- `CONSTRUCT.RZ`: as above, with the duty tested last and written too (R75). -/
def constructWithDuty (tb v duty : Number) (s : State) : Result :=
  .next (
    if bitPeriodOk tb then
      if ampOk .rz v then
        if dutyOk duty then ((((s.setTb .rz tb).setV .rz v).setDuty duty).setValid .rz).respond .done
        else s.fail .wrongDuty
      else s.fail .badAmplitude
    else s.fail .invalidBitPeriod)

/-- `CONSTRUCT.NRZL tb, v`. -/
def execConstructNrzl (tb v : Number) (s : State) : Result := construct .nrzl tb v s

/-- `CONSTRUCT.NRZI tb, v`. -/
def execConstructNrzi (tb v : Number) (s : State) : Result := construct .nrzi tb v s

/-- `CONSTRUCT.RZ tb, v, duty`. -/
def execConstructRz (tb v duty : Number) (s : State) : Result := constructWithDuty tb v duty s

/-- `CONSTRUCT.MAN tb, v`. -/
def execConstructMan (tb v : Number) (s : State) : Result := construct .man tb v s

/-- `CONSTRUCT.AMI tb, v`. -/
def execConstructAmi (tb v : Number) (s : State) : Result := construct .ami tb v s

/-- `CONSTRUCT.MLT3 tb, v`. -/
def execConstructMlt3 (tb v : Number) (s : State) : Result := construct .mlt3 tb v s

/-- `CONSTRUCT.HDB3 tb, v`. -/
def execConstructHdb3 (tb v : Number) (s : State) : Result := construct .hdb3 tb v s

end Sys2Proof.Machine
end

