-- ==== Sys2Proof/Machine/Hdb3.lean ====
section
/-! DEFINITION. The HDB3 encoder with substitution logic, in two passes (`spec/44_hdb3.md`). -/

namespace Sys2Proof.Machine

/-- `inv(p)` (R7). -/
def Polarity.inv : Polarity → Polarity
  | .pos => .neg
  | .neg => .pos

/-- `sign(v)` (R7): defined only for a finite value that is not zero. -/
def signOf (v : Number) : Option Polarity :=
  if v.finite then
    if v.gt .zero then some .pos
    else if Number.zero.gt v then some .neg
    else none
  else none

/-- `sym_of(p)` (R121). -/
def symOf : Polarity → Symb
  | .pos => .pos
  | .neg => .neg

/-- The level of a symbol, with `a = abs(v)` (R121). -/
def symLevel (f : NumFormat) (a : Number) : Symb → Number
  | .sil => .zero
  | .pos => a
  | .neg => Number.neg f a

/-- The length of the zero run that triggers a substitution, `RUN` (R6). -/
def zeroRun : Nat := 4

/-- `SymDrop3()` (R21): defined only where the last three symbols are `SIL`. -/
def symDrop3 (sym : List Symb) : Option (List Symb) :=
  if 3 ≤ sym.length ∧ sym.drop (sym.length - 3) = [.sil, .sil, .sil] then some (sym.take (sym.length - 3)) else none

/-- The start of pass 1 (R122). -/
def hdb3Start (p : Polarity) : Hdb3Regs := { pol := p, marks := 0, zeros := 0, sym := [] }

/-- The step for a bit 1 (R123). -/
def hdb3One (h : Hdb3Regs) : Hdb3Regs :=
  let p := Polarity.inv h.pol
  { pol := p, marks := h.marks + 1, zeros := 0, sym := h.sym ++ [symOf p] }

/-- A substitution, `base` being the symbols without the three that were dropped: `000V` after an odd number of marks
(R126), `B00V` after an even number (R127), and both counters back to 0 (R128). -/
def hdb3Substitute (base : List Symb) (h : Hdb3Regs) : Hdb3Regs :=
  if h.marks % 2 = 1 then
    { pol := h.pol, marks := 0, zeros := 0, sym := base ++ [.sil, .sil, .sil, symOf h.pol] }
  else
    let p := Polarity.inv h.pol
    { pol := p, marks := 0, zeros := 0, sym := base ++ [symOf p, .sil, .sil, symOf p] }

/-- The step for a bit 0: one more zero of the run (R124), or the substitution that the fourth one triggers (R125). -/
def hdb3Zero (h : Hdb3Regs) : Except Fault Hdb3Regs :=
  let z := h.zeros + 1
  if z < zeroRun then .ok { h with zeros := z, sym := h.sym ++ [.sil] }
  else
    match symDrop3 h.sym with
    | some base => .ok (hdb3Substitute base h)
    | none => .error .symDropUndefined

/-- The step of pass 1 for one bit. -/
def hdb3Bit (h : Hdb3Regs) (b : Bool) : Except Fault Hdb3Regs := if b then .ok (hdb3One h) else hdb3Zero h

/-- Pass 1: symbol derivation over the bits in order (R120, R130). -/
def hdb3Pass1 : List Bool → Hdb3Regs → Except Fault Hdb3Regs
  | [], h => .ok h
  | b :: rest, h =>
    match hdb3Bit h b with
    | .ok h' => hdb3Pass1 rest h'
    | .error e => .error e

/-- Pass 2: one candidate segment for each symbol in order (R129). -/
def hdb3Pass2 (f : NumFormat) (u : CoderUnit) (sym : List Symb) : List Segment :=
  (sym.foldl (fun a y => emit f u.tb (symLevel f u.v.abs y) a) Wave.start).out

/-- The registers at the start of an `ENCODE.HDB3` (R122). -/
def hdb3Init (u : CoderUnit) : Except Fault Hdb3Regs :=
  match signOf u.v with
  | some p => .ok (hdb3Start p)
  | none => .error .signUndefined

/-- The output of HDB3: pass 1, and after its last bit pass 2 (R120). -/
def hdb3Run (f : NumFormat) (u : CoderUnit) (bits : List Bool) : Except Fault (List Segment) :=
  match hdb3Init u with
  | .error e => .error e
  | .ok h =>
    match hdb3Pass1 bits h with
    | .error e => .error e
    | .ok h' => .ok (hdb3Pass2 f u h'.sym)

/-- `ENCODE.HDB3 bits` (R130). -/
def execEncodeHdb3 (bits : List Bool) (s : State) : Result :=
  encodeEntry .hdb3 bits (fun u => hdb3Run s.config.num u bits) s

end Sys2Proof.Machine
end

