-- ==== Sys2Proof/Machine/Nrz.lean ====
section
/-! DEFINITION. The NRZ-L and NRZ-I encoders (`spec/41_nrz.md`). Each is a start, a step for one bit and a loop (R4). -/

namespace Sys2Proof.Machine

/-- The step of R90 for one bit: the level is `v` for 1 and `-v` for 0. -/
def nrzlBit (f : NumFormat) (u : CoderUnit) (a : Wave) (b : Bool) : Wave :=
  emit f u.tb (if b then u.v else Number.neg f u.v) a

/-- The output of NRZ-L. -/
def nrzlRun (f : NumFormat) (u : CoderUnit) (bits : List Bool) : List Segment :=
  (bits.foldl (nrzlBit f u) .start).out

/-- `ENCODE.NRZL bits` (R90). -/
def execEncodeNrzl (bits : List Bool) (s : State) : Result :=
  encodeEntry .nrzl bits (fun u => .ok (nrzlRun s.config.num u bits)) s

/-- The accumulator of NRZ-I after the bit `b`: a 1 inverts it (R91). -/
def nrziAcc (f : NumFormat) (acc : Number) (b : Bool) : Number := if b then Number.neg f acc else acc

/-- The step of R91 for one bit: the inversion comes before the emission. -/
def nrziBit (f : NumFormat) (u : CoderUnit) (r : Number × Wave) (b : Bool) : Number × Wave :=
  let acc := nrziAcc f r.1 b
  (acc, emit f u.tb acc r.2)

/-- The output of NRZ-I; the accumulator starts at `v`. -/
def nrziRun (f : NumFormat) (u : CoderUnit) (bits : List Bool) : List Segment :=
  (bits.foldl (nrziBit f u) (u.v, .start)).2.out

/-- `ENCODE.NRZI bits` (R91). -/
def execEncodeNrzi (bits : List Bool) (s : State) : Result :=
  encodeEntry .nrzi bits (fun u => .ok (nrziRun s.config.num u bits)) s

end Sys2Proof.Machine
end

