-- ==== Sys2Proof/Machine/Parse.lean ====
section
/-! DEFINITION. The bit-string parser at the boundary (`spec/45_bit_string_parser.md` R140). -/

namespace Sys2Proof.Machine

/-- The loop of R140: the bits of the characters in order, or nothing when some character is neither `0` nor `1`. -/
def parseChars : List CharCode → Option (List Bool)
  | [] => some []
  | c :: rest =>
    match bitOfChar c, parseChars rest with
    | some b, some bs => some (b :: bs)
    | _, _ => none

/-- The answer of `PARSE`: an empty string is rejected, and so is a string with another character. -/
def parseResponse (chars : List CharCode) : Response :=
  match chars with
  | [] => .failure .parseReject
  | c :: rest =>
    match parseChars (c :: rest) with
    | some bits => .answer (.bits bits)
    | none => .failure .parseReject

/-- `PARSE chars` (R140); a string over `N_MAX` is refused (R43). -/
def execParse (chars : List CharCode) (s : State) : Result :=
  if s.config.admitsLength chars.length then .next (s.respond (parseResponse chars)) else .refused .lengthOverNMax

end Sys2Proof.Machine
end

