-- ==== Sys2Proof/Machine/RzManchester.lean ====
section
/-! DEFINITION. The RZ and Manchester encoders (`spec/42_rz_manchester.md`). -/

namespace Sys2Proof.Machine

/-- The width of RZ's first sub-interval, `duty * tb` (R100). -/
def rzHigh (f : NumFormat) (u : CoderUnit) (duty : Number) : Number := Number.mul f duty u.tb

/-- The width of RZ's second sub-interval, `(1 - duty) * tb` (R100). -/
def rzLow (f : NumFormat) (u : CoderUnit) (duty : Number) : Number := Number.mul f (Number.sub f .one duty) u.tb

/-- The step of R100 for one bit. -/
def rzBit (f : NumFormat) (u : CoderUnit) (duty : Number) (a : Wave) (b : Bool) : Wave :=
  emit f (rzLow f u duty) .zero (emit f (rzHigh f u duty) (if b then u.v else Number.neg f u.v) a)

/-- The output of RZ. -/
def rzRun (f : NumFormat) (u : CoderUnit) (duty : Number) (bits : List Bool) : List Segment :=
  (bits.foldl (rzBit f u duty) .start).out

/-- `ENCODE.RZ bits` (R100). -/
def execEncodeRz (bits : List Bool) (s : State) : Result :=
  encodeEntry .rz bits (fun u => .ok (rzRun s.config.num u s.rzDuty bits)) s

/-- The width of both halves of a Manchester bit, `0.5 * tb` (R101, D18); `0.5` is the constant `HALF` (R13). -/
def manHalf (f : NumFormat) (u : CoderUnit) : Number := Number.mul f .half u.tb

/-- The step of R101 for one bit: 0 is high then low, 1 is low then high. -/
def manBit (f : NumFormat) (u : CoderUnit) (a : Wave) (b : Bool) : Wave :=
  let h := manHalf f u
  if b then emit f h u.v (emit f h (Number.neg f u.v) a)
  else emit f h (Number.neg f u.v) (emit f h u.v a)

/-- The output of Manchester. -/
def manRun (f : NumFormat) (u : CoderUnit) (bits : List Bool) : List Segment :=
  (bits.foldl (manBit f u) .start).out

/-- `ENCODE.MAN bits` (R101). -/
def execEncodeMan (bits : List Bool) (s : State) : Result :=
  encodeEntry .man bits (fun u => .ok (manRun s.config.num u bits)) s

end Sys2Proof.Machine
end

