-- ==== Sys2Proof/Machine/Setters.lean ====
section
/-! DEFINITION. Reconfiguration of a unit (`spec/40_validator_and_configuration.md` R76 to R79). -/

namespace Sys2Proof.Machine

/-- The form that every setter has (R76 to R78): a unit that is not valid answers `NotConstructed`, a value that fails its
check answers `st`, and otherwise `written` is the state with the register written. -/
def setter (sc : Scheme) (passed : Bool) (st : Status) (written : State) (s : State) : Result :=
  .next (
    if (s.unit sc).valid then
      if passed then written.respond .done else s.fail st
    else s.fail .notConstructed)

/-- `SET_TB.s x` (R76). -/
def setTbCommand (sc : Scheme) (x : Number) (s : State) : Result :=
  setter sc (bitPeriodOk x) .invalidBitPeriod (s.setTb sc x) s

/-- `SET_AMP.s x` (R77). -/
def setAmpCommand (sc : Scheme) (x : Number) (s : State) : Result :=
  setter sc (ampOk sc x) .badAmplitude (s.setV sc x) s

/-- `SET_DUTY.s x` for a scheme without a duty register: the operand is not examined, nothing changes (R79). -/
def setDutyUnsupported (s : State) : Result := .next (s.fail .unsupported)

/-- `SET_TB.NRZL x` (R76). -/
def execSetTbNrzl (x : Number) (s : State) : Result := setTbCommand .nrzl x s

/-- `SET_TB.NRZI x` (R76). -/
def execSetTbNrzi (x : Number) (s : State) : Result := setTbCommand .nrzi x s

/-- `SET_TB.RZ x` (R76). -/
def execSetTbRz (x : Number) (s : State) : Result := setTbCommand .rz x s

/-- `SET_TB.MAN x` (R76). -/
def execSetTbMan (x : Number) (s : State) : Result := setTbCommand .man x s

/-- `SET_TB.AMI x` (R76). -/
def execSetTbAmi (x : Number) (s : State) : Result := setTbCommand .ami x s

/-- `SET_TB.MLT3 x` (R76). -/
def execSetTbMlt3 (x : Number) (s : State) : Result := setTbCommand .mlt3 x s

/-- `SET_TB.HDB3 x` (R76). -/
def execSetTbHdb3 (x : Number) (s : State) : Result := setTbCommand .hdb3 x s

/-- `SET_AMP.NRZL x` (R77). -/
def execSetAmpNrzl (x : Number) (s : State) : Result := setAmpCommand .nrzl x s

/-- `SET_AMP.NRZI x` (R77). -/
def execSetAmpNrzi (x : Number) (s : State) : Result := setAmpCommand .nrzi x s

/-- `SET_AMP.RZ x` (R77). -/
def execSetAmpRz (x : Number) (s : State) : Result := setAmpCommand .rz x s

/-- `SET_AMP.MAN x` (R77). -/
def execSetAmpMan (x : Number) (s : State) : Result := setAmpCommand .man x s

/-- `SET_AMP.AMI x` (R77). -/
def execSetAmpAmi (x : Number) (s : State) : Result := setAmpCommand .ami x s

/-- `SET_AMP.MLT3 x` (R77). -/
def execSetAmpMlt3 (x : Number) (s : State) : Result := setAmpCommand .mlt3 x s

/-- `SET_AMP.HDB3 x` (R77). -/
def execSetAmpHdb3 (x : Number) (s : State) : Result := setAmpCommand .hdb3 x s

/-- `SET_DUTY.NRZL x` (R79). -/
def execSetDutyNrzl (_x : Number) (s : State) : Result := setDutyUnsupported s

/-- `SET_DUTY.NRZI x` (R79). -/
def execSetDutyNrzi (_x : Number) (s : State) : Result := setDutyUnsupported s

/-- `SET_DUTY.RZ x` (R78). -/
def execSetDutyRz (x : Number) (s : State) : Result := setter .rz (dutyOk x) .wrongDuty (s.setDuty x) s

/-- `SET_DUTY.MAN x` (R79). -/
def execSetDutyMan (_x : Number) (s : State) : Result := setDutyUnsupported s

/-- `SET_DUTY.AMI x` (R79). -/
def execSetDutyAmi (_x : Number) (s : State) : Result := setDutyUnsupported s

/-- `SET_DUTY.MLT3 x` (R79). -/
def execSetDutyMlt3 (_x : Number) (s : State) : Result := setDutyUnsupported s

/-- `SET_DUTY.HDB3 x` (R79). -/
def execSetDutyHdb3 (_x : Number) (s : State) : Result := setDutyUnsupported s

end Sys2Proof.Machine
end

