-- ==== Sys2Proof/Machine/Dispatch.lean ====
section
/-! DEFINITION. The meaning of every command, one arm each. -/

namespace Sys2Proof.Machine

def exec (i : Instr) (s : State) : Host.Outcome State Fault Refusal :=
  match i with
  | .chkTb x => Sys2Proof.Machine.execChkTb x s
  | .chkAmpc x => Sys2Proof.Machine.execChkAmpc x s
  | .chkAmpo x => Sys2Proof.Machine.execChkAmpo x s
  | .chkDuty x => Sys2Proof.Machine.execChkDuty x s
  | .parse chars => Sys2Proof.Machine.execParse chars s
  | .constructNrzl tb v => Sys2Proof.Machine.execConstructNrzl tb v s
  | .constructNrzi tb v => Sys2Proof.Machine.execConstructNrzi tb v s
  | .constructRz tb v duty => Sys2Proof.Machine.execConstructRz tb v duty s
  | .constructMan tb v => Sys2Proof.Machine.execConstructMan tb v s
  | .constructAmi tb v => Sys2Proof.Machine.execConstructAmi tb v s
  | .constructMlt3 tb v => Sys2Proof.Machine.execConstructMlt3 tb v s
  | .constructHdb3 tb v => Sys2Proof.Machine.execConstructHdb3 tb v s
  | .setTbNrzl x => Sys2Proof.Machine.execSetTbNrzl x s
  | .setTbNrzi x => Sys2Proof.Machine.execSetTbNrzi x s
  | .setTbRz x => Sys2Proof.Machine.execSetTbRz x s
  | .setTbMan x => Sys2Proof.Machine.execSetTbMan x s
  | .setTbAmi x => Sys2Proof.Machine.execSetTbAmi x s
  | .setTbMlt3 x => Sys2Proof.Machine.execSetTbMlt3 x s
  | .setTbHdb3 x => Sys2Proof.Machine.execSetTbHdb3 x s
  | .setAmpNrzl x => Sys2Proof.Machine.execSetAmpNrzl x s
  | .setAmpNrzi x => Sys2Proof.Machine.execSetAmpNrzi x s
  | .setAmpRz x => Sys2Proof.Machine.execSetAmpRz x s
  | .setAmpMan x => Sys2Proof.Machine.execSetAmpMan x s
  | .setAmpAmi x => Sys2Proof.Machine.execSetAmpAmi x s
  | .setAmpMlt3 x => Sys2Proof.Machine.execSetAmpMlt3 x s
  | .setAmpHdb3 x => Sys2Proof.Machine.execSetAmpHdb3 x s
  | .setDutyNrzl x => Sys2Proof.Machine.execSetDutyNrzl x s
  | .setDutyNrzi x => Sys2Proof.Machine.execSetDutyNrzi x s
  | .setDutyRz x => Sys2Proof.Machine.execSetDutyRz x s
  | .setDutyMan x => Sys2Proof.Machine.execSetDutyMan x s
  | .setDutyAmi x => Sys2Proof.Machine.execSetDutyAmi x s
  | .setDutyMlt3 x => Sys2Proof.Machine.execSetDutyMlt3 x s
  | .setDutyHdb3 x => Sys2Proof.Machine.execSetDutyHdb3 x s
  | .encodeNrzl bits => Sys2Proof.Machine.execEncodeNrzl bits s
  | .encodeNrzi bits => Sys2Proof.Machine.execEncodeNrzi bits s
  | .encodeRz bits => Sys2Proof.Machine.execEncodeRz bits s
  | .encodeMan bits => Sys2Proof.Machine.execEncodeMan bits s
  | .encodeAmi bits => Sys2Proof.Machine.execEncodeAmi bits s
  | .encodeMlt3 bits => Sys2Proof.Machine.execEncodeMlt3 bits s
  | .encodeHdb3 bits => Sys2Proof.Machine.execEncodeHdb3 bits s

end Sys2Proof.Machine
end

