-- ==== Sys2Proof/Machine/Serial.lean ====
section
/-! DEFINITION. The inside of an `ENCODE` as the state machine that `spec/00_scope.md` R4 describes: an initial state, a
step for one bit and an end-of-stream action, over the transient registers that `State.busy` holds
(`spec/10_state.md` R16, R19). The block shows it only through a reset or a second command that falls into it. -/

namespace Sys2Proof.Machine

/-- The bit sequence and scheme of an `ENCODE`; `none` for every other command. -/
def encodeOperand : Instr → Option (Scheme × List Bool)
  | .encodeNrzl bits => some (.nrzl, bits)
  | .encodeNrzi bits => some (.nrzi, bits)
  | .encodeRz bits => some (.rz, bits)
  | .encodeMan bits => some (.man, bits)
  | .encodeAmi bits => some (.ami, bits)
  | .encodeMlt3 bits => some (.mlt3, bits)
  | .encodeHdb3 bits => some (.hdb3, bits)
  | .chkTb _ | .chkAmpc _ | .chkAmpo _ | .chkDuty _ | .parse _ => none
  | .constructNrzl _ _ | .constructNrzi _ _ | .constructRz _ _ _ | .constructMan _ _ | .constructAmi _ _
  | .constructMlt3 _ _ | .constructHdb3 _ _ => none
  | .setTbNrzl _ | .setTbNrzi _ | .setTbRz _ | .setTbMan _ | .setTbAmi _ | .setTbMlt3 _ | .setTbHdb3 _ => none
  | .setAmpNrzl _ | .setAmpNrzi _ | .setAmpRz _ | .setAmpMan _ | .setAmpAmi _ | .setAmpMlt3 _ | .setAmpHdb3 _ => none
  | .setDutyNrzl _ | .setDutyNrzi _ | .setDutyRz _ | .setDutyMan _ | .setDutyAmi _ | .setDutyMlt3 _
  | .setDutyHdb3 _ => none

/-- An encoder's own registers at their initial values (R16). -/
def engineStart (sc : Scheme) (u : CoderUnit) : Except Fault Engine :=
  match sc with
  | .nrzl => .ok .nrzl
  | .nrzi => .ok (.nrzi u.v)
  | .rz => .ok .rz
  | .man => .ok .man
  | .ami => .ok (.ami u.v)
  | .mlt3 => .ok (.mlt3 0)
  | .hdb3 =>
    match hdb3Init u with
    | .ok h => .ok (.hdb3 h)
    | .error e => .error e

/-- The transient state with which an `ENCODE` starts (R16, R80). -/
def transientStart (sc : Scheme) (bits : List Bool) (u : CoderUnit) : Except Fault Transient :=
  match engineStart sc u with
  | .ok g => .ok { bits, i := 0, wave := .start, engine := g }
  | .error e => .error e

/-- The step of the encoder at work for one bit: its registers and the wave. -/
def engineBit (s : State) (g : Engine) (a : Wave) (b : Bool) : Except Fault (Engine × Wave) :=
  let f := s.config.num
  match g with
  | .nrzl => .ok (.nrzl, nrzlBit f s.nrzl a b)
  | .nrzi acc => let r := nrziBit f s.nrzi (acc, a) b; .ok (.nrzi r.1, r.2)
  | .rz => .ok (.rz, rzBit f s.rz s.rzDuty a b)
  | .man => .ok (.man, manBit f s.man a b)
  | .ami acc => let r := amiBit f s.ami (acc, a) b; .ok (.ami r.1, r.2)
  | .mlt3 idx => let r := mlt3Bit f s.mlt3 (idx, a) b; .ok (.mlt3 r.1, r.2)
  | .hdb3 h =>
    match hdb3Bit h b with
    | .ok h' => .ok (.hdb3 h', a)
    | .error e => .error e

/-- The end-of-stream action: HDB3's pass 2 (R129); nothing for the other encoders. -/
def engineFinish (s : State) (g : Engine) (a : Wave) : List Segment :=
  match g with
  | .hdb3 h => hdb3Pass2 s.config.num s.hdb3 h.sym
  | _ => a.out

/-- One step of the `ENCODE` in progress: the bit at the cursor, and the cursor moves on (R19); past the last bit the
end-of-stream action, the response, and the transient state is discarded (R16). -/
def encodeTick (tr : Transient) (s : State) : Result :=
  match bitRead tr.bits tr.i with
  | some b =>
    match engineBit s tr.engine tr.wave b with
    | .ok (g, a) =>
      .next { s with busy := some (.encoding { tr with i := tr.i + 1, wave := a, engine := g }), response := none }
    | .error e => .fault e
  | none => .next (s.release.respond (.answer (.segments (engineFinish s tr.engine tr.wave))))

/-- The entry of an `ENCODE` (R80) when its inside is performed step by step: the scheme and the bits when the entry tests
pass, so that the encoder starts. -/
def encodeBegins (i : Instr) (s : State) : Option (Scheme × List Bool) :=
  match encodeOperand i with
  | some (sc, bits) => if s.config.admitsLength bits.length && (s.unit sc).valid then some (sc, bits) else none
  | none => none

/-- The first step of such an `ENCODE`. -/
def encodeBegin (sc : Scheme) (bits : List Bool) (s : State) : Result :=
  match transientStart sc bits (s.unit sc) with
  | .ok tr => .next { s with busy := some (.encoding tr), response := none }
  | .error e => .fault e

end Sys2Proof.Machine
end

