-- ==== Sys2Proof/Machine/Step.lean ====
section
/-! DEFINITION. One step of the machine: what the host does next, and what the block does with it
(`spec/70_reset_and_hazards.md` R170, R173, R178; log 4). -/

namespace Sys2Proof.Machine

/-- A decoded command is performed whole (R38), if its numbers are elements of `NUM` (R5). -/
def performInstr (i : Instr) (s : State) : Result :=
  if i.numsAdmitted s.config then exec i s else .refused .operandOutsideNum

/-- A presented command is decoded and performed whole; a reserved word answers `IllegalCommand` (R56). -/
def perform (f : Frame) (s : State) : Result :=
  match decode f with
  | .instr i => performInstr i s
  | .reserved _ => .next (illegalCommand s)
  | .badOperands _ => .refused .badOperands

/-- The first step of a command that was presented earlier: the entry of an `ENCODE` that passes its tests, and every
other command whole. -/
def beginCommand (f : Frame) (s : State) : Result :=
  match decode f with
  | .instr i =>
    match encodeBegins i s with
    | some (sc, bits) => encodeBegin sc bits s
    | none => performInstr i s
  | .reserved _ => .next (illegalCommand s)
  | .badOperands _ => .refused .badOperands

/-- What the block does by itself while the host waits: it goes on with the command in progress, or is idle. -/
def advance (s : State) : Result :=
  match s.busy with
  | none => .next s.noResponse
  | some (.presented f) => beginCommand f s.release
  | some (.encoding tr) => encodeTick tr s

/-- The host presents a command: alone, or while another is in progress, which the spec gives no step (R173). -/
def whenFree (s : State) (r : Result) : Result :=
  match s.busy with
  | none => r
  | some _ => .fault .overlappingCommands

/-- One step. -/
def step (s : State) : Host.Outcome State Fault Refusal :=
  match s.takeEvent with
  | (.wait, s') => advance s'
  | (.reset, s') => .next s'.afterReset
  | (.start f, s') => whenFree s' (.next (s'.present f))
  | (.command f, s') => whenFree s' (perform f s')

/-- `s` with the command of a table word presented next (log 16, log 17). -/
def State.withFetchWord (s : State) (nbits w : Nat) : State := s.presentNext (frameOfTableWord nbits w)

end Sys2Proof.Machine
end

