-- ==== Sys2Proof/Safety.lean ====
section
/-! DEFINITION. What counts as a safe run, in the terms the statements use: legal parameter values and the register
invariant (`spec/10_state.md` R14), values inside `NUM` (`spec/00_scope.md` R5), contiguous output (`spec/20_memory.md`
R36), the invariant of the transient state, and what can be observed of a run (`spec/70_reset_and_hazards.md` R179). -/

namespace Sys2Proof.Machine

/-! ### Legal parameter values -/

/-- Finite and greater than zero: the bit period, and the amplitude of a closed scheme. -/
def Positive (x : Number) : Prop := ∃ r : Rat, x = .rat r ∧ 0 < r

/-- Finite and not zero: the amplitude of an open scheme. -/
def NonZero (x : Number) : Prop := ∃ r : Rat, x = .rat r ∧ r ≠ 0

/-- Finite and in `(0, 1]`: the duty fraction. -/
def DutyFraction (x : Number) : Prop := ∃ r : Rat, x = .rat r ∧ 0 < r ∧ r ≤ 1

/-- The amplitudes a scheme admits, scheme by scheme as the table of R15 lists them. -/
def LegalAmplitude (sc : Scheme) (x : Number) : Prop :=
  match sc with
  | .nrzl => Positive x
  | .rz => Positive x
  | .man => Positive x
  | .mlt3 => Positive x
  | .nrzi => NonZero x
  | .ami => NonZero x
  | .hdb3 => NonZero x

/-- The register invariant of R14. -/
def State.RegistersLegal (s : State) : Prop :=
  (∀ sc, (s.unit sc).valid = true → Positive (s.unit sc).tb ∧ LegalAmplitude sc (s.unit sc).v) ∧
  (s.rz.valid = true → DutyFraction s.rzDuty)

/-- Every parameter register holds an element of `NUM` (R5). -/
def State.RegistersInNum (s : State) : Prop :=
  (∀ sc, (s.unit sc).tb.inFormat s.config.num = true ∧ (s.unit sc).v.inFormat s.config.num = true) ∧
  s.rzDuty.inFormat s.config.num = true

/-! ### The finite values of a binary format

Said from IEEE 754's own description of a format (`spec/93_implementation_defined.md` G1; log 14): precision `p`, greatest
exponent `emax`; nothing of the model's rounding is used. -/

/-- `r` is a finite value of the format: a significand of at most `p` bits times a power of two that the format has. -/
def FiniteValue (p emax : Nat) (r : Rat) : Prop :=
  ∃ m q : Int, |m| < 2 ^ p ∧ (2 : Int) - emax - p ≤ q ∧ q ≤ (emax : Int) + 1 - p ∧ r = m * (2 : Rat) ^ q

/-- The significand of the finite value `r` is even, `r` being written with a leading bit or with the least exponent. -/
def EvenSignificand (p emax : Nat) (r : Rat) : Prop :=
  ∃ m q : Int, |m| < 2 ^ p ∧ (2 : Int) - emax - p ≤ q ∧ (2 ^ (p - 1) ≤ |m| ∨ q = (2 : Int) - emax - p) ∧
    r = m * (2 : Rat) ^ q ∧ Even m

/-- Half a unit beyond the greatest finite value: from here on a number rounds to infinity. -/
def overflowBound (p emax : Nat) : Rat := ((2 : Rat) ^ p - 1 / 2) * (2 : Rat) ^ ((emax : Int) + 1 - p)

/-- The instance `f` has exactly the finite values of the format, and its rounding is to nearest, ties to even: beyond the
bound an infinity of the number's sign; below it a finite value than which none is nearer, with an even significand where
another is as near, and a zero of the number's sign. -/
def RoundsToNearestEven (f : NumFormat) (p emax : Nat) : Prop :=
  ∀ x : Rat,
    ((Number.rat x).inFormat f = true ↔ FiniteValue p emax x) ∧
    (overflowBound p emax ≤ |x| → Number.round f x = .inf (decide (x < 0))) ∧
    (|x| < overflowBound p emax → ∃ r : Rat,
      Number.round f x = (if r = 0 ∧ x < 0 then .negZero else .rat r) ∧ FiniteValue p emax r ∧
      (∀ r', FiniteValue p emax r' → |x - r| ≤ |x - r'|) ∧
      (∀ r', FiniteValue p emax r' → r' ≠ r → |x - r'| = |x - r| → EvenSignificand p emax r))

/-! ### Output sequences -/

/-- R34 and R36: the first segment starts at 0, each starts where the one before it ends, each ends after it starts, and
no later one starts before an earlier one has ended. -/
def Contiguous (out : List Segment) : Prop :=
  (∀ h : 0 < out.length, out[0].start = .zero) ∧
  (∀ k, ∀ h : k + 1 < out.length, out[k].stop = out[k + 1].start) ∧
  (∀ g ∈ out, g.stop.gt g.start = true) ∧
  (∀ j k, ∀ h : k < out.length, ∀ hj : j < k, (out[j].stop).le out[k].start = true)

/-- R20: the clock is the end of the last segment, or 0 when there is none. -/
def Wave.ClockIsLastStop (a : Wave) : Prop := a.t = (a.out.getLast?.map (·.stop)).getD .zero

/-- The output of candidates that all have the width `w` and in order the levels `levels` (R35): the segments are the first
of them, each ends at the sum of its start and `w`, and where some are missing the clock can take the width no more. -/
def CutAtTheEnd (f : NumFormat) (w : Number) (levels : List Number) (out : List Segment) : Prop :=
  out.map (·.level) <+: levels ∧
  (∀ g ∈ out, g.stop = g.start.add f w) ∧
  (out.length < levels.length →
    let t := (out.getLast?.map (·.stop)).getD .zero
    ¬ (w.gt .zero = true ∧ (t.add f w).gt t = true))

/-- An `ENCODE` answers `OK` with the output `out`. -/
def Answers (i : Instr) (s : State) (out : List Segment) : Prop :=
  exec i s = .next { s with response := some { status := .ok, payload := .segments out } }

/-! ### The transient state between two steps of an `ENCODE` -/

/-- R131 (a) and (b), and R22, of HDB3's registers after `n` bits. -/
def Hdb3Regs.Sound (h : Hdb3Regs) (n : Nat) : Prop :=
  h.sym.length = n ∧ h.zeros ≤ 3 ∧ h.zeros ≤ n ∧ h.sym.drop (n - h.zeros) = List.replicate h.zeros .sil

/-- What R16 and R131 say of an encoder's own registers after `n` bits: the accumulator is `V` or `-V`, and HDB3's
registers are sound. The unit of the encoder at work is valid (R80). -/
def Engine.Sound (s : State) (n : Nat) : Engine → Prop
  | .nrzl => s.nrzl.valid = true
  | .nrzi acc => s.nrzi.valid = true ∧ (acc = s.nrzi.v ∨ acc = s.nrzi.v.neg s.config.num)
  | .rz => s.rz.valid = true
  | .man => s.man.valid = true
  | .ami acc => s.ami.valid = true ∧ (acc = s.ami.v ∨ acc = s.ami.v.neg s.config.num)
  | .mlt3 _ => s.mlt3.valid = true
  | .hdb3 h => s.hdb3.valid = true ∧ h.Sound n

/-- The invariant of the `ENCODE` in progress: the cursor is in range (R16, R19), the output so far is contiguous, the
clock is where it ends (R20), and the encoder's registers are sound; no response is pending meanwhile. -/
def State.TransientSound (s : State) : Prop :=
  ∀ tr, s.busy = some (.encoding tr) →
    tr.i ≤ tr.bits.length ∧ Contiguous tr.wave.out ∧ tr.wave.ClockIsLastStop ∧ tr.engine.Sound s tr.i ∧
    s.response = none

/-- The invariant of the whole machine. -/
def State.Inv (s : State) : Prop := s.RegistersLegal ∧ s.RegistersInNum ∧ s.TransientSound

/-! ### What a command may write -/

/-- The one unit whose registers a command may write (R10, R11): the unit that `CONSTRUCT`, `SET_TB`, `SET_AMP` names. -/
def writesUnit (i : Instr) : Option Scheme :=
  match i.opcode with
  | .construct sc | .setTb sc | .setAmp sc => some sc
  | .chkTb | .chkAmpc | .chkAmpo | .chkDuty | .parse | .setDuty _ | .encode _ => none

/-- A command that may write `P[RZ].DUTY` (R12). -/
def writesDuty (i : Instr) : Bool :=
  match i.opcode with
  | .construct .rz | .setDuty .rz => true
  | _ => false

/-! ### Runs and what is observed of them -/

/-- `k` steps, as far as the machine goes: `Host.Core.run` of this machine, over its own types. -/
def run : Nat → State → Result
  | 0, s => .next s
  | k + 1, s =>
    match step s with
    | .next t => run k t
    | .fault e => .fault e
    | .refused r => .refused r

/-- What can be observed of the first `k` steps of a run: the sequence of the responses, in order (R179); a run that stops
shows what it has shown. -/
def State.observe : Nat → State → List Response
  | 0, _ => []
  | k + 1, s =>
    match step s with
    | .next t => t.response.toList ++ State.observe k t
    | .fault _ => []
    | .refused _ => []

end Sys2Proof.Machine
end

