-- ==== Sys2Proof/Certificates/Slice0/Obligations.lean ====
section
/-! DEFINITION. The statements for the provers, in the order of the spec's rules. `Positive`, `NonZero`, `DutyFraction`
and `LegalAmplitude` (Safety.lean) say which numbers the checks admit without the model's own tests, and numbers are
written as rationals wherever a rule fixes them.

Where a title says "the spec's own decision", the clause rests on an entry D<n> of `spec/92_eei_decisions.md`, which the
spec marks as its own choice. -/

open Sys2Proof Sys2Proof.Machine

/-! ### Decoding (`spec/30_encoding.md`) -/

/-- Command words of every family written out from the table of R53 (the spec's own decision D6) decode to the commands
they stand for, with every operand. -/
def Obligations.TableWordsDecode : Prop :=
  (∀ x, decode ⟨0x00#8, [.num x]⟩ = .instr (.chkTb x)) ∧
  (∀ x, decode ⟨0b00000011#8, [.num x]⟩ = .instr (.chkDuty x)) ∧
  (decode ⟨0x04#8, [.len 2, .chr 0x30#8, .chr 0x31#8]⟩ = .instr (.parse [0x30#8, 0x31#8])) ∧
  (∀ tb v, decode ⟨0b00010100#8, [.num tb, .num v]⟩ = .instr (.constructAmi tb v)) ∧
  (∀ tb v d, decode ⟨0x12#8, [.num tb, .num v, .num d]⟩ = .instr (.constructRz tb v d)) ∧
  (∀ x, decode ⟨0b00100110#8, [.num x]⟩ = .instr (.setTbHdb3 x)) ∧
  (∀ x, decode ⟨0x35#8, [.num x]⟩ = .instr (.setAmpMlt3 x)) ∧
  (∀ x, decode ⟨0x42#8, [.num x]⟩ = .instr (.setDutyRz x)) ∧
  (∀ x, decode ⟨0x43#8, [.num x]⟩ = .instr (.setDutyMan x)) ∧
  (decode ⟨0b01010001#8, [.len 3, .bit false, .bit true, .bit true]⟩ = .instr (.encodeNrzi [false, true, true]))

/-- Decoding what the encoder writes gives the command back, for every command and every operand value, sequences of
every length included (the encoding is the spec's own decision D6). -/
def Obligations.DecodeOfEncode : Prop := ∀ i : Instr, decode (encode i) = .instr i

/-- Every presented command that decodes is the one form in which the encoder writes its command. The encoding is the spec's
own decision D6. That no operand item and no length is ignored, so that a legal word with surplus, missing or miscounted
items decodes to no command, is the model's own choice (log 7), for the spec describes no such presentation. -/
def Obligations.EncodeOfDecode : Prop := ∀ (f : Frame) (i : Instr), decode f = .instr i → encode i = f

/-- A command word is rejected as reserved exactly under the conditions of R56, and reading that off needs no operand (the
spec's own decision D6). -/
def Obligations.ReservedWordsAreThoseListed : Prop :=
  ∀ (w : CmdWord) (items : List Item),
    decode ⟨w, items⟩ = .reserved w ↔
      (w.getLsbD 3 = true ∨ 6 ≤ w.toNat / 16 ∨ (1 ≤ w.toNat / 16 ∧ w.toNat / 16 ≤ 5 ∧ w.toNat % 8 = 7) ∨
        (w.toNat / 16 = 0 ∧ 5 ≤ w.toNat % 8))

/-! ### Steps (`spec/70_reset_and_hazards.md`, `spec/20_memory.md`) -/

/-- A step runs the decoded command (the model's steps are its choice, log 4). A command presented whole, with none in
progress, is performed on the state from which its event has been taken. A command presented by `start` is put in progress
and answers nothing yet; when the host then waits, or has nothing more to do, the step performs it whole in the same way,
unless it is an `ENCODE` that passes its entry tests, whose inside SerialEncodeRefinesTheCommand follows. The numbers are
elements of `NUM` (log 8). -/
def Obligations.StepRunsDecodedCommand : Prop :=
  (∀ (s : State) (f : Frame) (rest : List HostEvent) (i : Instr),
    s.inbox = .command f :: rest → s.busy = none → decode f = .instr i →
    (∀ x ∈ i.nums, x.inFormat s.config.num = true) →
    step s = exec i { s with inbox := rest }) ∧
  (∀ (s : State) (f : Frame) (rest : List HostEvent), s.inbox = .start f :: rest → s.busy = none →
    step s = .next { s with inbox := rest, busy := some (.presented f), response := none }) ∧
  (∀ (s : State) (f : Frame) (i : Instr),
    s.inbox = [] ∨ (∃ rest, s.inbox = .wait :: rest) → s.busy = some (.presented f) → decode f = .instr i →
    (∀ x ∈ i.nums, x.inFormat s.config.num = true) →
    (∀ sc bits, i = .encodeBits sc bits →
      (s.unit sc).valid = false ∨ s.config.admitsLength bits.length = false) →
    step s = exec i { s with inbox := s.inbox.tail, busy := none })

/-- A reserved word answers `IllegalCommand` with no payload and has no other effect, whatever operands come with it, both
as a whole transaction and when it was presented by `start` (R56, R153; the status is the spec's own decision D6, D7; log 4,
log 10). -/
def Obligations.ReservedWordAnswersIllegalCommand : Prop :=
  (∀ (s : State) (f : Frame) (rest : List HostEvent),
    s.inbox = .command f :: rest → s.busy = none → decode f = .reserved f.word →
    step s = .next { s with inbox := rest, response := some { status := .illegalCommand, payload := .empty } }) ∧
  (∀ (s : State) (f : Frame),
    s.inbox = [] ∨ (∃ rest, s.inbox = .wait :: rest) → s.busy = some (.presented f) →
    decode f = .reserved f.word →
    step s = .next { s with
      inbox := s.inbox.tail, busy := none, response := some { status := .illegalCommand, payload := .empty } })

/-- A command presented while another is in progress is given no step: the machine stops with the fault that says so
(R173; the spec's own decision D19; log 11). -/
def Obligations.OverlappingCommandsStop : Prop :=
  ∀ (s : State) (f : Frame) (rest : List HostEvent) (b : Busy),
    s.busy = some b → (s.inbox = .command f :: rest ∨ s.inbox = .start f :: rest) →
    step s = .fault .overlappingCommands

/-- Right after reset every unit has `VALID = 0`, no command is in progress and no response is pending (R24; the spec's own
decision D10). Nothing is said of `TB`, `V` and `DUTY`, which hold no value (log 3). -/
def Obligations.ResetStateOfTheBlock : Prop :=
  (∀ sc, (State.reset.unit sc).valid = false) ∧ State.reset.busy = none ∧ State.reset.response = none

/-- A reset may be applied in every state, also during a command: the step leads to a state with every `VALID = 0`, no
command in progress and no response (R170; the spec's own decision D10), and the machine has then forgotten everything but
its configuration and what the host does next (log 12). -/
def Obligations.ResetEventForgetsTheRun : Prop :=
  ∀ (s : State) (rest : List HostEvent),
    s.inbox = .reset :: rest →
    ∃ t, step s = .next t ∧ (∀ sc, (t.unit sc).valid = false) ∧ t.busy = none ∧ t.response = none ∧
      t.config = s.config ∧ t.inbox = rest ∧
      (∀ s' : State, s'.inbox = .reset :: rest → s'.config = s.config → step s' = .next t)

/-- A command that a reset interrupts is abandoned and returns no response: from the step that presents it, over any number
of steps in which the host waits before the command has ended, to the reset, nothing is observed (R170; D10; log 12).
`ENCODE` is the command whose inside takes more than one step: of an `ENCODE` of `n` bits on a valid unit, up to `n + 1`
waits. -/
def Obligations.InterruptedEncodeIsNotAnswered : Prop :=
  ∀ (s : State) (sc : Scheme) (bits : List Bool) (k : Nat),
    s.busy = none → s.RegistersLegal → (s.unit sc).valid = true → s.config.admitsLength bits.length = true →
    k ≤ bits.length + 1 →
    s.inbox = .start (encode (.encodeBits sc bits)) :: (List.replicate k .wait ++ [.reset]) →
    s.observe (k + 2) = [] ∧
      ∃ t, run (k + 2) s = .next t ∧ (∀ sc', (t.unit sc').valid = false) ∧ t.busy = none ∧ t.response = none

/-- The inside of an `ENCODE`, performed as R4 allows to read it off (an initial state, one step for each bit, an
end-of-stream action; the size of a step is the model's choice, log 4), gives what the whole command gives (R38): presented,
begun, `n` bits, ended. The host waits meanwhile, by `n + 2` events or by having nothing more to do, and goes on with `rest`. -/
def Obligations.SerialEncodeRefinesTheCommand : Prop :=
  ∀ (s : State) (sc : Scheme) (bits : List Bool) (k : Nat) (rest : List HostEvent),
    s.busy = none → s.RegistersLegal → (s.unit sc).valid = true → s.config.admitsLength bits.length = true →
    k ≤ bits.length + 2 → (rest = [] ∨ k = bits.length + 2) →
    s.inbox = .start (encode (.encodeBits sc bits)) :: (List.replicate k .wait ++ rest) →
    run (bits.length + 3) s = step { s with inbox := .command (encode (.encodeBits sc bits)) :: rest }

/-- With nothing in progress, a step in which the host waits, by an event or by having nothing more to do, changes nothing
but the events and returns no response (R153, R161: the block awaits the next command; log 4, log 5). -/
def Obligations.IdleBlockStaysAsItIs : Prop :=
  ∀ s : State, s.busy = none → s.inbox = [] ∨ (∃ rest, s.inbox = .wait :: rest) →
    step s = .next { s with inbox := s.inbox.tail, response := none }

/-! ### The four checks (`spec/40_validator_and_configuration.md`) -/

/-- R70: `CHK_TB`, its word, its two answers and that it writes no state. -/
def Obligations.CheckBitPeriod : Prop :=
  ∀ (x : Number) (s : State),
    decode ⟨0x00#8, [.num x]⟩ = .instr (.chkTb x) ∧
    (Positive x → exec (.chkTb x) s = .next { s with response := some { status := .ok, payload := .num x } }) ∧
    (¬ Positive x →
      exec (.chkTb x) s = .next { s with response := some { status := .invalidBitPeriod, payload := .empty } })

/-- R71: `CHK_AMPC`, its word, its two answers and that it writes no state. -/
def Obligations.CheckAmplitudeClosed : Prop :=
  ∀ (x : Number) (s : State),
    decode ⟨0x01#8, [.num x]⟩ = .instr (.chkAmpc x) ∧
    (Positive x → exec (.chkAmpc x) s = .next { s with response := some { status := .ok, payload := .num x } }) ∧
    (¬ Positive x →
      exec (.chkAmpc x) s = .next { s with response := some { status := .badAmplitude, payload := .empty } })

/-- R72: `CHK_AMPO`, its word, its two answers and that it writes no state. -/
def Obligations.CheckAmplitudeOpen : Prop :=
  ∀ (x : Number) (s : State),
    decode ⟨0x02#8, [.num x]⟩ = .instr (.chkAmpo x) ∧
    (NonZero x → exec (.chkAmpo x) s = .next { s with response := some { status := .ok, payload := .num x } }) ∧
    (¬ NonZero x →
      exec (.chkAmpo x) s = .next { s with response := some { status := .badAmplitude, payload := .empty } })

/-- R73: `CHK_DUTY`, its word, its two answers and that it writes no state. -/
def Obligations.CheckDuty : Prop :=
  ∀ (x : Number) (s : State),
    decode ⟨0x03#8, [.num x]⟩ = .instr (.chkDuty x) ∧
    (DutyFraction x → exec (.chkDuty x) s = .next { s with response := some { status := .ok, payload := .num x } }) ∧
    (¬ DutyFraction x →
      exec (.chkDuty x) s = .next { s with response := some { status := .wrongDuty, payload := .empty } })

/-! ### Construction and reconfiguration -/

/-- Each of the seven `CONSTRUCT.s` with legal operands answers `OK` with no payload, writes every register of its unit and
`VALID`, `CONSTRUCT.RZ` also `DUTY`, and changes nothing else (R75). -/
def Obligations.ConstructWritesTheUnit : Prop :=
  ∀ (sc : Scheme) (tb v duty : Number) (s : State),
    Positive tb → LegalAmplitude sc v → (sc = .rz → DutyFraction duty) →
    ∃ t, exec (.construct sc tb v duty) s = .next t ∧
      t.unit sc = { valid := true, tb := tb, v := v } ∧
      t.rzDuty = (if sc = .rz then duty else s.rzDuty) ∧
      (∀ sc', sc' ≠ sc → t.unit sc' = s.unit sc') ∧
      t.response = some { status := .ok, payload := .empty } ∧
      t.config = s.config ∧ t.busy = s.busy ∧ t.inbox = s.inbox

/-- Each of the seven `CONSTRUCT.s` with an illegal operand writes nothing and answers the status of the first failing
check in the order bit period, amplitude, duty (R75; the order is the spec's own decision D9). -/
def Obligations.ConstructReportsTheFirstFailure : Prop :=
  ∀ (sc : Scheme) (tb v duty : Number) (s : State),
    (¬ Positive tb → exec (.construct sc tb v duty) s =
      .next { s with response := some { status := .invalidBitPeriod, payload := .empty } }) ∧
    (Positive tb → ¬ LegalAmplitude sc v → exec (.construct sc tb v duty) s =
      .next { s with response := some { status := .badAmplitude, payload := .empty } }) ∧
    (Positive tb → LegalAmplitude sc v → sc = .rz → ¬ DutyFraction duty → exec (.construct sc tb v duty) s =
      .next { s with response := some { status := .wrongDuty, payload := .empty } })

/-- Each of the seven `SET_TB.s`: on a valid unit a legal value is written to `TB` and nothing else changes, an illegal one
answers `InvalidBitPeriod` and changes nothing; on a unit that is not valid the answer is `NotConstructed` (R76; the last is
the spec's own decision D12). -/
def Obligations.SetBitPeriod : Prop :=
  ∀ (sc : Scheme) (x : Number) (s : State),
    ((s.unit sc).valid = true → Positive x →
      ∃ t, exec (.setTb sc x) s = .next t ∧ t.unit sc = { s.unit sc with tb := x } ∧
        (∀ sc', sc' ≠ sc → t.unit sc' = s.unit sc') ∧ t.rzDuty = s.rzDuty ∧
        t.response = some { status := .ok, payload := .empty } ∧
        t.config = s.config ∧ t.busy = s.busy ∧ t.inbox = s.inbox) ∧
    ((s.unit sc).valid = true → ¬ Positive x → exec (.setTb sc x) s =
      .next { s with response := some { status := .invalidBitPeriod, payload := .empty } }) ∧
    ((s.unit sc).valid = false → exec (.setTb sc x) s =
      .next { s with response := some { status := .notConstructed, payload := .empty } })

/-- Each of the seven `SET_AMP.s`, with the scheme's own check (R77, R74, R15; HDB3's class is the spec's own decision D4,
`NotConstructed` D12). -/
def Obligations.SetAmplitude : Prop :=
  ∀ (sc : Scheme) (x : Number) (s : State),
    ((s.unit sc).valid = true → LegalAmplitude sc x →
      ∃ t, exec (.setAmp sc x) s = .next t ∧ t.unit sc = { s.unit sc with v := x } ∧
        (∀ sc', sc' ≠ sc → t.unit sc' = s.unit sc') ∧ t.rzDuty = s.rzDuty ∧
        t.response = some { status := .ok, payload := .empty } ∧
        t.config = s.config ∧ t.busy = s.busy ∧ t.inbox = s.inbox) ∧
    ((s.unit sc).valid = true → ¬ LegalAmplitude sc x → exec (.setAmp sc x) s =
      .next { s with response := some { status := .badAmplitude, payload := .empty } }) ∧
    ((s.unit sc).valid = false → exec (.setAmp sc x) s =
      .next { s with response := some { status := .notConstructed, payload := .empty } })

/-- `SET_DUTY.RZ`: on a valid unit a legal value is written to `DUTY` and nothing else changes, an illegal one answers
`WrongDuty` and changes nothing; on a unit that is not valid the answer is `NotConstructed` (R78; the last is the spec's own
decision D12). -/
def Obligations.SetDutyOfRz : Prop :=
  ∀ (x : Number) (s : State),
    (s.rz.valid = true → DutyFraction x → exec (.setDutyRz x) s =
      .next { s with rzDuty := x, response := some { status := .ok, payload := .empty } }) ∧
    (s.rz.valid = true → ¬ DutyFraction x → exec (.setDutyRz x) s =
      .next { s with response := some { status := .wrongDuty, payload := .empty } }) ∧
    (s.rz.valid = false → exec (.setDutyRz x) s =
      .next { s with response := some { status := .notConstructed, payload := .empty } })

/-- Each of the six `SET_DUTY.s` with `s` not RZ answers `Unsupported`, whatever the operand and whether or not the unit is
valid, and changes nothing (R79; the status is the spec's own decision D8). -/
def Obligations.SetDutyElsewhereIsUnsupported : Prop :=
  ∀ (sc : Scheme) (x : Number) (s : State), sc ≠ .rz →
    exec (.setDuty sc x) s = .next { s with response := some { status := .unsupported, payload := .empty } }

/-! ### Rules over all forty commands -/

/-- R153: a command that returns a status other than `OK` writes no register of any unit and returns no payload, whichever
of the forty it is; nothing but the response has changed. -/
def Obligations.FailedCommandHasNoEffect : Prop :=
  ∀ (i : Instr) (s t : State) (r : Response),
    exec i s = .next t → t.response = some r → r.status ≠ .ok →
    r.payload = .empty ∧ t = { s with response := some r }

/-- Every command that ends has returned exactly one response (R18, R150), and has written no register but those of the
unit it names, `DUTY` only if it is `CONSTRUCT.RZ` or `SET_DUTY.RZ` (R10 to R12); the checks, `PARSE` and `ENCODE` write no
register. The configuration, the command in progress and the host's events are untouched (log 2, log 4). -/
def Obligations.CommandWritesOnlyItsUnit : Prop :=
  ∀ (i : Instr) (s t : State), exec i s = .next t →
    t.response.isSome = true ∧
    (∀ sc, writesUnit i ≠ some sc → t.unit sc = s.unit sc) ∧
    (writesDuty i = false → t.rzDuty = s.rzDuty) ∧
    t.config = s.config ∧ t.busy = s.busy ∧ t.inbox = s.inbox

/-- No command clears `VALID`: only a reset does (R171; the spec's own decision D12). -/
def Obligations.OnlyResetClearsValid : Prop :=
  ∀ (s t : State) (sc : Scheme), step s = .next t → (s.unit sc).valid = true → (t.unit sc).valid = false →
    ∃ rest, s.inbox = .reset :: rest

/-! ### Invariants of every step -/

/-- R14 holds at reset, and so does the rest of the machine's invariant, in every configuration. -/
def Obligations.InvariantAtReset : Prop := ∀ c : Config, (State.resetWith c).Inv

/-- R14 is kept by every step from every state that has it: whenever a unit is valid, its bit period, amplitude and duty
are finite and in their ranges, in every instance of `NUM`. -/
def Obligations.StepKeepsRegistersLegal : Prop :=
  ∀ s t : State, s.RegistersLegal → step s = .next t → t.RegistersLegal

/-- Every parameter register holds an element of `NUM` after every step from a state where that is so (R5). -/
def Obligations.StepKeepsRegistersInNum : Prop :=
  ∀ s t : State, s.RegistersInNum → step s = .next t → t.RegistersInNum ∧ t.config = s.config

/-- The invariant of the whole machine, the transient state of the `ENCODE` in progress included (R16, R19, R20, R22, R131:
cursor, clock, accumulator, HDB3's counters and symbol buffer), is kept by every step. -/
def Obligations.StepKeepsTheInvariant : Prop := ∀ s t : State, s.Inv → step s = .next t → t.Inv

/-- Under the invariant no step meets a defect of R159: `sign` is never applied to a number without a sign, and `SymDrop3`
always finds three `SIL`. -/
def Obligations.NoDefectUnderTheInvariant : Prop :=
  ∀ s : State, s.Inv → step s ≠ .fault .signUndefined ∧ step s ≠ .fault .symDropUndefined

/-! ### `ENCODE`: what all schemes share -/

/-- Once a unit is constructed, each of the seven `ENCODE.s` answers `OK` on every bit sequence that `N_MAX` admits, in every
instance of `NUM`, and writes no register (R80, R152). R14 is a premise: it rules out the states that no run reaches. -/
def Obligations.EncodeNeverFails : Prop :=
  ∀ (sc : Scheme) (bits : List Bool) (s : State),
    s.RegistersLegal → (s.unit sc).valid = true → s.config.admitsLength bits.length = true →
    ∃ out, Answers (.encodeBits sc bits) s out

/-- Each of the seven `ENCODE.s` on a unit that is not valid answers `NotConstructed` and changes nothing (R80; the spec's
own decision D12). -/
def Obligations.EncodeNeedsConstruction : Prop :=
  ∀ (sc : Scheme) (bits : List Bool) (s : State),
    (s.unit sc).valid = false → s.config.admitsLength bits.length = true →
    exec (.encodeBits sc bits) s = .next { s with response := some { status := .notConstructed, payload := .empty } }

/-- A bit sequence or character sequence longer than `N_MAX` is refused, by each `ENCODE.s` and by `PARSE`, and with `N_MAX`
unbounded none is (R43; the spec's own decision D13; log 9). -/
def Obligations.OverlongSequencesAreRefused : Prop :=
  ∀ (sc : Scheme) (bits : List Bool) (chars : List CharCode) (s : State),
    (∀ m, s.config.nMax = some m → m < bits.length → exec (.encodeBits sc bits) s = .refused .lengthOverNMax) ∧
    (∀ m, s.config.nMax = some m → m < chars.length → exec (.parse chars) s = .refused .lengthOverNMax) ∧
    (s.config.nMax = none →
      exec (.encodeBits sc bits) s ≠ .refused .lengthOverNMax ∧ exec (.parse chars) s ≠ .refused .lengthOverNMax)

/-- R44: `ENCODE.s` of the empty sequence on a valid unit answers `OK` and the empty output, for every scheme; `PARSE` of the
empty string is rejected (R140; the name of its status is the spec's own decision D7). -/
def Obligations.EmptyInputGivesEmptyOutput : Prop :=
  ∀ (sc : Scheme) (s : State),
    (s.RegistersLegal → (s.unit sc).valid = true → Answers (.encodeBits sc []) s []) ∧
    exec (.parse []) s = .next { s with response := some { status := .parseReject, payload := .empty } }

/-- R36 with R34: the output of every `ENCODE` starts at 0 and is contiguous, every segment ends after it starts, and
segments never overlap, in every state, for every scheme, every bit sequence and every instance of `NUM`, rounding, absorption
and overflow included. -/
def Obligations.OutputIsContiguous : Prop :=
  ∀ (sc : Scheme) (bits : List Bool) (s : State) (out : List Segment),
    Answers (.encodeBits sc bits) s out → Contiguous out

/-- R45 and R17: what an `ENCODE.s` answers is a function of the scheme, the unit's parameter registers and the bits, in one
configuration; no other unit, no earlier response and no earlier command has any part in it, so an `ENCODE` leaves nothing
behind that a later one could see. -/
def Obligations.OutputDependsOnlyOnTheUnit : Prop :=
  ∀ (sc : Scheme) (bits : List Bool) (s s' : State) (out : List Segment),
    s.config = s'.config → s.unit sc = s'.unit sc → (sc = .rz → s.rzDuty = s'.rzDuty) →
    Answers (.encodeBits sc bits) s out → Answers (.encodeBits sc bits) s' out

/-- The levels an encoder may use (R16, and the list in `spec/91_not_in_source.md` N8): every segment's level is 0, `v` or
`-v`; NRZ-L, NRZ-I and Manchester never use 0. In every instance of `NUM`. -/
def Obligations.LevelsComeFromTheAmplitude : Prop :=
  ∀ (sc : Scheme) (bits : List Bool) (s : State) (out : List Segment),
    s.RegistersLegal → Answers (.encodeBits sc bits) s out →
    ∀ g ∈ out,
      (g.level = .zero ∨ g.level = (s.unit sc).v ∨ g.level = (s.unit sc).v.neg s.config.num) ∧
      (sc = .nrzl ∨ sc = .nrzi ∨ sc = .man → g.level ≠ .zero)

/-! ### `Emit` and the arithmetic -/

/-- R35 in every instance of `NUM`, and R175 (c), (d); the clock as a running sum and the second test are the spec's own
decision D5 (log 15). In `Q` the width alone decides. In every instance: a candidate of positive width whose sum with the
clock lies beyond the clock becomes the segment from the clock to that sum, which becomes the clock, and every other one is
dropped with no trace; the sum of finite numbers is the exact sum rounded (which RoundingIsToNearestEven fixes); a width of 0,
`-0`, below 0, `-inf` or NaN is dropped; so is a candidate that leaves the rounded clock where it is, and every candidate
after the clock has overflowed to infinity. -/
def Obligations.EmitKeepsOrDropsTheCandidate : Prop :=
  (∀ (t w : Rat) (lv : Number) (out : List Segment),
    emit .rational (.rat w) lv { t := .rat t, out := out } =
      if 0 < w then
        { t := .rat (t + w), out := out ++ [{ start := .rat t, stop := .rat (t + w), level := lv }] }
      else { t := .rat t, out := out }) ∧
  (∀ (f : NumFormat) (t w lv : Number) (out : List Segment),
    emit f w lv { t := t, out := out } =
      if w.gt .zero = true ∧ (t.add f w).gt t = true then
        { t := t.add f w, out := out ++ [{ start := t, stop := t.add f w, level := lv }] }
      else { t := t, out := out }) ∧
  (∀ (f : NumFormat) (t w : Rat), (Number.rat t).add f (.rat w) = Number.round f (t + w)) ∧
  (∀ (f : NumFormat) (w lv : Number) (a : Wave),
    (∀ r : Rat, 0 < r → w ≠ .rat r) → w ≠ .inf false → emit f w lv a = a) ∧
  (∀ (f : NumFormat) (t w lv : Number) (out : List Segment), t.add f w = t →
    emit f w lv { t := t, out := out } = { t := t, out := out }) ∧
  (∀ (f : NumFormat) (w lv : Number) (out : List Segment),
    emit f w lv { t := .inf false, out := out } = { t := .inf false, out := out })

/-- Rounding to nearest, ties to even (R5; what IEEE 754 says beyond those words is log 14). In `binary64` and `binary32`, with
their precisions and greatest exponents written here: `NUM` has exactly the finite values of the format, a number that lies half
a unit or more beyond the greatest of them becomes an infinity, and every other one the finite value than which none is
nearer, with an even significand in a tie. The helper `roundHalfEven` misses the exact quotient by at most one half, and by
exactly one half only to land on an even number. -/
def Obligations.RoundingIsToNearestEven : Prop :=
  RoundsToNearestEven .binary64 53 1023 ∧ RoundsToNearestEven .binary32 24 127 ∧
  ∀ n d : Nat, 0 < d →
    2 * |(roundHalfEven n d : Rat) - (n : Rat) / d| ≤ 1 ∧
    (2 * |(roundHalfEven n d : Rat) - (n : Rat) / d| = 1 → roundHalfEven n d % 2 = 0)

/-- R5: every operation of the rules on elements of `NUM` gives an element of `NUM`, in each of the three instances. -/
def Obligations.ArithmeticStaysInNum : Prop :=
  ∀ (f : NumFormat) (a b : Number), a.inFormat f = true → b.inFormat f = true →
    (a.add f b).inFormat f = true ∧ (a.sub f b).inFormat f = true ∧ (a.mul f b).inFormat f = true ∧
    (a.neg f).inFormat f = true ∧ a.abs.inFormat f = true

/-- In `Q` the operations of R5 are those of the rational numbers. -/
def Obligations.ReferenceArithmeticIsExact : Prop :=
  ∀ x y : Rat,
    (Number.rat x).add .rational (.rat y) = .rat (x + y) ∧ (Number.rat x).sub .rational (.rat y) = .rat (x - y) ∧
    (Number.rat x).mul .rational (.rat y) = .rat (x * y) ∧ (Number.rat x).neg .rational = .rat (-x) ∧
    (Number.rat x).abs = .rat |x| ∧ ((Number.rat x).gt (.rat y) = true ↔ x > y) ∧
    ((Number.rat x).le (.rat y) = true ↔ x ≤ y) ∧ ((Number.rat x).eq (.rat y) = true ↔ x = y) ∧
    ((Number.rat x).ne (.rat y) = true ↔ x ≠ y)

/-! ### The encoders (`spec/41_nrz.md` to `spec/43_ami_mlt3.md`) -/

/-- R90 and R92 in `Q`: NRZ-L gives exactly one segment per bit, segment `k` is `[k*tb, (k+1)*tb)` at `v` for a 1 and `-v` for
a 0, and nothing else changes. -/
def Obligations.NrzlOutput : Prop :=
  ∀ (tb v : Rat) (bits : List Bool) (s : State),
    s.config.num = .rational → s.config.admitsLength bits.length = true → 0 < tb →
    s.nrzl = { valid := true, tb := .rat tb, v := .rat v } →
    Answers (.encodeNrzl bits) s
      (bits.mapIdx fun k b =>
        { start := .rat (k * tb), stop := .rat ((k + 1) * tb), level := .rat (if b then v else -v) })

/-- R91 in `Q`: the level of segment `k` is `v` inverted once for each 1 among the bits 0 to `k`, that of bit `k` included. -/
def Obligations.NrziOutput : Prop :=
  ∀ (tb v : Rat) (bits : List Bool) (s : State),
    s.config.num = .rational → s.config.admitsLength bits.length = true → 0 < tb →
    s.nrzi = { valid := true, tb := .rat tb, v := .rat v } →
    Answers (.encodeNrzi bits) s
      (bits.mapIdx fun k _ =>
        { start := .rat (k * tb), stop := .rat ((k + 1) * tb),
          level := .rat (if (bits.take (k + 1)).count true % 2 = 1 then -v else v) })

/-- R93, in every instance of `NUM` in which no candidate is dropped: the level changes from segment `k` to `k+1` exactly when
bit `k+1` is 1; the first level is `-v` when the first bit is 1 and `v` when it is 0. -/
def Obligations.NrziTogglesOnOnes : Prop :=
  ∀ (bits : List Bool) (s : State) (out : List Segment),
    s.RegistersLegal → Answers (.encodeNrzi bits) s out → (hn : out.length = bits.length) →
    (∀ k, ∀ h : k + 1 < bits.length, (out[k + 1].level ≠ out[k].level ↔ bits[k + 1] = true)) ∧
    (∀ h : 0 < bits.length, out[0].level = if bits[0] then s.nrzi.v.neg s.config.num else s.nrzi.v)

/-- R100 and R102 in `Q` with `duty < 1`: every bit period is exactly two segments, the first of width `duty * tb` at `v` or
`-v`, the second up to the end of the period at 0. -/
def Obligations.RzOutput : Prop :=
  ∀ (tb v duty : Rat) (bits : List Bool) (s : State),
    s.config.num = .rational → s.config.admitsLength bits.length = true → 0 < tb → 0 < duty → duty < 1 →
    s.rz = { valid := true, tb := .rat tb, v := .rat v } → s.rzDuty = .rat duty →
    Answers (.encodeRz bits) s
      (bits.mapIdx fun k b =>
        [{ start := .rat (k * tb), stop := .rat ((k + duty) * tb), level := .rat (if b then v else -v) },
          { start := .rat ((k + duty) * tb), stop := .rat ((k + 1) * tb), level := .zero : Segment }]).flatten

/-- R100 and R102 in `Q` with `duty = 1`: the second candidate of every bit is dropped, and the output is that of NRZ-L with
the same parameters. -/
def Obligations.RzAtFullDutyIsNrzl : Prop :=
  ∀ (tb v : Rat) (bits : List Bool) (s : State) (out : List Segment),
    s.config.num = .rational → 0 < tb →
    s.rz = { valid := true, tb := .rat tb, v := .rat v } → s.rzDuty = .rat 1 → s.nrzl = s.rz →
    (Answers (.encodeRz bits) s out ↔ Answers (.encodeNrzl bits) s out)

/-- R101 in `Q`: every bit period is two halves, `v` then `-v` for a 0, `-v` then `v` for a 1. -/
def Obligations.ManchesterOutput : Prop :=
  ∀ (tb v : Rat) (bits : List Bool) (s : State),
    s.config.num = .rational → s.config.admitsLength bits.length = true → 0 < tb →
    s.man = { valid := true, tb := .rat tb, v := .rat v } →
    Answers (.encodeMan bits) s
      (bits.mapIdx fun k b =>
        [{ start := .rat (k * tb), stop := .rat ((k + 1 / 2) * tb), level := .rat (if b then -v else v) },
          { start := .rat ((k + 1 / 2) * tb), stop := .rat ((k + 1) * tb),
            level := .rat (if b then v else -v) : Segment }]).flatten

/-- R103, in every instance of `NUM` in which no candidate is dropped: the second half of a bit is the inverse of the first,
and the first is `v` exactly when the bit is 0. -/
def Obligations.ManchesterHalvesAreInverse : Prop :=
  ∀ (bits : List Bool) (s : State) (out : List Segment),
    s.RegistersLegal → Answers (.encodeMan bits) s out → (hn : out.length = 2 * bits.length) →
    ∀ k, ∀ h : k < bits.length,
      out[2 * k + 1].level = out[2 * k].level.neg s.config.num ∧ (out[2 * k].level = s.man.v ↔ bits[k] = false)

/-- R110 and R112 in `Q`: a 0 gives level 0; the `j`-th mark, counted from 1, gives `-v` for odd `j` and `v` for even `j`,
however many zeros lie between. -/
def Obligations.AmiOutput : Prop :=
  ∀ (tb v : Rat) (bits : List Bool) (s : State),
    s.config.num = .rational → s.config.admitsLength bits.length = true → 0 < tb →
    s.ami = { valid := true, tb := .rat tb, v := .rat v } →
    Answers (.encodeAmi bits) s
      (bits.mapIdx fun k b =>
        { start := .rat (k * tb), stop := .rat ((k + 1) * tb),
          level := .rat (if b then (if (bits.take (k + 1)).count true % 2 = 1 then -v else v) else 0) })

/-- R111 in `Q`: the level of segment `k` is element `j mod 4` of `[0, v, 0, -v]`, `j` being the number of 1s among the bits 0
to `k`. -/
def Obligations.MltThreeOutput : Prop :=
  ∀ (tb v : Rat) (bits : List Bool) (s : State),
    s.config.num = .rational → s.config.admitsLength bits.length = true → 0 < tb →
    s.mlt3 = { valid := true, tb := .rat tb, v := .rat v } →
    Answers (.encodeMlt3 bits) s
      (bits.mapIdx fun k _ =>
        { start := .rat (k * tb), stop := .rat ((k + 1) * tb),
          level := .rat (match (bits.take (k + 1)).count true % 4 with
            | 0 => 0 | 1 => v | 2 => 0 | _ => -v) })

/-- R113, the clauses on single segments, in every instance of `NUM` in which no candidate is dropped: the level changes from
segment `k` to `k+1` exactly when bit `k+1` is 1, and never between `v` and `-v` directly. -/
def Obligations.MltThreeTransitions : Prop :=
  ∀ (bits : List Bool) (s : State) (out : List Segment),
    s.RegistersLegal → Answers (.encodeMlt3 bits) s out → (hn : out.length = bits.length) →
    ∀ k, ∀ h : k + 1 < bits.length,
      (out[k + 1].level ≠ out[k].level ↔ bits[k + 1] = true) ∧
      (out[k].level ≠ .zero → out[k + 1].level ≠ .zero → out[k + 1].level = out[k].level)

/-- R35 and R175 (a) to (c) for the whole output in every instance of `NUM` (the running sum and the second test are the spec's
own decision D5). The encoders whose candidates all have one width (all but RZ): the segments are the first of the candidates in
order, so that rounding can only cut the end of the output off, every segment ends at the sum of its start and the width, and
candidates are missing only where the clock can take the width no more. RZ has two widths: its segments have the levels of
its candidates in order, each candidate at most once, and every segment ends at the sum of its start and its own width. -/
def Obligations.RoundingCutsOnlyTheEnd : Prop :=
  ∀ (bits : List Bool) (s : State) (out : List Segment),
    (Answers (.encodeNrzl bits) s out →
      CutAtTheEnd s.config.num s.nrzl.tb (bits.map fun b => if b then s.nrzl.v else s.nrzl.v.neg s.config.num) out) ∧
    (s.RegistersLegal →
      (Answers (.encodeNrzi bits) s out →
        CutAtTheEnd s.config.num s.nrzi.tb
          (bits.mapIdx fun k _ =>
            if (bits.take (k + 1)).count true % 2 = 1 then s.nrzi.v.neg s.config.num else s.nrzi.v) out) ∧
      (Answers (.encodeMan bits) s out →
        CutAtTheEnd s.config.num (Number.half.mul s.config.num s.man.tb)
          (bits.flatMap fun b =>
            if b then [s.man.v.neg s.config.num, s.man.v] else [s.man.v, s.man.v.neg s.config.num]) out) ∧
      (Answers (.encodeAmi bits) s out →
        CutAtTheEnd s.config.num s.ami.tb
          (bits.mapIdx fun k b =>
            if b then (if (bits.take (k + 1)).count true % 2 = 1 then s.ami.v.neg s.config.num else s.ami.v)
            else .zero) out) ∧
      (Answers (.encodeMlt3 bits) s out →
        CutAtTheEnd s.config.num s.mlt3.tb
          (bits.mapIdx fun k _ =>
            match (bits.take (k + 1)).count true % 4 with
            | 0 => .zero | 1 => s.mlt3.v | 2 => .zero | _ => s.mlt3.v.neg s.config.num) out) ∧
      (Answers (.encodeHdb3 bits) s out →
        ∃ h, hdb3Pass1 bits (hdb3Start (if s.hdb3.v.gt .zero = true then .pos else .neg)) = .ok h ∧
          CutAtTheEnd s.config.num s.hdb3.tb
            (h.sym.map fun y =>
              match y with
              | .sil => .zero | .pos => s.hdb3.v.abs | .neg => s.hdb3.v.abs.neg s.config.num) out) ∧
      (Answers (.encodeRz bits) s out →
        (out.map (·.level)).Sublist
          (bits.flatMap fun b => [if b then s.rz.v else s.rz.v.neg s.config.num, .zero]) ∧
        ∀ g ∈ out, g.stop = g.start.add s.config.num
          (if g.level = .zero then (Number.one.sub s.config.num s.rzDuty).mul s.config.num s.rz.tb
            else s.rzDuty.mul s.config.num s.rz.tb)))

/-! ### HDB3 (`spec/44_hdb3.md`) -/

/-- R123 to R128, the steps of pass 1: a 1 is a mark of inverted polarity; a 0 short of four is one `SIL`; the fourth 0 of a run
puts `000V` or `B00V` in place of the three `SIL`, by the parity of `marks`, and both counters restart. -/
def Obligations.HdbThreeSteps : Prop :=
  ∀ (p : Polarity) (marks zeros : Nat) (sym : List Symb),
    hdb3Bit ⟨p, marks, zeros, sym⟩ true =
      .ok ⟨Polarity.inv p, marks + 1, 0, sym ++ [symOf (Polarity.inv p)]⟩ ∧
    (zeros < 3 → hdb3Bit ⟨p, marks, zeros, sym⟩ false = .ok ⟨p, marks, zeros + 1, sym ++ [.sil]⟩) ∧
    (Odd marks → hdb3Bit ⟨p, marks, 3, sym ++ [.sil, .sil, .sil]⟩ false =
      .ok ⟨p, 0, 0, sym ++ [.sil, .sil, .sil, symOf p]⟩) ∧
    (Even marks → hdb3Bit ⟨p, marks, 3, sym ++ [.sil, .sil, .sil]⟩ false =
      .ok ⟨Polarity.inv p, 0, 0, sym ++ [symOf (Polarity.inv p), .sil, .sil, symOf (Polarity.inv p)]⟩)

/-- R131 (a) to (c): pass 1 completes on every bit sequence from either polarity, with one symbol per bit, at most three
zeros counted, the last `zeros` symbols `SIL`, and `pol` the polarity of the last non-zero symbol (the initial one if there
is none). -/
def Obligations.HdbThreePassOneInvariants : Prop :=
  ∀ (bits : List Bool) (p : Polarity), ∃ h, hdb3Pass1 bits (hdb3Start p) = .ok h ∧
    h.sym.length = bits.length ∧ h.zeros ≤ 3 ∧
    h.sym.drop (h.sym.length - h.zeros) = List.replicate h.zeros .sil ∧
    ((h.sym.filter (· ≠ .sil)).getLast?.getD (symOf p)) = symOf h.pol

/-- R131 (d) and R174: a symbol is final as soon as the third bit after it has been consumed; a later bit never changes it. -/
def Obligations.HdbThreeLookbackIsThree : Prop :=
  ∀ (bits more : List Bool) (p : Polarity) (h h' : Hdb3Regs) (k : Nat),
    hdb3Pass1 bits (hdb3Start p) = .ok h → hdb3Pass1 (bits ++ more) (hdb3Start p) = .ok h' →
    k + 3 < bits.length → h'.sym[k]? = h.sym[k]?

/-- R132 (a): the symbols never hold four consecutive `SIL`. -/
def Obligations.HdbThreeBreaksZeroRuns : Prop :=
  ∀ (bits : List Bool) (p : Polarity) (h : Hdb3Regs),
    hdb3Pass1 bits (hdb3Start p) = .ok h → ¬ [Symb.sil, .sil, .sil, .sil] <:+: h.sym

/-- R132 (d): two violations with none between them have opposite polarities, a violation being a non-zero symbol equal to the
non-zero symbol before it (R132 (b), (c)), the initial polarity standing before the first. -/
def Obligations.HdbThreeViolationsAlternate : Prop :=
  ∀ (bits : List Bool) (p : Polarity) (h : Hdb3Regs) (z : List Symb) (i j : Nat),
    hdb3Pass1 bits (hdb3Start p) = .ok h → z = symOf p :: h.sym.filter (· ≠ .sil) →
    (hi : i < j) → (hj : j + 1 < z.length) →
    z[i + 1] = z[i] → z[j + 1] = z[j] → (∀ m, ∀ hm : m < j, i < m → z[m + 1] ≠ z[m]) →
    z[i + 1] ≠ z[j + 1]

/-- R121, R129 and R130 in `Q`: the output is one `tb`-wide segment per symbol of pass 1, started from the sign of `v`, at 0,
`|v|` or `-|v|`; there is exactly one segment per input bit. -/
def Obligations.HdbThreeOutput : Prop :=
  ∀ (tb v : Rat) (bits : List Bool) (s : State),
    s.config.num = .rational → s.config.admitsLength bits.length = true → 0 < tb → v ≠ 0 →
    s.hdb3 = { valid := true, tb := .rat tb, v := .rat v } →
    ∃ h, hdb3Pass1 bits (hdb3Start (if 0 < v then .pos else .neg)) = .ok h ∧ h.sym.length = bits.length ∧
      Answers (.encodeHdb3 bits) s
        (h.sym.mapIdx fun k y =>
          { start := .rat (k * tb), stop := .rat ((k + 1) * tb),
            level := .rat (match y with | .sil => 0 | .pos => |v| | .neg => -|v|) })

/-- R132 (e): on a stream with no run of four zeros the output of HDB3 is the output of AMI with the same parameters, in every
instance of `NUM`. -/
def Obligations.HdbThreeWithoutLongRunsIsAmi : Prop :=
  ∀ (bits : List Bool) (s : State) (out : List Segment),
    s.RegistersLegal → s.hdb3 = s.ami → ¬ [false, false, false, false] <:+: bits →
    (Answers (.encodeHdb3 bits) s out ↔ Answers (.encodeAmi bits) s out)

/-! ### `PARSE` (`spec/45_bit_string_parser.md`) -/

/-- R140 and R141: a non-empty string of the characters 0x30 and 0x31 gives its bits in order; the empty string, and every
string with another character anywhere in it, is rejected whole; no register is touched (the name of the status and the
character codes are the spec's own decisions D7 and D15). -/
def Obligations.ParseAnswers : Prop :=
  ∀ (chars : List CharCode) (s : State), s.config.admitsLength chars.length = true →
    (chars ≠ [] → (∀ c ∈ chars, c = 0x30#8 ∨ c = 0x31#8) → exec (.parse chars) s =
      .next { s with response := some { status := .ok, payload := .bits (chars.map (· == 0x31#8)) } }) ∧
    ((chars = [] ∨ ∃ c ∈ chars, c ≠ 0x30#8 ∧ c ≠ 0x31#8) → exec (.parse chars) s =
      .next { s with response := some { status := .parseReject, payload := .empty } })
end

