-- ==== Sys2Proof/Laws/Arith.lean ====
section
/-! SUPPORT. The arithmetic in the reference instance `Q`, the order, and what the four checks admit. -/

namespace Sys2Proof

@[simp] theorem exactAdd_eq (x y : Rat) : exactAdd x y = x + y := by
  rw [exactAdd, Rat.add_def', Rat.mkRat_eq_divInt]

@[simp] theorem exactMul_eq (x y : Rat) : exactMul x y = x * y := by
  rw [exactMul, Rat.mul_def', Rat.mkRat_eq_divInt]

@[simp] theorem round_rational (x : Rat) : Number.round .rational x = .rat x := rfl

@[simp] theorem add_rational (x y : Rat) : Number.add .rational (.rat x) (.rat y) = .rat (x + y) := by
  simp only [Number.add, Number.addFinite, exactAdd_eq, round_rational]
  split
  · next h => rw [Rat.num_eq_zero.mp h]
  · rfl

@[simp] theorem neg_rational (x : Rat) : Number.neg .rational (.rat x) = .rat (-x) := by
  simp only [Number.neg, signedZero]
  split
  · next h => rw [Rat.num_eq_zero.mp h]; rfl
  · rfl

@[simp] theorem sub_rational (x y : Rat) : Number.sub .rational (.rat x) (.rat y) = .rat (x - y) := by
  simp [Number.sub, sub_eq_add_neg]

@[simp] theorem mul_rational (x y : Rat) : Number.mul .rational (.rat x) (.rat y) = .rat (x * y) := by
  simp only [Number.mul, Number.mulFinite, exactMul_eq, round_rational, signedZero]
  split
  · next h => rw [Rat.num_eq_zero.mp h]
  · rfl

/-- In every instance the inverse of a finite non-zero number is its negative. -/
theorem neg_rat (f : NumFormat) {x : Rat} (h : x ≠ 0) : Number.neg f (.rat x) = .rat (-x) := by
  simp [Number.neg, h]

theorem abs_rat (x : Rat) : Number.abs (.rat x) = .rat |x| := by
  simp only [Number.abs]
  split
  · next h => rw [abs_of_neg (Rat.num_neg.mp h)]
  · next h => rw [abs_of_nonneg (Rat.num_nonneg.mp (not_lt.mp h))]

@[simp] theorem gt_rat (x y : Rat) : (Number.rat x).gt (.rat y) = decide (y < x) := by simp [Number.gt, Number.place]

@[simp] theorem eq_rat (x y : Rat) : (Number.rat x).eq (.rat y) = decide (x = y) := by simp [Number.eq, Number.place]

@[simp] theorem le_rat (x y : Rat) : (Number.rat x).le (.rat y) = decide (x ≤ y) := by
  simp [Number.le, le_iff_lt_or_eq]

@[simp] theorem ne_rat (x y : Rat) : (Number.rat x).ne (.rat y) = decide (x ≠ y) := by simp [Number.ne]

/-- `a > b` in terms of the places of `a` and `b`. -/
theorem gt_iff {a b : Number} :
    a.gt b = true ↔ ∃ p q, a.place = some p ∧ b.place = some q ∧ (q.1 < p.1 ∨ (p.1 = q.1 ∧ q.2 < p.2)) := by
  unfold Number.gt
  cases ha : a.place <;> cases hb : b.place <;> simp

theorem gt_irrefl (a : Number) : a.gt a = false := by
  unfold Number.gt
  cases a.place <;> simp

theorem gt_trans {a b c : Number} (h₁ : a.gt b = true) (h₂ : b.gt c = true) : a.gt c = true := by
  obtain ⟨p, q, hp, hq, h⟩ := gt_iff.mp h₁
  obtain ⟨q', r, hq', hr, h'⟩ := gt_iff.mp h₂
  obtain rfl : q = q' := by simpa [hq] using hq'
  refine gt_iff.mpr ⟨p, r, hp, hr, ?_⟩
  rcases h with h | ⟨h, k⟩ <;> rcases h' with h' | ⟨h', k'⟩
  · exact .inl (h'.trans h)
  · exact .inl (h' ▸ h)
  · exact .inl (h ▸ h')
  · exact .inr ⟨h.trans h', k'.trans k⟩

namespace Machine

theorem bitPeriodOk_iff {x : Number} : bitPeriodOk x = true ↔ Positive x := by
  cases x <;> simp [bitPeriodOk, Number.finite, Positive, Number.zero]
  simp [Number.gt, Number.place]

theorem ampClosedOk_iff {x : Number} : ampClosedOk x = true ↔ Positive x := bitPeriodOk_iff

theorem ampOpenOk_iff {x : Number} : ampOpenOk x = true ↔ NonZero x := by
  cases x <;> simp [ampOpenOk, Number.finite, NonZero, Number.zero]
  simp [Number.ne, Number.eq, Number.place]

theorem dutyOk_iff {x : Number} : dutyOk x = true ↔ DutyFraction x := by
  cases x <;> simp [dutyOk, Number.finite, DutyFraction, Number.zero, Number.one]
  simp [Number.gt, Number.place]

theorem ampOk_iff {sc : Scheme} {x : Number} : ampOk sc x = true ↔ LegalAmplitude sc x := by
  cases sc <;> simp [ampOk, ampClass, LegalAmplitude, ampClosedOk_iff, ampOpenOk_iff]

/-- A legal amplitude is a finite non-zero number, whatever the scheme. -/
theorem LegalAmplitude.nonZero {sc : Scheme} {x : Number} (h : LegalAmplitude sc x) : NonZero x := by
  cases sc <;> first | exact h | (obtain ⟨r, hx, hr⟩ := h; exact ⟨r, hx, hr.ne'⟩)

end Machine

end Sys2Proof
end

