-- ==== Sys2Proof/Laws/Decode.lean ====
section
/-! SUPPORT. Reading back what the encoder writes: the word of every opcode, and the sequences of R54. -/

namespace Sys2Proof

@[simp] theorem schemeOf_sel (s : Scheme) : schemeOf s.sel = some s := by cases s <;> rfl

/-- Every opcode is read back from its word (R51 to R53). -/
@[simp] theorem opcodeOf_word (op : Opcode) : opcodeOf op.word = some op := by
  cases op <;> first | rfl | (rename_i s; cases s <;> rfl)

/-- Decoding a presented command whose word is an opcode's is reading that opcode's operands. -/
theorem decode_word (op : Opcode) (items : List Item) :
    decode { word := op.word, items } = match op.operands items with | none => .badOperands op | some i => .instr i := by
  cases h : op.operands items <;> simp [decode, h]

/-- A presented command is rejected as reserved exactly when its word names no opcode. -/
theorem decode_reserved_iff (f : Frame) : decode f = .reserved f.word ↔ opcodeOf f.word = none := by
  unfold decode
  cases opcodeOf f.word with
  | none => simp
  | some op => simp only []; cases op.operands f.items <;> simp

theorem schemeOf_eq_some {sel : BitVec 3} {s : Scheme} (h : schemeOf sel = some s) : s.sel = sel := by
  revert h; revert sel; cases s <;> decide

/-- A word that names an opcode is that opcode's word: no two words name one opcode. -/
theorem opcodeOf_eq_some {w : CmdWord} {op : Opcode} (h : opcodeOf w = some op) : op.word = w := by
  have key : ∀ w : CmdWord, (opcodeOf w).all (fun op => decide (op.word = w)) = true := by decide
  have := key w
  rw [h] at this
  simpa using this

@[simp] theorem bitItems_map (bits : List Bool) : bitItems bits.length (bits.map .bit) = some bits := by
  induction bits with
  | nil => rfl
  | cons b bs ih => simp [bitItems, ih]

@[simp] theorem chrItems_map (chars : List CharCode) : chrItems chars.length (chars.map .chr) = some chars := by
  induction chars with
  | nil => rfl
  | cons c cs ih => simp [chrItems, ih]

theorem bitItems_eq_some {n : Nat} {items : List Item} {bits : List Bool} (h : bitItems n items = some bits) :
    n = bits.length ∧ items = bits.map .bit := by
  induction n generalizing items bits with
  | zero =>
    cases items with
    | nil => simp [bitItems] at h; subst h; simp
    | cons a l => simp [bitItems] at h
  | succ n ih =>
    match items, h with
    | .bit b :: rest, h =>
      simp only [bitItems, Option.map_eq_some_iff] at h
      obtain ⟨bs, hb, rfl⟩ := h
      obtain ⟨rfl, rfl⟩ := ih hb
      simp

theorem chrItems_eq_some {n : Nat} {items : List Item} {chars : List CharCode} (h : chrItems n items = some chars) :
    n = chars.length ∧ items = chars.map .chr := by
  induction n generalizing items chars with
  | zero =>
    cases items with
    | nil => simp [chrItems] at h; subst h; simp
    | cons a l => simp [chrItems] at h
  | succ n ih =>
    match items, h with
    | .chr b :: rest, h =>
      simp only [chrItems, Option.map_eq_some_iff] at h
      obtain ⟨bs, hb, rfl⟩ := h
      obtain ⟨rfl, rfl⟩ := ih hb
      simp

end Sys2Proof
end

