-- ==== Sys2Proof/Laws/Emit.lean ====
section
/-! SUPPORT. What `Emit` can do (R35), said once, and what follows for a run of emissions: the output stays contiguous, and
once a width has been dropped it is dropped for good, so that only the end of an output can be missing. -/

namespace Sys2Proof.Machine

/-- `Emit` either drops the candidate or appends one segment from the clock to a later time. -/
theorem emit_cases (f : NumFormat) (w lv : Number) (a : Wave) :
    emit f w lv a = a ∨
      (a.t.add f w).gt a.t = true ∧
        emit f w lv a = { t := a.t.add f w, out := a.out ++ [{ start := a.t, stop := a.t.add f w, level := lv }] } := by
  by_cases h : (w.gt .zero && (a.t.add f w).gt a.t) = true
  · exact .inr ⟨(Bool.and_eq_true_iff.mp h).2, by simp only [emit, h, if_true]⟩
  · exact .inl (by simp only [emit, h, if_false, Bool.false_eq_true])

/-- `Emit` with its two tests as propositions. -/
theorem emit_eq_if (f : NumFormat) (w lv : Number) (a : Wave) :
    emit f w lv a =
      if w.gt .zero = true ∧ (a.t.add f w).gt a.t = true then
        { t := a.t.add f w, out := a.out ++ [{ start := a.t, stop := a.t.add f w, level := lv }] }
      else a := by
  simp only [emit, Bool.and_eq_true]

/-- In `Q` only the width decides. -/
theorem emit_rational (t w : Rat) (lv : Number) (out : List Segment) :
    emit .rational (.rat w) lv { t := .rat t, out } =
      if 0 < w then { t := .rat (t + w), out := out ++ [{ start := .rat t, stop := .rat (t + w), level := lv }] }
      else { t := .rat t, out } := by
  simp [emit, Number.zero]

/-- A candidate that is dropped once is dropped whenever the clock stands where it stood, whatever the level. -/
theorem emit_dropped {f : NumFormat} {w lv : Number} {a : Wave} (h : emit f w lv a = a) (lv' : Number) :
    emit f w lv' a = a := by
  by_cases hc : (w.gt .zero && (a.t.add f w).gt a.t) = true
  · have := congrArg (fun x : Wave => x.out.length) h
    simp [emit, hc] at this
  · simp only [emit, hc, if_false, Bool.false_eq_true]

/-- The clock stands at the end of the output, and the output is contiguous up to there. -/
def Wave.Sound (a : Wave) : Prop := Contiguous a.out ∧ a.ClockIsLastStop

theorem Wave.start_sound : Wave.start.Sound := by
  refine ⟨⟨?_, ?_, ?_, ?_⟩, ?_⟩ <;> simp [Wave.start, Wave.ClockIsLastStop]

theorem le_of_gt {a b : Number} (h : a.gt b = true) : b.le a = true := by simp [Number.le, h]

theorem le_refl_of_gt {a b : Number} (h : a.gt b = true) : a.le a = true := by
  obtain ⟨p, -, hp, -⟩ := gt_iff.mp h
  simp [Number.le, Number.eq, hp]

/-- Appending a segment that starts at the clock and ends later keeps the output sound. -/
theorem Wave.append_sound {a : Wave} (h : a.Sound) {e lv : Number} (he : e.gt a.t = true) :
    Wave.Sound { t := e, out := a.out ++ [{ start := a.t, stop := e, level := lv }] } := by
  obtain ⟨⟨h0, h1, h2, h3⟩, hc⟩ := h
  have hlast : ∀ (hn : 0 < a.out.length), a.out[a.out.length - 1].stop = a.t := by
    intro hn
    have : a.out ≠ [] := List.length_pos_iff.mp hn
    rw [Wave.ClockIsLastStop, List.getLast?_eq_getElem?, List.getElem?_eq_getElem (by omega)] at hc
    simpa using hc.symm
  have hle : ∀ j (hj : j < a.out.length), (a.out[j].stop).le a.t = true := by
    intro j hj
    have hn : 0 < a.out.length := by omega
    have hg := h2 _ (List.getElem_mem (l := a.out) (n := a.out.length - 1) (by omega))
    rw [hlast hn] at hg
    rcases Nat.lt_or_ge j (a.out.length - 1) with hlt | hge
    · have := h3 j (a.out.length - 1) (by omega) hlt
      rw [Number.le, Bool.or_eq_true] at this
      rcases this with h' | h'
      · exact le_of_gt (gt_trans hg h')
      · unfold Number.eq at h'
        obtain ⟨p, q, hp, hq, hpq⟩ := gt_iff.mp hg
        cases hs : (a.out[j].stop).place with
        | none => simp [hs] at h'
        | some y =>
          have hy : y = q := by simpa [hs, hq] using h'
          exact le_of_gt (gt_iff.mpr ⟨p, q, hp, hy ▸ hs, hpq⟩)
    · obtain rfl : j = a.out.length - 1 := by omega
      rw [hlast hn]; exact le_refl_of_gt hg
  refine ⟨⟨?_, ?_, ?_, ?_⟩, ?_⟩
  · intro _
    rcases Nat.eq_zero_or_pos a.out.length with hz | hp
    · have hnil : a.out = [] := List.length_eq_zero_iff.mp hz
      simp [Wave.ClockIsLastStop, hnil] at hc
      simpa [hnil] using hc
    · simpa [List.getElem_append_left hp] using h0 hp
  · intro k hk
    simp only [List.length_append, List.length_cons, List.length_nil] at hk
    rcases Nat.lt_or_ge (k + 1) a.out.length with hlt | hge
    · simpa [List.getElem_append_left, hlt, Nat.lt_of_succ_lt hlt] using h1 k hlt
    · obtain rfl : k = a.out.length - 1 := by omega
      have : a.out.length - 1 + 1 = a.out.length := by omega
      simp [this, List.getElem_append_left, List.getElem_append_right, hlast (by omega), show a.out.length - 1 < a.out.length by omega]
  · intro g hg
    rcases List.mem_append.mp hg with hg | hg
    · exact h2 g hg
    · obtain rfl := List.mem_singleton.mp hg; exact he
  · intro j k hk hj
    simp only [List.length_append, List.length_cons, List.length_nil] at hk
    rcases Nat.lt_or_ge k a.out.length with hlt | hge
    · simpa [List.getElem_append_left, hlt, show j < a.out.length by omega] using h3 j k hlt hj
    · obtain rfl : k = a.out.length := by omega
      simpa [List.getElem_append_left, hj] using hle j hj
  · simp [Wave.ClockIsLastStop]

/-- `Emit` keeps the output sound, whatever the width, the level and the instance of `NUM`. -/
theorem emit_sound {a : Wave} (h : a.Sound) (f : NumFormat) (w lv : Number) : (emit f w lv a).Sound := by
  rcases emit_cases f w lv a with he | ⟨hg, he⟩
  · rwa [he]
  · rw [he]; exact Wave.append_sound h hg

/-- A run of emissions of one width cuts the candidates only at their end. -/
theorem cutAtTheEnd_emits (f : NumFormat) (w : Number) (levels : List Number) :
    CutAtTheEnd f w levels (levels.foldl (fun a l => emit f w l a) .start).out := by
  suffices ∀ a, levels.foldl (fun a l => emit f w l a) .start = a →
      a.out.map (·.level) <+: levels ∧ (∀ g ∈ a.out, g.stop = g.start.add f w) ∧ a.ClockIsLastStop ∧
      (a.out.length < levels.length → ¬ (w.gt .zero = true ∧ (a.t.add f w).gt a.t = true)) by
    obtain ⟨h1, h2, h3, h4⟩ := this _ rfl
    exact ⟨h1, h2, fun h => by have := h4 h; rwa [h3] at this⟩
  induction levels using List.reverseRecOn with
  | nil => rintro a rfl; simp [Wave.start, Wave.ClockIsLastStop]
  | append_singleton l y ih =>
    intro a h
    obtain ⟨h1, h2, h3, h4⟩ := ih _ rfl
    rw [List.foldl_append] at h
    generalize l.foldl (fun a l => emit f w l a) .start = a₀ at *
    simp only [List.foldl_cons, List.foldl_nil] at h
    rw [emit_eq_if] at h
    split at h <;> subst h
    · next c =>
      have hm : a₀.out.map (·.level) = l := h1.eq_of_length_le (by simpa using not_lt.mp fun h => h4 h c)
      refine ⟨by simp [hm], fun g hg => ?_, by simp [Wave.ClockIsLastStop], fun h => ?_⟩
      · rcases List.mem_append.mp hg with h | h
        · exact h2 g h
        · rw [List.mem_singleton.mp h]
      · have := congrArg List.length hm
        simp at h this
        omega
    · next c => exact ⟨h1.trans (List.prefix_append _ _), h2, h3, fun _ => c⟩

/-- An encoder with an accumulator: the accumulator runs by itself, and the emissions are those of its levels in order. -/
theorem foldl_emit_acc {α : Type} (f : NumFormat) (w : Number) (nxt : α → Bool → α) (lv : α → Bool → Number) (x : α)
    (bits : List Bool) (a : Wave) :
    bits.foldl (fun (r : α × Wave) b => (nxt r.1 b, emit f w (lv r.1 b) r.2)) (x, a) =
      (bits.foldl nxt x,
        (bits.mapIdx fun k b => lv ((bits.take k).foldl nxt x) b).foldl (fun a l => emit f w l a) a) := by
  induction bits generalizing x a with
  | nil => rfl
  | cons b bits ih => rw [List.foldl_cons, ih, List.foldl_cons, List.mapIdx_cons]; rfl

end Sys2Proof.Machine
end

