-- ==== Sys2Proof/Laws/Hdb3.lean ====
section
/-! SUPPORT. What one step of HDB3's pass 1 does (R123 to R128), said once under the invariant that pass 1 keeps. -/

namespace Sys2Proof.Machine

@[simp] theorem inv_inv (p : Polarity) : Polarity.inv (Polarity.inv p) = p := by cases p <;> rfl

theorem inv_ne (p : Polarity) : Polarity.inv p ≠ p := by cases p <;> decide

theorem symOf_ne_sil (p : Polarity) : symOf p ≠ .sil := by cases p <;> decide

theorem symOf_injective {p q : Polarity} (h : symOf p = symOf q) : p = q := by
  cases p <;> cases q <;> first | rfl | simp [symOf] at h

/-- `SymDrop3` takes off three trailing `SIL` (R21). -/
@[simp] theorem symDrop3_append (base : List Symb) : symDrop3 (base ++ [.sil, .sil, .sil]) = some base := by
  simp [symDrop3]

/-- Symbols whose last three are `SIL` end in them. -/
theorem eq_append_of_drop {sym : List Symb} {n k : Nat}
    (h : sym.drop (n - k) = List.replicate k .sil) : ∃ base, sym = base ++ List.replicate k .sil :=
  ⟨sym.take (n - k), by rw [← h, List.take_append_drop]⟩

theorem hdb3Bit_one (h : Hdb3Regs) : hdb3Bit h true = .ok (hdb3One h) := rfl

/-- A zero short of four. -/
theorem hdb3Bit_silence {h : Hdb3Regs} (hz : h.zeros < 3) :
    hdb3Bit h false = .ok { h with zeros := h.zeros + 1, sym := h.sym ++ [.sil] } := by
  simp [hdb3Bit, hdb3Zero, zeroRun, show h.zeros + 1 < 4 by omega]

/-- The fourth zero of a run. -/
theorem hdb3Bit_fourth {h : Hdb3Regs} {base : List Symb} (hz : h.zeros = 3) (hs : h.sym = base ++ [.sil, .sil, .sil]) :
    hdb3Bit h false = .ok (hdb3Substitute base h) := by
  simp [hdb3Bit, hdb3Zero, zeroRun, hz, hs]

/-- Everything a step of pass 1 can do from sound registers: a mark, one silence, or a substitution. -/
theorem hdb3Bit_cases {h : Hdb3Regs} {n : Nat} (hs : h.Sound n) (b : Bool) :
    (b = true ∧ hdb3Bit h b = .ok (hdb3One h)) ∨
    (b = false ∧ h.zeros < 3 ∧ hdb3Bit h b = .ok { h with zeros := h.zeros + 1, sym := h.sym ++ [.sil] }) ∨
    (b = false ∧ ∃ base, h.zeros = 3 ∧ h.sym = base ++ [.sil, .sil, .sil] ∧
      hdb3Bit h b = .ok (hdb3Substitute base h)) := by
  obtain ⟨-, hz, -, hd⟩ := hs
  cases b with
  | true => exact .inl ⟨rfl, rfl⟩
  | false =>
    rcases Nat.lt_or_ge h.zeros 3 with hlt | hge
    · exact .inr (.inl ⟨rfl, hlt, hdb3Bit_silence hlt⟩)
    · have h3 : h.zeros = 3 := by omega
      obtain ⟨base, hb⟩ := eq_append_of_drop hd
      rw [h3] at hb
      exact .inr (.inr ⟨rfl, base, h3, hb, hdb3Bit_fourth h3 hb⟩)

theorem hdb3Start_sound (p : Polarity) : (hdb3Start p).Sound 0 := by simp [hdb3Start, Hdb3Regs.Sound]

/-- A step keeps the registers sound, and always succeeds (R131 (a), (b)). -/
theorem hdb3Bit_sound {h : Hdb3Regs} {n : Nat} (hs : h.Sound n) (b : Bool) :
    ∃ h', hdb3Bit h b = .ok h' ∧ h'.Sound (n + 1) := by
  obtain ⟨hl, hz, hn, hd⟩ := id hs
  rcases hdb3Bit_cases hs b with ⟨-, he⟩ | ⟨-, hlt, he⟩ | ⟨-, base, h3, hb, he⟩
  · exact ⟨_, he, by simp [hdb3One, Hdb3Regs.Sound, hl]⟩
  · refine ⟨_, he, by simp [hl], by simp; omega, by simp; omega, ?_⟩
    have : n + 1 - (h.zeros + 1) = n - h.zeros := by omega
    simp only [this]
    rw [List.drop_append_of_le_length (by omega), hd, List.replicate_succ']
  · refine ⟨_, he, ?_⟩
    have hlen : base.length + 3 = n := by rw [← hl, hb]; simp
    unfold hdb3Substitute
    split <;> simp [Hdb3Regs.Sound] <;> omega

/-- Pass 1 from sound registers always succeeds and keeps them sound. -/
theorem hdb3Pass1_sound (bits : List Bool) {h : Hdb3Regs} {n : Nat} (hs : h.Sound n) :
    ∃ h', hdb3Pass1 bits h = .ok h' ∧ h'.Sound (n + bits.length) := by
  induction bits generalizing h n with
  | nil => exact ⟨h, rfl, hs⟩
  | cons b bs ih =>
    obtain ⟨h₁, he, hs₁⟩ := hdb3Bit_sound hs b
    obtain ⟨h₂, he₂, hs₂⟩ := ih hs₁
    exact ⟨h₂, by simp [hdb3Pass1, he, he₂], by simpa [Nat.add_comm, Nat.add_left_comm] using hs₂⟩

/-- Pass 1 over two pieces is pass 1 over the one and then over the other. -/
theorem hdb3Pass1_append (xs ys : List Bool) (h : Hdb3Regs) :
    hdb3Pass1 (xs ++ ys) h = match hdb3Pass1 xs h with | .ok h' => hdb3Pass1 ys h' | .error e => .error e := by
  induction xs generalizing h with
  | nil => rfl
  | cons b bs ih =>
    simp only [List.cons_append, hdb3Pass1]
    cases hdb3Bit h b with
    | ok h' => exact ih h'
    | error e => rfl

/-- `sign` is defined on every finite non-zero number (R7). -/
theorem signOf_rat {r : Rat} (h : r ≠ 0) : signOf (.rat r) = some (if 0 < r then .pos else .neg) := by
  rcases lt_or_gt_of_ne h with hlt | hgt
  · simp [signOf, Number.finite, Number.gt, Number.place, Number.zero, hlt, not_lt.mpr hlt.le]
  · simp [signOf, Number.finite, Number.gt, Number.place, Number.zero, hgt]

end Sys2Proof.Machine
end

