-- ==== Sys2Proof/Laws/State.lean ====
section
/-! SUPPORT. One lemma per field per update of the state, and what reading a unit gives after each write, so that no later
proof unfolds a record update. -/

namespace Sys2Proof.Machine

section Respond

variable (s : State) (r : Response) (st : Status)

@[simp] theorem respond_config : (s.respond r).config = s.config := rfl
@[simp] theorem respond_unit (sc : Scheme) : (s.respond r).unit sc = s.unit sc := by cases sc <;> rfl
@[simp] theorem respond_rz : (s.respond r).rz = s.rz := rfl
@[simp] theorem respond_rzDuty : (s.respond r).rzDuty = s.rzDuty := rfl
@[simp] theorem respond_busy : (s.respond r).busy = s.busy := rfl
@[simp] theorem respond_response : (s.respond r).response = some r := rfl
@[simp] theorem respond_inbox : (s.respond r).inbox = s.inbox := rfl
@[simp] theorem respond_respond (r' : Response) : (s.respond r).respond r' = s.respond r' := rfl

theorem fail_eq : s.fail st = s.respond (.failure st) := rfl

end Respond

section Units

variable (s : State) (sc : Scheme) (u : CoderUnit)

@[simp] theorem setUnit_config : (s.setUnit sc u).config = s.config := by cases sc <;> rfl
@[simp] theorem setUnit_rzDuty : (s.setUnit sc u).rzDuty = s.rzDuty := by cases sc <;> rfl
@[simp] theorem setUnit_busy : (s.setUnit sc u).busy = s.busy := by cases sc <;> rfl
@[simp] theorem setUnit_response : (s.setUnit sc u).response = s.response := by cases sc <;> rfl
@[simp] theorem setUnit_inbox : (s.setUnit sc u).inbox = s.inbox := by cases sc <;> rfl

/-- A read after a write of the same unit gives what was written. -/
@[simp] theorem unit_setUnit_self : (s.setUnit sc u).unit sc = u := by cases sc <;> rfl

/-- A write of one unit leaves every other unit alone (R10). -/
theorem unit_setUnit_of_ne {sc' : Scheme} (h : sc' ≠ sc) : (s.setUnit sc u).unit sc' = s.unit sc' := by
  cases sc <;> cases sc' <;> first | rfl | exact absurd rfl h

/-- Both at once. -/
theorem unit_setUnit (sc' : Scheme) : (s.setUnit sc u).unit sc' = if sc' = sc then u else s.unit sc' := by
  split
  · next h => subst h; simp
  · next h => exact unit_setUnit_of_ne s sc u h

@[simp] theorem setUnit_setUnit (u' : CoderUnit) : (s.setUnit sc u).setUnit sc u' = s.setUnit sc u' := by
  cases sc <;> rfl

theorem unit_rz : s.unit .rz = s.rz := rfl

end Units

section Duty

variable (s : State) (x : Number)

@[simp] theorem setDuty_config : (s.setDuty x).config = s.config := rfl
@[simp] theorem setDuty_unit (sc : Scheme) : (s.setDuty x).unit sc = s.unit sc := by cases sc <;> rfl
@[simp] theorem setDuty_rzDuty : (s.setDuty x).rzDuty = x := rfl
@[simp] theorem setDuty_busy : (s.setDuty x).busy = s.busy := rfl
@[simp] theorem setDuty_response : (s.setDuty x).response = s.response := rfl
@[simp] theorem setDuty_inbox : (s.setDuty x).inbox = s.inbox := rfl

end Duty

section Host

variable (s : State) (f : Frame)

@[simp] theorem noResponse_unit (sc : Scheme) : s.noResponse.unit sc = s.unit sc := by cases sc <;> rfl
@[simp] theorem present_unit (sc : Scheme) : (s.present f).unit sc = s.unit sc := by cases sc <;> rfl
@[simp] theorem release_unit (sc : Scheme) : s.release.unit sc = s.unit sc := by cases sc <;> rfl
@[simp] theorem release_config : s.release.config = s.config := rfl
@[simp] theorem release_busy : s.release.busy = none := rfl
@[simp] theorem release_inbox : s.release.inbox = s.inbox := rfl
@[simp] theorem release_rzDuty : s.release.rzDuty = s.rzDuty := rfl
@[simp] theorem afterReset_config : s.afterReset.config = s.config := rfl
@[simp] theorem afterReset_unit (sc : Scheme) : s.afterReset.unit sc = .reset := by cases sc <;> rfl
@[simp] theorem afterReset_inbox : s.afterReset.inbox = s.inbox := rfl

@[simp] theorem unit_with_busy (b : Option Busy) (r : Option Response) (sc : Scheme) :
    State.unit { s with busy := b, response := r } sc = s.unit sc := by cases sc <;> rfl

@[simp] theorem unit_with_inbox (l : List HostEvent) (sc : Scheme) :
    State.unit { s with inbox := l } sc = s.unit sc := by cases sc <;> rfl

@[simp] theorem unit_with_response (r : Option Response) (sc : Scheme) :
    State.unit { s with response := r } sc = s.unit sc := by cases sc <;> rfl

theorem takeEvent_nil (h : s.inbox = []) : s.takeEvent = (.wait, s) := by simp [State.takeEvent, h]

theorem takeEvent_cons {e : HostEvent} {rest : List HostEvent} (h : s.inbox = e :: rest) :
    s.takeEvent = (e, { s with inbox := rest }) := by simp [State.takeEvent, h]

end Host

/-- A unit after reset is not valid (R24). -/
@[simp] theorem reset_valid : CoderUnit.reset.valid = false := rfl

@[simp] theorem resetWith_unit (c : Config) (sc : Scheme) : (State.resetWith c).unit sc = .reset := by cases sc <;> rfl

end Sys2Proof.Machine
end

