-- ==== Sys2Proof/Laws/Exec.lean ====
section
/-! SUPPORT. One lemma for each shared operation of the meanings: everything it can do, so that no proof unfolds it. -/

namespace Sys2Proof.Machine

/-- The algorithm of `ENCODE.sc` in an instance of `NUM`, as a function of the unit's registers (R80). -/
def encodeAlgorithm (f : NumFormat) (duty : Number) (sc : Scheme) (bits : List Bool) (u : CoderUnit) :
    Except Fault (List Segment) :=
  match sc with
  | .nrzl => .ok (nrzlRun f u bits)
  | .nrzi => .ok (nrziRun f u bits)
  | .rz => .ok (rzRun f u duty bits)
  | .man => .ok (manRun f u bits)
  | .ami => .ok (amiRun f u bits)
  | .mlt3 => .ok (mlt3Run f u bits)
  | .hdb3 => hdb3Run f u bits

theorem exec_encodeBits (sc : Scheme) (bits : List Bool) (s : State) :
    exec (.encodeBits sc bits) s =
      encodeEntry sc bits (encodeAlgorithm s.config.num s.rzDuty sc bits) s := by cases sc <;> rfl

theorem exec_construct (sc : Scheme) (tb v duty : Number) (s : State) :
    exec (.construct sc tb v duty) s =
      if sc = .rz then constructWithDuty tb v duty s else construct sc tb v s := by cases sc <;> rfl

theorem exec_setTb (sc : Scheme) (x : Number) (s : State) : exec (.setTb sc x) s = setTbCommand sc x s := by
  cases sc <;> rfl

theorem exec_setAmp (sc : Scheme) (x : Number) (s : State) : exec (.setAmp sc x) s = setAmpCommand sc x s := by
  cases sc <;> rfl

theorem exec_setDuty (sc : Scheme) (x : Number) (s : State) :
    exec (.setDuty sc x) s =
      if sc = .rz then setter .rz (dutyOk x) .wrongDuty (s.setDuty x) s else setDutyUnsupported s := by
  cases sc <;> rfl

/-- The entry of an `ENCODE`: a refusal, `NotConstructed`, the algorithm's output, or its defect. -/
theorem encodeEntry_cases (sc : Scheme) (bits : List Bool) (alg : CoderUnit → Except Fault (List Segment)) (s : State) :
    (s.config.admitsLength bits.length = false ∧ encodeEntry sc bits alg s = .refused .lengthOverNMax) ∨
    (s.config.admitsLength bits.length = true ∧ (s.unit sc).valid = false ∧
      encodeEntry sc bits alg s = .next (s.respond (.failure .notConstructed))) ∨
    (s.config.admitsLength bits.length = true ∧ (s.unit sc).valid = true ∧
      ((∃ out, alg (s.unit sc) = .ok out ∧
          encodeEntry sc bits alg s = .next (s.respond (.answer (.segments out)))) ∨
        ∃ e, alg (s.unit sc) = .error e ∧ encodeEntry sc bits alg s = .fault e)) := by
  unfold encodeEntry
  cases ha : s.config.admitsLength bits.length <;> cases hv : (s.unit sc).valid <;> simp [fail_eq]
  cases alg (s.unit sc) <;> simp

/-- An `ENCODE` answers an output exactly when its sequence is admitted, its unit is valid and its algorithm gives it. -/
theorem answers_iff (sc : Scheme) (bits : List Bool) (s : State) (out : List Segment) :
    Answers (.encodeBits sc bits) s out ↔
      s.config.admitsLength bits.length = true ∧ (s.unit sc).valid = true ∧
        encodeAlgorithm s.config.num s.rzDuty sc bits (s.unit sc) = .ok out := by
  rw [Answers, exec_encodeBits]
  rcases encodeEntry_cases sc bits (encodeAlgorithm s.config.num s.rzDuty sc bits) s with
    ⟨ha, he⟩ | ⟨ha, hv, he⟩ | ⟨ha, hv, ⟨o, ho, he⟩ | ⟨e, hf, he⟩⟩
  · simp [ha, he]
  · simp [hv, he, State.respond, Response.failure]
  · simp [ha, hv, ho, he, State.respond, Response.answer]
  · simp [hf, he]

/-- A setter answers `NotConstructed`, the failure of its check, or writes. -/
theorem setter_cases (sc : Scheme) (passed : Bool) (st : Status) (written s : State) :
    ((s.unit sc).valid = false ∧ setter sc passed st written s = .next (s.respond (.failure .notConstructed))) ∨
    ((s.unit sc).valid = true ∧ passed = false ∧ setter sc passed st written s = .next (s.respond (.failure st))) ∨
    ((s.unit sc).valid = true ∧ passed = true ∧ setter sc passed st written s = .next (written.respond .done)) := by
  unfold setter
  cases (s.unit sc).valid <;> cases passed <;> simp [fail_eq]

/-- A construction without a duty fails its first failing check or writes the whole unit. -/
theorem construct_cases (sc : Scheme) (tb v : Number) (s : State) :
    (bitPeriodOk tb = false ∧ construct sc tb v s = .next (s.respond (.failure .invalidBitPeriod))) ∨
    (bitPeriodOk tb = true ∧ ampOk sc v = false ∧ construct sc tb v s = .next (s.respond (.failure .badAmplitude))) ∨
    (bitPeriodOk tb = true ∧ ampOk sc v = true ∧
      construct sc tb v s = .next ((s.setUnit sc { valid := true, tb, v }).respond .done)) := by
  unfold construct
  cases bitPeriodOk tb <;> cases ampOk sc v <;> simp [fail_eq, State.setTb, State.setV, State.setValid]

/-- The same for `CONSTRUCT.RZ`. -/
theorem constructWithDuty_cases (tb v duty : Number) (s : State) :
    (bitPeriodOk tb = false ∧ constructWithDuty tb v duty s = .next (s.respond (.failure .invalidBitPeriod))) ∨
    (bitPeriodOk tb = true ∧ ampOk .rz v = false ∧
      constructWithDuty tb v duty s = .next (s.respond (.failure .badAmplitude))) ∨
    (bitPeriodOk tb = true ∧ ampOk .rz v = true ∧ dutyOk duty = false ∧
      constructWithDuty tb v duty s = .next (s.respond (.failure .wrongDuty))) ∨
    (bitPeriodOk tb = true ∧ ampOk .rz v = true ∧ dutyOk duty = true ∧
      constructWithDuty tb v duty s =
        .next (((s.setUnit .rz { valid := true, tb, v }).setDuty duty).respond .done)) := by
  unfold constructWithDuty
  cases bitPeriodOk tb <;> cases ampOk .rz v <;> cases dutyOk duty <;>
    simp [fail_eq, State.setTb, State.setV, State.setValid, State.setDuty, State.setUnit, State.unit]

/-- The forty commands by family: what holds of the checks, of `PARSE` and of the five scheme-indexed families holds of
every command. -/
theorem instr_families {P : Instr → Prop}
    (chkTb : ∀ x, P (.chkTb x)) (chkAmpc : ∀ x, P (.chkAmpc x)) (chkAmpo : ∀ x, P (.chkAmpo x))
    (chkDuty : ∀ x, P (.chkDuty x)) (parse : ∀ chars, P (.parse chars))
    (construct : ∀ sc tb v duty, P (.construct sc tb v duty)) (setTb : ∀ sc x, P (.setTb sc x))
    (setAmp : ∀ sc x, P (.setAmp sc x)) (setDuty : ∀ sc x, P (.setDuty sc x))
    (encodeBits : ∀ sc bits, P (.encodeBits sc bits)) (i : Instr) : P i := by
  cases i with
  | chkTb x => exact chkTb x
  | chkAmpc x => exact chkAmpc x
  | chkAmpo x => exact chkAmpo x
  | chkDuty x => exact chkDuty x
  | parse chars => exact parse chars
  | constructNrzl tb v => exact construct .nrzl tb v .zero
  | constructNrzi tb v => exact construct .nrzi tb v .zero
  | constructRz tb v duty => exact construct .rz tb v duty
  | constructMan tb v => exact construct .man tb v .zero
  | constructAmi tb v => exact construct .ami tb v .zero
  | constructMlt3 tb v => exact construct .mlt3 tb v .zero
  | constructHdb3 tb v => exact construct .hdb3 tb v .zero
  | setTbNrzl x => exact setTb .nrzl x
  | setTbNrzi x => exact setTb .nrzi x
  | setTbRz x => exact setTb .rz x
  | setTbMan x => exact setTb .man x
  | setTbAmi x => exact setTb .ami x
  | setTbMlt3 x => exact setTb .mlt3 x
  | setTbHdb3 x => exact setTb .hdb3 x
  | setAmpNrzl x => exact setAmp .nrzl x
  | setAmpNrzi x => exact setAmp .nrzi x
  | setAmpRz x => exact setAmp .rz x
  | setAmpMan x => exact setAmp .man x
  | setAmpAmi x => exact setAmp .ami x
  | setAmpMlt3 x => exact setAmp .mlt3 x
  | setAmpHdb3 x => exact setAmp .hdb3 x
  | setDutyNrzl x => exact setDuty .nrzl x
  | setDutyNrzi x => exact setDuty .nrzi x
  | setDutyRz x => exact setDuty .rz x
  | setDutyMan x => exact setDuty .man x
  | setDutyAmi x => exact setDuty .ami x
  | setDutyMlt3 x => exact setDuty .mlt3 x
  | setDutyHdb3 x => exact setDuty .hdb3 x
  | encodeNrzl bits => exact encodeBits .nrzl bits
  | encodeNrzi bits => exact encodeBits .nrzi bits
  | encodeRz bits => exact encodeBits .rz bits
  | encodeMan bits => exact encodeBits .man bits
  | encodeAmi bits => exact encodeBits .ami bits
  | encodeMlt3 bits => exact encodeBits .mlt3 bits
  | encodeHdb3 bits => exact encodeBits .hdb3 bits

/-- What `writesUnit` and `writesDuty` say of each scheme-indexed family. -/
@[simp] theorem writesUnit_construct (sc : Scheme) (tb v duty : Number) :
    writesUnit (.construct sc tb v duty) = some sc := by cases sc <;> rfl
@[simp] theorem writesUnit_setTb (sc : Scheme) (x : Number) : writesUnit (.setTb sc x) = some sc := by cases sc <;> rfl
@[simp] theorem writesUnit_setAmp (sc : Scheme) (x : Number) : writesUnit (.setAmp sc x) = some sc := by cases sc <;> rfl
@[simp] theorem writesUnit_setDuty (sc : Scheme) (x : Number) : writesUnit (.setDuty sc x) = none := by cases sc <;> rfl
@[simp] theorem writesUnit_encodeBits (sc : Scheme) (bits : List Bool) : writesUnit (.encodeBits sc bits) = none := by
  cases sc <;> rfl
theorem writesDuty_construct (sc : Scheme) (tb v duty : Number) :
    writesDuty (.construct sc tb v duty) = decide (sc = .rz) := by cases sc <;> rfl
theorem writesDuty_setDuty (sc : Scheme) (x : Number) : writesDuty (.setDuty sc x) = decide (sc = .rz) := by
  cases sc <;> rfl

/-- Every number a scheme-indexed command carries. -/
theorem nums_construct (sc : Scheme) (tb v duty : Number) :
    (Instr.construct sc tb v duty).nums = if sc = .rz then [tb, v, duty] else [tb, v] := by cases sc <;> rfl
@[simp] theorem nums_setTb (sc : Scheme) (x : Number) : (Instr.setTb sc x).nums = [x] := by cases sc <;> rfl
@[simp] theorem nums_setAmp (sc : Scheme) (x : Number) : (Instr.setAmp sc x).nums = [x] := by cases sc <;> rfl
@[simp] theorem nums_setDuty (sc : Scheme) (x : Number) : (Instr.setDuty sc x).nums = [x] := by cases sc <;> rfl
@[simp] theorem nums_encodeBits (sc : Scheme) (bits : List Bool) : (Instr.encodeBits sc bits).nums = [] := by
  cases sc <;> rfl

/-- Everything a command's next state can be: the old state with a response, which is a failure without payload or `OK`; or,
with a response `OK` without payload, the unit the command names written so that it stays valid or becomes so with legal
values taken from the command, the duty written with a legal value of the command, or both. -/
theorem exec_next_cases {i : Instr} {s t : State} (h : exec i s = .next t) :
    (∃ r : Response, (r.status ≠ .ok → r.payload = .empty) ∧ t = s.respond r) ∨
    (∃ sc u, writesUnit i = some sc ∧ t = (s.setUnit sc u).respond .done ∧ u.valid = true ∧
      (∀ x ∈ [u.tb, u.v], x ∈ i.nums ∨ x ∈ [(s.unit sc).tb, (s.unit sc).v]) ∧
      (sc = .rz → (s.unit sc).valid = true) ∧
      (u.tb = (s.unit sc).tb ∧ (s.unit sc).valid = true ∨ Positive u.tb) ∧
      (u.v = (s.unit sc).v ∧ (s.unit sc).valid = true ∨ LegalAmplitude sc u.v)) ∨
    (∃ x, writesDuty i = true ∧ x ∈ i.nums ∧ DutyFraction x ∧ t = (s.setDuty x).respond .done) ∨
    (∃ u x, writesUnit i = some .rz ∧ writesDuty i = true ∧ t = ((s.setUnit .rz u).setDuty x).respond .done ∧
      u.valid = true ∧ (∀ y ∈ [u.tb, u.v, x], y ∈ i.nums) ∧ Positive u.tb ∧ LegalAmplitude .rz u.v ∧
      DutyFraction x) := by
  have check : ∀ (p : Bool) (st : Status) (x : Number), checkCommand p st x s = .next t →
      ∃ r : Response, (r.status ≠ .ok → r.payload = .empty) ∧ t = s.respond r := by
    intro p st x h
    unfold checkCommand at h
    cases p <;> simp [fail_eq] at h
    · exact ⟨.failure st, by simp [Response.failure], h.symm⟩
    · exact ⟨.answer (.num x), by simp [Response.answer], h.symm⟩
  have failed : ∀ st : Status, Host.Outcome.next (φ := Fault) (ρ := Refusal) (s.respond (.failure st)) = .next t →
      ∃ r : Response, (r.status ≠ .ok → r.payload = .empty) ∧ t = s.respond r := by
    intro st h
    exact ⟨.failure st, by simp [Response.failure], (Host.Outcome.next.inj h).symm⟩
  revert h
  induction i using instr_families with
  | chkTb x => exact fun h => .inl (check _ _ _ h)
  | chkAmpc x => exact fun h => .inl (check _ _ _ h)
  | chkAmpo x => exact fun h => .inl (check _ _ _ h)
  | chkDuty x => exact fun h => .inl (check _ _ _ h)
  | parse chars =>
    intro h
    simp only [exec, execParse] at h
    split at h
    · refine .inl ⟨_, ?_, (Host.Outcome.next.inj h).symm⟩
      unfold parseResponse
      split
      · simp [Response.failure]
      · split <;> simp [Response.failure, Response.answer]
    · cases h
  | construct sc tb v duty =>
    intro h
    rw [exec_construct] at h
    split at h
    · next hsc =>
      subst hsc
      rcases constructWithDuty_cases tb v duty s with ⟨-, he⟩ | ⟨-, -, he⟩ | ⟨-, -, -, he⟩ | ⟨htb, hv, hd, he⟩ <;> rw [he] at h
      · exact .inl (failed _ h)
      · exact .inl (failed _ h)
      · exact .inl (failed _ h)
      · exact .inr (.inr (.inr ⟨_, _, rfl, rfl, (Host.Outcome.next.inj h).symm, rfl, by simp [nums_construct],
          bitPeriodOk_iff.mp htb, ampOk_iff.mp hv, dutyOk_iff.mp hd⟩))
    · next hsc =>
      rcases construct_cases sc tb v s with ⟨-, he⟩ | ⟨-, -, he⟩ | ⟨htb, hv, he⟩ <;> rw [he] at h
      · exact .inl (failed _ h)
      · exact .inl (failed _ h)
      · exact .inr (.inl ⟨sc, _, by simp, (Host.Outcome.next.inj h).symm, rfl, by simp [nums_construct, hsc],
          fun hrz => absurd hrz hsc, .inr (bitPeriodOk_iff.mp htb), .inr (ampOk_iff.mp hv)⟩)
  | setTb sc x =>
    intro h
    rw [exec_setTb] at h
    rcases setter_cases sc (bitPeriodOk x) .invalidBitPeriod (s.setTb sc x) s with ⟨-, he⟩ | ⟨-, -, he⟩ | ⟨hv, hp, he⟩ <;>
      rw [setTbCommand, he] at h
    · exact .inl (failed _ h)
    · exact .inl (failed _ h)
    · exact .inr (.inl ⟨sc, _, by simp, (Host.Outcome.next.inj h).symm, hv, by simp, fun _ => hv,
        .inr (bitPeriodOk_iff.mp hp), .inl ⟨rfl, hv⟩⟩)
  | setAmp sc x =>
    intro h
    rw [exec_setAmp] at h
    rcases setter_cases sc (ampOk sc x) .badAmplitude (s.setV sc x) s with ⟨-, he⟩ | ⟨-, -, he⟩ | ⟨hv, hp, he⟩ <;>
      rw [setAmpCommand, he] at h
    · exact .inl (failed _ h)
    · exact .inl (failed _ h)
    · exact .inr (.inl ⟨sc, _, by simp, (Host.Outcome.next.inj h).symm, hv, by simp, fun _ => hv,
        .inl ⟨rfl, hv⟩, .inr (ampOk_iff.mp hp)⟩)
  | setDuty sc x =>
    intro h
    rw [exec_setDuty] at h
    split at h
    · next hsc =>
      subst hsc
      rcases setter_cases .rz (dutyOk x) .wrongDuty (s.setDuty x) s with ⟨-, he⟩ | ⟨-, -, he⟩ | ⟨hv, hp, he⟩ <;> rw [he] at h
      · exact .inl (failed _ h)
      · exact .inl (failed _ h)
      · exact .inr (.inr (.inl ⟨x, rfl, by simp, dutyOk_iff.mp hp, (Host.Outcome.next.inj h).symm⟩))
    · exact .inl (failed _ h)
  | encodeBits sc bits =>
    intro h
    rw [exec_encodeBits] at h
    rcases encodeEntry_cases sc bits (encodeAlgorithm s.config.num s.rzDuty sc bits) s with
      ⟨-, he⟩ | ⟨-, -, he⟩ | ⟨-, -, ⟨o, -, he⟩ | ⟨e, -, he⟩⟩ <;> rw [he] at h
    · cases h
    · exact .inl (failed _ h)
    · exact .inl ⟨_, by simp [Response.answer], (Host.Outcome.next.inj h).symm⟩
    · cases h

end Sys2Proof.Machine
end

