-- ==== Sys2Proof/Laws/PerInstr.lean ====
section
/-! SUPPORT. One law of every command as syntax: how the encoder spells its command word. -/

namespace Sys2Proof

/-- The word of the command is that of its opcode with bit 3 zero, and no word of another opcode reads back as it
(`spec/30_encoding.md` R51 to R53). -/
def Laws.Spelling.Statement (i : Instr) : Prop :=
  (encode i).word.getLsbD 3 = false ∧ ∀ w : CmdWord, opcodeOf w = some i.opcode ↔ w = (encode i).word

/-- The law of one opcode, from which those of its commands follow. -/
theorem Laws.Spelling.of_opcode (i : Instr) : Laws.Spelling.Statement i := by
  have hz : ∀ op : Opcode, op.word.getLsbD 3 = false := by
    intro op
    cases op <;> first | rfl | (rename_i s; cases s <;> rfl)
  refine ⟨hz _, fun w => ⟨fun h => (opcodeOf_eq_some h).symm, ?_⟩⟩
  rintro rfl
  exact opcodeOf_word _

theorem Laws.Spelling.chkTb (x : Number) : Laws.Spelling.Statement (.chkTb x) := Laws.Spelling.of_opcode _

theorem Laws.Spelling.chkAmpc (x : Number) : Laws.Spelling.Statement (.chkAmpc x) := Laws.Spelling.of_opcode _

theorem Laws.Spelling.chkAmpo (x : Number) : Laws.Spelling.Statement (.chkAmpo x) := Laws.Spelling.of_opcode _

theorem Laws.Spelling.chkDuty (x : Number) : Laws.Spelling.Statement (.chkDuty x) := Laws.Spelling.of_opcode _

theorem Laws.Spelling.parse (chars : List CharCode) : Laws.Spelling.Statement (.parse chars) := Laws.Spelling.of_opcode _

theorem Laws.Spelling.constructNrzl (tb v : Number) : Laws.Spelling.Statement (.constructNrzl tb v) := Laws.Spelling.of_opcode _

theorem Laws.Spelling.constructNrzi (tb v : Number) : Laws.Spelling.Statement (.constructNrzi tb v) := Laws.Spelling.of_opcode _

theorem Laws.Spelling.constructRz (tb v duty : Number) : Laws.Spelling.Statement (.constructRz tb v duty) := Laws.Spelling.of_opcode _

theorem Laws.Spelling.constructMan (tb v : Number) : Laws.Spelling.Statement (.constructMan tb v) := Laws.Spelling.of_opcode _

theorem Laws.Spelling.constructAmi (tb v : Number) : Laws.Spelling.Statement (.constructAmi tb v) := Laws.Spelling.of_opcode _

theorem Laws.Spelling.constructMlt3 (tb v : Number) : Laws.Spelling.Statement (.constructMlt3 tb v) := Laws.Spelling.of_opcode _

theorem Laws.Spelling.constructHdb3 (tb v : Number) : Laws.Spelling.Statement (.constructHdb3 tb v) := Laws.Spelling.of_opcode _

theorem Laws.Spelling.setTbNrzl (x : Number) : Laws.Spelling.Statement (.setTbNrzl x) := Laws.Spelling.of_opcode _

theorem Laws.Spelling.setTbNrzi (x : Number) : Laws.Spelling.Statement (.setTbNrzi x) := Laws.Spelling.of_opcode _

theorem Laws.Spelling.setTbRz (x : Number) : Laws.Spelling.Statement (.setTbRz x) := Laws.Spelling.of_opcode _

theorem Laws.Spelling.setTbMan (x : Number) : Laws.Spelling.Statement (.setTbMan x) := Laws.Spelling.of_opcode _

theorem Laws.Spelling.setTbAmi (x : Number) : Laws.Spelling.Statement (.setTbAmi x) := Laws.Spelling.of_opcode _

theorem Laws.Spelling.setTbMlt3 (x : Number) : Laws.Spelling.Statement (.setTbMlt3 x) := Laws.Spelling.of_opcode _

theorem Laws.Spelling.setTbHdb3 (x : Number) : Laws.Spelling.Statement (.setTbHdb3 x) := Laws.Spelling.of_opcode _

theorem Laws.Spelling.setAmpNrzl (x : Number) : Laws.Spelling.Statement (.setAmpNrzl x) := Laws.Spelling.of_opcode _

theorem Laws.Spelling.setAmpNrzi (x : Number) : Laws.Spelling.Statement (.setAmpNrzi x) := Laws.Spelling.of_opcode _

theorem Laws.Spelling.setAmpRz (x : Number) : Laws.Spelling.Statement (.setAmpRz x) := Laws.Spelling.of_opcode _

theorem Laws.Spelling.setAmpMan (x : Number) : Laws.Spelling.Statement (.setAmpMan x) := Laws.Spelling.of_opcode _

theorem Laws.Spelling.setAmpAmi (x : Number) : Laws.Spelling.Statement (.setAmpAmi x) := Laws.Spelling.of_opcode _

theorem Laws.Spelling.setAmpMlt3 (x : Number) : Laws.Spelling.Statement (.setAmpMlt3 x) := Laws.Spelling.of_opcode _

theorem Laws.Spelling.setAmpHdb3 (x : Number) : Laws.Spelling.Statement (.setAmpHdb3 x) := Laws.Spelling.of_opcode _

theorem Laws.Spelling.setDutyNrzl (x : Number) : Laws.Spelling.Statement (.setDutyNrzl x) := Laws.Spelling.of_opcode _

theorem Laws.Spelling.setDutyNrzi (x : Number) : Laws.Spelling.Statement (.setDutyNrzi x) := Laws.Spelling.of_opcode _

theorem Laws.Spelling.setDutyRz (x : Number) : Laws.Spelling.Statement (.setDutyRz x) := Laws.Spelling.of_opcode _

theorem Laws.Spelling.setDutyMan (x : Number) : Laws.Spelling.Statement (.setDutyMan x) := Laws.Spelling.of_opcode _

theorem Laws.Spelling.setDutyAmi (x : Number) : Laws.Spelling.Statement (.setDutyAmi x) := Laws.Spelling.of_opcode _

theorem Laws.Spelling.setDutyMlt3 (x : Number) : Laws.Spelling.Statement (.setDutyMlt3 x) := Laws.Spelling.of_opcode _

theorem Laws.Spelling.setDutyHdb3 (x : Number) : Laws.Spelling.Statement (.setDutyHdb3 x) := Laws.Spelling.of_opcode _

theorem Laws.Spelling.encodeNrzl (bits : List Bool) : Laws.Spelling.Statement (.encodeNrzl bits) := Laws.Spelling.of_opcode _

theorem Laws.Spelling.encodeNrzi (bits : List Bool) : Laws.Spelling.Statement (.encodeNrzi bits) := Laws.Spelling.of_opcode _

theorem Laws.Spelling.encodeRz (bits : List Bool) : Laws.Spelling.Statement (.encodeRz bits) := Laws.Spelling.of_opcode _

theorem Laws.Spelling.encodeMan (bits : List Bool) : Laws.Spelling.Statement (.encodeMan bits) := Laws.Spelling.of_opcode _

theorem Laws.Spelling.encodeAmi (bits : List Bool) : Laws.Spelling.Statement (.encodeAmi bits) := Laws.Spelling.of_opcode _

theorem Laws.Spelling.encodeMlt3 (bits : List Bool) : Laws.Spelling.Statement (.encodeMlt3 bits) := Laws.Spelling.of_opcode _

theorem Laws.Spelling.encodeHdb3 (bits : List Bool) : Laws.Spelling.Statement (.encodeHdb3 bits) := Laws.Spelling.of_opcode _

end Sys2Proof
end

