-- ==== Sys2Proof/Laws/Rounding.lean ====
section
/-! SUPPORT. What the helpers of a binary instance's rounding compute, in rationals: the scaled fraction, the exponent, and the
magnitude as a significand times a power of two. -/

namespace Sys2Proof

/-- The scaled fraction is the fraction over the power of two, and its denominator stays positive. -/
theorem scaleDown_spec (n d : Nat) (k : Int) (hd : 0 < d) :
    0 < (scaleDown n d k).2 ∧ ((scaleDown n d k).1 : Rat) / (scaleDown n d k).2 = (n : Rat) / d / 2 ^ k := by
  unfold scaleDown
  split
  · next h =>
    obtain ⟨m, rfl⟩ := Int.eq_ofNat_of_zero_le h
    exact ⟨by positivity, by simp [div_div]⟩
  · next h =>
    obtain ⟨m, hm⟩ := Int.eq_ofNat_of_zero_le (show 0 ≤ -k by omega)
    obtain rfl : k = -m := by omega
    refine ⟨hd, ?_⟩
    simp
    ring

theorem log2_spec {n : Nat} (hn : 0 < n) :
    (2 : Rat) ^ (Nat.log2 n : Int) ≤ n ∧ (n : Rat) < 2 ^ ((Nat.log2 n : Int) + 1) := by
  constructor
  · rw [zpow_natCast]
    exact_mod_cast Nat.log2_self_le hn.ne'
  · rw [show (Nat.log2 n : Int) + 1 = ((Nat.log2 n + 1 : Nat) : Int) by push_cast; ring, zpow_natCast]
    exact_mod_cast @Nat.lt_log2_self n

/-- `floorLog2 n d` is the exponent of the leading bit of `n / d`. -/
theorem floorLog2_spec {n d : Nat} (hn : 0 < n) (hd : 0 < d) :
    (2 : Rat) ^ floorLog2 n d ≤ (n : Rat) / d ∧ (n : Rat) / d < 2 ^ (floorLog2 n d + 1) := by
  obtain ⟨n1, n2⟩ := log2_spec hn
  obtain ⟨d1, d2⟩ := log2_spec hd
  have hdr : (0 : Rat) < d := by exact_mod_cast hd
  have two : (2 : Rat) ≠ 0 := by norm_num
  obtain ⟨hb, hs⟩ := scaleDown_spec n d ((Nat.log2 n : Int) - Nat.log2 d) hd
  have hbr : (0 : Rat) < (scaleDown n d ((Nat.log2 n : Int) - Nat.log2 d)).2 := by exact_mod_cast hb
  have hi : (n : Rat) / d < 2 ^ ((Nat.log2 n : Int) - Nat.log2 d + 1) := by
    rw [div_lt_iff₀ hdr]
    calc (n : Rat) < 2 ^ ((Nat.log2 n : Int) + 1) := n2
      _ = 2 ^ ((Nat.log2 n : Int) - Nat.log2 d + 1) * 2 ^ (Nat.log2 d : Int) := by
        rw [← zpow_add₀ two]; congr 1; ring
      _ ≤ _ := by gcongr
  have lo : 2 ^ ((Nat.log2 n : Int) - Nat.log2 d - 1) < (n : Rat) / d := by
    rw [lt_div_iff₀ hdr]
    calc _ < 2 ^ ((Nat.log2 n : Int) - Nat.log2 d - 1) * (2 : Rat) ^ ((Nat.log2 d : Int) + 1) := by gcongr
      _ = 2 ^ (Nat.log2 n : Int) := by rw [← zpow_add₀ two]; congr 1; ring
      _ ≤ _ := n1
  unfold floorLog2
  simp only []
  split
  · next c =>
    have h : ((scaleDown n d ((Nat.log2 n : Int) - Nat.log2 d)).1 : Rat) /
        (scaleDown n d ((Nat.log2 n : Int) - Nat.log2 d)).2 < 1 := by
      rw [div_lt_one hbr]
      exact_mod_cast c
    rw [hs, div_lt_one (by positivity)] at h
    exact ⟨lo.le, by rwa [sub_add_cancel]⟩
  · next c =>
    have h : 1 ≤ ((scaleDown n d ((Nat.log2 n : Int) - Nat.log2 d)).1 : Rat) /
        (scaleDown n d ((Nat.log2 n : Int) - Nat.log2 d)).2 := by
      rw [one_le_div hbr]
      exact_mod_cast not_lt.mp c
    rw [hs, one_le_div (by positivity)] at h
    exact ⟨h, hi⟩

/-- The rounded magnitude is the rounded significand times the unit in the last place. -/
theorem roundMagnitude_eq (f : NumFormat) (n d : Nat) :
    f.roundMagnitude n d =
      roundHalfEven (scaleDown n d (f.ulpExp n d)).1 (scaleDown n d (f.ulpExp n d)).2 * (2 : Rat) ^ f.ulpExp n d := by
  unfold NumFormat.roundMagnitude
  simp only []
  split
  · next h =>
    obtain ⟨m, hm⟩ := Int.eq_ofNat_of_zero_le h
    rw [Rat.mkRat_eq_div, hm]
    push_cast
    simp
  · next h =>
    obtain ⟨m, hm⟩ := Int.eq_ofNat_of_zero_le (show 0 ≤ -f.ulpExp n d by omega)
    rw [Rat.mkRat_eq_div, show f.ulpExp n d = -m by omega]
    push_cast
    simp [div_eq_mul_inv]

end Sys2Proof
end

