-- ==== Sys2Proof/Laws/Step.lean ====
section
/-! SUPPORT. What one step can do, said once: a whole command, a reset, or a piece of a command that leaves every register
alone; and how runs are put together. -/

namespace Sys2Proof.Machine

/-! ### Runs -/

@[simp] theorem run_zero (s : State) : run 0 s = .next s := rfl

theorem run_next {k : Nat} {s t : State} (h : step s = .next t) : run (k + 1) s = run k t := by simp [run, h]

theorem run_fault {k : Nat} {s : State} {e : Fault} (h : step s = .fault e) : run (k + 1) s = .fault e := by
  simp [run, h]

theorem run_refused {k : Nat} {s : State} {r : Refusal} (h : step s = .refused r) : run (k + 1) s = .refused r := by
  simp [run, h]

theorem run_one (s : State) : run 1 s = step s := by
  cases h : step s with
  | next t => rw [run_next h, run_zero]
  | fault e => exact run_fault h
  | refused r => exact run_refused h

theorem run_add {j : Nat} (k : Nat) {s t : State} (h : run j s = .next t) : run (j + k) s = run k t := by
  induction j generalizing s with
  | zero => cases h; simp
  | succ j ih =>
    rw [show j + 1 + k = (j + k) + 1 by omega]
    cases hx : step s with
    | next z => rw [run_next hx] at h ⊢; exact ih h
    | fault e => rw [run_fault hx] at h; cases h
    | refused r => rw [run_refused hx] at h; cases h

/-- A run of one more step ends with that step. -/
theorem run_last {k : Nat} {s t : State} (h : run k s = .next t) : run (k + 1) s = step t := by
  rw [run_add 1 h, run_one]

/-! ### One step -/

/-- A step in which the host waits, by an event or by having nothing more to do. -/
theorem step_waiting {s : State} (h : s.inbox = [] ∨ ∃ rest, s.inbox = .wait :: rest) :
    step s = advance { s with inbox := s.inbox.tail } := by
  rcases h with h | ⟨rest, h⟩
  · rw [step, takeEvent_nil s h]
    cases s
    simp_all
  · rw [step, takeEvent_cons s h, h]
    rfl

/-- The same parameter registers and the same configuration. -/
def SameRegisters (s₀ s : State) : Prop :=
  (∀ sc, s₀.unit sc = s.unit sc) ∧ s₀.rzDuty = s.rzDuty ∧ s₀.config = s.config

/-- The step of the encoder at work reads the registers and the configuration, and nothing else. -/
theorem engineBit_same {s₀ s : State} (h : SameRegisters s₀ s) (g : Engine) (a : Wave) (b : Bool) :
    engineBit s₀ g a b = engineBit s g a b := by
  obtain ⟨hu, hd, hc⟩ := h
  have u := fun sc => hu sc
  have u1 := u .nrzl
  have u2 := u .nrzi
  have u3 := u .rz
  have u4 := u .man
  have u5 := u .ami
  have u6 := u .mlt3
  simp only [State.unit] at u1 u2 u3 u4 u5 u6
  cases g <;> simp only [engineBit, u1, u2, u3, u4, u5, u6, hd, hc]

/-- What a step that answers `t` from `s` has done: a whole command of admitted numbers with nothing in progress; a reset,
which the host asked for; or something that leaves the registers alone, and if an `ENCODE` is in progress after it, it has
just begun on a valid unit, or has taken the bit at its cursor. -/
def StepEffect (s t : State) : Prop :=
  (∃ s₀ i, SameRegisters s₀ s ∧ s₀.busy = none ∧ exec i s₀ = .next t ∧ i.numsAdmitted s.config = true) ∨
  (∃ rest, s.inbox = .reset :: rest ∧ ∃ s₀, SameRegisters s₀ s ∧ t = s₀.afterReset) ∨
  (SameRegisters t s ∧ ∀ tr, t.busy = some (.encoding tr) → t.response = none ∧
    ((∃ sc bits, (s.unit sc).valid = true ∧ transientStart sc bits (s.unit sc) = .ok tr) ∨
      (∃ tr₀ b g a, s.busy = some (.encoding tr₀) ∧ bitRead tr₀.bits tr₀.i = some b ∧
        engineBit s tr₀.engine tr₀.wave b = .ok (g, a) ∧ tr = { tr₀ with i := tr₀.i + 1, wave := a, engine := g })))

theorem sameRegisters_respond {s₀ s : State} (h : SameRegisters s₀ s) (r : Response) : SameRegisters (s₀.respond r) s :=
  ⟨fun sc => by rw [respond_unit]; exact h.1 sc, h.2.1, h.2.2⟩

theorem perform_effect {f : Frame} {s₀ s t : State} (hs : SameRegisters s₀ s) (hb : s₀.busy = none)
    (h : perform f s₀ = .next t) : StepEffect s t := by
  unfold perform performInstr at h
  split at h
  · split at h
    · next hh => exact .inl ⟨s₀, _, hs, hb, h, by rw [← hs.2.2]; exact hh⟩
    · cases h
  · cases Host.Outcome.next.inj h
    exact .inr (.inr ⟨sameRegisters_respond hs _, by simp [illegalCommand, State.fail, hb]⟩)
  · cases h

/-- Every step has such an effect. -/
theorem step_effect {s t : State} (h : step s = .next t) : StepEffect s t := by
  have key : ∀ e s₀, s.takeEvent = (e, s₀) → SameRegisters s₀ s ∧ s₀.busy = s.busy ∧ (e = .reset → ∃ rest, s.inbox = .reset :: rest) ∧
      ∀ g a x, engineBit s₀ g a x = engineBit s g a x := by
    intro e s₀
    unfold State.takeEvent
    cases hi : s.inbox with
    | nil => rintro h; cases h; exact ⟨⟨fun _ => rfl, rfl, rfl⟩, rfl, by simp, fun _ _ _ => rfl⟩
    | cons e' r => rintro h; cases h; exact ⟨⟨fun _ => by simp, rfl, rfl⟩, rfl, by simp, fun g _ _ => by cases g <;> rfl⟩
  unfold step at h
  rcases hx : s.takeEvent with ⟨e, s₀⟩
  obtain ⟨hs, hb, hr, hg⟩ := key e s₀ hx
  rw [hx] at h
  cases e with
  | wait =>
    simp only [advance] at h
    split at h
    · next hbn =>
      cases h
      exact .inr (.inr ⟨⟨fun sc => by rw [noResponse_unit]; exact hs.1 sc, hs.2⟩, by simp [State.noResponse, hbn]⟩)
    · next f hf =>
      have hs' : SameRegisters s₀.release s := ⟨fun sc => by rw [release_unit]; exact hs.1 sc, hs.2⟩
      unfold beginCommand at h
      split at h
      · split at h
        · next i _ sc bits hbeg =>
          unfold encodeBegin at h
          split at h
          · next tr htr =>
            cases h
            refine .inr (.inr ⟨⟨fun sc => by rw [unit_with_busy]; exact hs'.1 sc, hs.2⟩, ?_⟩)
            intro tr' h'
            cases h'
            refine ⟨rfl, .inl ⟨sc, bits, ?_, by rw [← hs'.1]; exact htr⟩⟩
            unfold encodeBegins at hbeg
            split at hbeg
            · split at hbeg
              · next hv =>
                cases hbeg
                rw [← hs'.1]; exact (Bool.and_eq_true_iff.mp hv).2
              · cases hbeg
            · cases hbeg
          · cases h
        · unfold performInstr at h
          split at h
          · next hh => exact .inl ⟨_, _, hs', rfl, h, by rw [← hs.2.2]; exact hh⟩
          · cases h
      · cases h; exact .inr (.inr ⟨sameRegisters_respond hs' _, by simp [illegalCommand, State.fail]⟩)
      · cases h
    · next tr₀ htr =>
      unfold encodeTick at h
      split at h
      · next x hxx =>
        split at h
        · next g a hga =>
          cases h
          refine .inr (.inr ⟨⟨fun sc => by rw [unit_with_busy]; exact hs.1 sc, hs.2⟩, ?_⟩)
          intro tr' h'
          cases h'
          exact ⟨rfl, .inr ⟨tr₀, x, g, a, hb ▸ htr, hxx, (hg _ _ _) ▸ hga, rfl⟩⟩
        · cases h
      · cases h
        exact .inr (.inr ⟨sameRegisters_respond (s₀ := s₀.release) ⟨fun sc => by rw [release_unit]; exact hs.1 sc, hs.2⟩ _, by simp⟩)
  | reset =>
    cases h
    obtain ⟨rest, hr⟩ := hr rfl
    exact .inr (.inl ⟨rest, hr, s₀, hs, rfl⟩)
  | start f =>
    simp only [whenFree] at h
    split at h
    · cases h; exact .inr (.inr ⟨⟨fun sc => by rw [present_unit]; exact hs.1 sc, hs.2⟩, by simp [State.present]⟩)
    · cases h
  | command f =>
    simp only [whenFree] at h
    split at h
    · next hbn => exact perform_effect hs hbn h
    · cases h

end Sys2Proof.Machine
end

