-- ==== Sys2Proof/Tests/Slice0.lean ====
section
/-! SUPPORT. Tests of the model. Expected results are those of `spec/95_test_vectors.md` (the section is named at each group)
or are written out from the table of `spec/30_encoding.md` R53; then one theorem for every statement that has hypotheses, with
a state and operands that meet them. -/

namespace Sys2Proof.Tests

open Sys2Proof.Machine

/-! ### Helpers -/

/-- The number `n / d`. -/
abbrev q (n : Int) (d : Nat := 1) : Number := .rat (mkRat n d)

abbrev seg (a b lv : Number) : Segment := { start := a, stop := b, level := lv }

/-- The reset state in the instance `num`, with one unit constructed. -/
def unitState (sc : Scheme) (tb v : Number) (duty : Number := .zero) (num : NumFormat := .rational) : State :=
  ((State.resetWith { num, nMax := none }).setUnit sc { valid := true, tb, v }).setDuty duty

/-- The response of a command. -/
def answer (i : Instr) (s : State) : Option Response :=
  match exec i s with
  | .next t => t.response
  | _ => none

/-- The unit `sc` and the duty after a command. -/
def unitAfter (i : Instr) (s : State) (sc : Scheme) : Option (CoderUnit × Number) :=
  match exec i s with
  | .next t => some (t.unit sc, t.rzDuty)
  | _ => none

/-- The output of an `ENCODE`. -/
def output (i : Instr) (s : State) : Option (List Segment) :=
  match answer i s with
  | some { status := .ok, payload := .segments out } => some out
  | _ => none

/-- The levels of the output. -/
def levels (i : Instr) (s : State) : Option (List Number) := (output i s).map (·.map (·.level))

/-- The response of the `n`-th step from `s`. -/
def responseAt : Nat → State → Option Response
  | 0, s => s.response
  | n + 1, s =>
    match step s with
    | .next t => responseAt n t
    | _ => none

/-- The fault of one step. -/
def faultOf (s : State) : Option Fault :=
  match step s with
  | .fault e => some e
  | _ => none

/-- The refusal of one step. -/
def refusalOf (s : State) : Option Refusal :=
  match step s with
  | .refused r => some r
  | _ => none

/-! ### WellFormed: an ill-formed term for each check -/

theorem test_infinity_is_no_operand_of_q :
    (Instr.chkTb (.inf false)).wellFormed Config.reference = false := by decide

theorem test_nan_is_no_operand_of_q :
    (Instr.constructAmi (q 1) .nan).wellFormed Config.reference = false := by decide

theorem test_negative_zero_is_no_operand_of_q :
    (Instr.constructRz (q 1) (q 1) .negZero).wellFormed Config.reference = false := by decide

/-- One tenth is no double; the double next to it is. -/
theorem test_tenth_is_no_double :
    (Instr.setTbMan (q 1 10)).wellFormed { num := .binary64, nMax := none } = false ∧
      (Instr.setTbMan (q 3602879701896397 36028797018963968)).wellFormed { num := .binary64, nMax := none } = true := by
  decide

theorem test_overlong_bits_are_ill_formed :
    (Instr.encodeHdb3 [true, true, true]).wellFormed { num := .rational, nMax := some 2 } = false ∧
      (Instr.encodeHdb3 [true, true]).wellFormed { num := .rational, nMax := some 2 } = true := by decide

theorem test_overlong_chars_are_ill_formed :
    (Instr.parse [0x30#8, 0x31#8]).wellFormed { num := .rational, nMax := some 1 } = false := by decide

/-! ### Decoding: every row of the table, its word written out (R53) -/

theorem test_decode_functions :
    decode ⟨0b00000000#8, [.num (q 1 2)]⟩ = .instr (.chkTb (q 1 2)) ∧
    decode ⟨0b00000001#8, [.num (q 1 2)]⟩ = .instr (.chkAmpc (q 1 2)) ∧
    decode ⟨0b00000010#8, [.num (q 1 2)]⟩ = .instr (.chkAmpo (q 1 2)) ∧
    decode ⟨0b00000011#8, [.num (q 1 2)]⟩ = .instr (.chkDuty (q 1 2)) ∧
    decode ⟨0b00000100#8, [.len 2, .chr 0x31#8, .chr 0x2A#8]⟩ = .instr (.parse [0x31#8, 0x2A#8]) := by decide

theorem test_decode_construct :
    decode ⟨0b00010000#8, [.num (q 1), .num (q 2)]⟩ = .instr (.constructNrzl (q 1) (q 2)) ∧
    decode ⟨0b00010001#8, [.num (q 1), .num (q 2)]⟩ = .instr (.constructNrzi (q 1) (q 2)) ∧
    decode ⟨0b00010010#8, [.num (q 1), .num (q 2), .num (q 1 4)]⟩ = .instr (.constructRz (q 1) (q 2) (q 1 4)) ∧
    decode ⟨0b00010011#8, [.num (q 1), .num (q 2)]⟩ = .instr (.constructMan (q 1) (q 2)) ∧
    decode ⟨0b00010100#8, [.num (q 1), .num (q 2)]⟩ = .instr (.constructAmi (q 1) (q 2)) ∧
    decode ⟨0b00010101#8, [.num (q 1), .num (q 2)]⟩ = .instr (.constructMlt3 (q 1) (q 2)) ∧
    decode ⟨0b00010110#8, [.num (q 1), .num (q 2)]⟩ = .instr (.constructHdb3 (q 1) (q 2)) := by decide

theorem test_decode_set_tb :
    decode ⟨0b00100000#8, [.num (q 3)]⟩ = .instr (.setTbNrzl (q 3)) ∧
    decode ⟨0b00100001#8, [.num (q 3)]⟩ = .instr (.setTbNrzi (q 3)) ∧
    decode ⟨0b00100010#8, [.num (q 3)]⟩ = .instr (.setTbRz (q 3)) ∧
    decode ⟨0b00100011#8, [.num (q 3)]⟩ = .instr (.setTbMan (q 3)) ∧
    decode ⟨0b00100100#8, [.num (q 3)]⟩ = .instr (.setTbAmi (q 3)) ∧
    decode ⟨0b00100101#8, [.num (q 3)]⟩ = .instr (.setTbMlt3 (q 3)) ∧
    decode ⟨0b00100110#8, [.num (q 3)]⟩ = .instr (.setTbHdb3 (q 3)) := by decide

theorem test_decode_set_amp :
    decode ⟨0b00110000#8, [.num (q 3)]⟩ = .instr (.setAmpNrzl (q 3)) ∧
    decode ⟨0b00110001#8, [.num (q 3)]⟩ = .instr (.setAmpNrzi (q 3)) ∧
    decode ⟨0b00110010#8, [.num (q 3)]⟩ = .instr (.setAmpRz (q 3)) ∧
    decode ⟨0b00110011#8, [.num (q 3)]⟩ = .instr (.setAmpMan (q 3)) ∧
    decode ⟨0b00110100#8, [.num (q 3)]⟩ = .instr (.setAmpAmi (q 3)) ∧
    decode ⟨0b00110101#8, [.num (q 3)]⟩ = .instr (.setAmpMlt3 (q 3)) ∧
    decode ⟨0b00110110#8, [.num (q 3)]⟩ = .instr (.setAmpHdb3 (q 3)) := by decide

theorem test_decode_set_duty :
    decode ⟨0b01000000#8, [.num (q 3)]⟩ = .instr (.setDutyNrzl (q 3)) ∧
    decode ⟨0b01000001#8, [.num (q 3)]⟩ = .instr (.setDutyNrzi (q 3)) ∧
    decode ⟨0b01000010#8, [.num (q 3)]⟩ = .instr (.setDutyRz (q 3)) ∧
    decode ⟨0b01000011#8, [.num (q 3)]⟩ = .instr (.setDutyMan (q 3)) ∧
    decode ⟨0b01000100#8, [.num (q 3)]⟩ = .instr (.setDutyAmi (q 3)) ∧
    decode ⟨0b01000101#8, [.num (q 3)]⟩ = .instr (.setDutyMlt3 (q 3)) ∧
    decode ⟨0b01000110#8, [.num (q 3)]⟩ = .instr (.setDutyHdb3 (q 3)) := by decide

theorem test_decode_encode :
    decode ⟨0b01010000#8, [.len 3, .bit true, .bit false, .bit false]⟩ = .instr (.encodeNrzl [true, false, false]) ∧
    decode ⟨0b01010001#8, [.len 3, .bit true, .bit false, .bit false]⟩ = .instr (.encodeNrzi [true, false, false]) ∧
    decode ⟨0b01010010#8, [.len 3, .bit true, .bit false, .bit false]⟩ = .instr (.encodeRz [true, false, false]) ∧
    decode ⟨0b01010011#8, [.len 3, .bit true, .bit false, .bit false]⟩ = .instr (.encodeMan [true, false, false]) ∧
    decode ⟨0b01010100#8, [.len 3, .bit true, .bit false, .bit false]⟩ = .instr (.encodeAmi [true, false, false]) ∧
    decode ⟨0b01010101#8, [.len 3, .bit true, .bit false, .bit false]⟩ = .instr (.encodeMlt3 [true, false, false]) ∧
    decode ⟨0b01010110#8, [.len 3, .bit true, .bit false, .bit false]⟩ = .instr (.encodeHdb3 [true, false, false]) := by decide

/-- The reserved words of `spec/95_test_vectors.md` 2.8, and selector 7 of every class. -/
theorem test_reserved_words :
    ([0x05#8, 0x06#8, 0x07#8, 0x08#8, 0x17#8, 0x18#8, 0x27#8, 0x37#8, 0x47#8, 0x57#8, 0x58#8, 0x60#8, 0xFF#8].all
      fun w => decide (decode ⟨w, []⟩ = .reserved w)) = true := by decide

/-- A length that is not the number of the elements, a missing and a superfluous operand. -/
theorem test_bad_operands :
    decode ⟨0x54#8, [.len 2, .bit true]⟩ = .badOperands (.encode .ami) ∧
    decode ⟨0x00#8, []⟩ = .badOperands .chkTb ∧
    decode ⟨0x10#8, [.num (q 1), .num (q 1), .num (q 1)]⟩ = .badOperands (.construct .nrzl) := by decide

/-- The words of `PARSE "0110"` and of `ENCODE.MAN 01`. -/
theorem test_encode_sequences :
    encode (.parse [0x30#8, 0x31#8, 0x31#8, 0x30#8]) =
        ⟨0x04#8, [.len 4, .chr 0x30#8, .chr 0x31#8, .chr 0x31#8, .chr 0x30#8]⟩ ∧
      encode (.encodeMan [false, true]) = ⟨0x53#8, [.len 2, .bit false, .bit true]⟩ := by decide

theorem test_decodeTableWord :
    decodeTableWord 8 0x12 = some (.constructRz .zero .zero .zero) ∧ decodeTableWord 8 0x56 = some (.encodeHdb3 []) ∧
      decodeTableWord 8 0x17 = none ∧ decodeTableWord 16 0x0110 = none := by decide

/-- A response is its status code and its payload (R55). -/
theorem test_response_items :
    (Response.answer (.segments [seg (q 0) (q 1) (q 1), seg (q 1) (q 2) (q (-1))])).items =
        [.code 0, .len 2, .num (q 0), .num (q 1), .num (q 1), .num (q 1), .num (q 2), .num (q (-1))] ∧
      (Response.failure .parseReject).items = [.code 7] := by decide

/-! ### The checks (2.1) -/

theorem test_chk_tb :
    answer (.chkTb (q 1 2)) .reset = some (.answer (.num (q 1 2))) ∧
    answer (.chkTb (q 0)) .reset = some (.failure .invalidBitPeriod) ∧
    answer (.chkTb (q (-1))) .reset = some (.failure .invalidBitPeriod) := by decide

theorem test_chk_ampc :
    answer (.chkAmpc (q 5 2)) .reset = some (.answer (.num (q 5 2))) ∧
    answer (.chkAmpc (q 0)) .reset = some (.failure .badAmplitude) ∧
    answer (.chkAmpc (q (-1))) .reset = some (.failure .badAmplitude) := by decide

theorem test_chk_ampo :
    answer (.chkAmpo (q (-1))) .reset = some (.answer (.num (q (-1)))) ∧
    answer (.chkAmpo (q 3)) .reset = some (.answer (.num (q 3))) ∧
    answer (.chkAmpo (q 0)) .reset = some (.failure .badAmplitude) := by decide

theorem test_chk_duty :
    answer (.chkDuty (q 1 2)) .reset = some (.answer (.num (q 1 2))) ∧
    answer (.chkDuty (q 1)) .reset = some (.answer (.num (q 1))) ∧
    answer (.chkDuty (q 0)) .reset = some (.failure .wrongDuty) ∧
    answer (.chkDuty (q 3 2)) .reset = some (.failure .wrongDuty) ∧
    answer (.chkDuty (q (-1) 2)) .reset = some (.failure .wrongDuty) := by decide

/-- The values of the binary instances only. -/
theorem test_checks_of_special_values :
    ([Number.inf false, .inf true, .nan, .negZero].all fun x =>
      decide (answer (.chkTb x) .reset = some (.failure .invalidBitPeriod)) &&
      decide (answer (.chkAmpc x) .reset = some (.failure .badAmplitude)) &&
      decide (answer (.chkAmpo x) .reset = some (.failure .badAmplitude)) &&
      decide (answer (.chkDuty x) .reset = some (.failure .wrongDuty))) = true := by decide

/-! ### PARSE (2.8) -/

theorem test_parse_digits :
    answer (.parse [0x30#8, 0x31#8, 0x31#8, 0x30#8]) .reset = some (.answer (.bits [false, true, true, false])) := by decide

theorem test_parse_rejects :
    answer (.parse []) .reset = some (.failure .parseReject) ∧
    answer (.parse [0x30#8, 0x31#8, 0x20#8, 0x31#8, 0x30#8]) .reset = some (.failure .parseReject) ∧
    answer (.parse [0x30#8, 0x31#8, 0x32#8, 0x30#8]) .reset = some (.failure .parseReject) ∧
    answer (.parse [0x20#8, 0x30#8, 0x31#8]) .reset = some (.failure .parseReject) := by decide

/-! ### CONSTRUCT (2.2) -/

theorem test_construct_nrzl :
    unitAfter (.constructNrzl (q 1) (q 1)) .reset .nrzl = some ({ valid := true, tb := (q 1), v := (q 1) }, (q 0)) ∧
    answer (.constructNrzl (q 1) (q (-1))) .reset = some (.failure .badAmplitude) := by decide

theorem test_construct_nrzi :
    unitAfter (.constructNrzi (q 1) (q (-1))) .reset .nrzi = some ({ valid := true, tb := (q 1), v := (q (-1)) }, (q 0)) ∧
    answer (.constructNrzi (q 1) (q 0)) .reset = some (.failure .badAmplitude) := by decide

theorem test_construct_rz :
    unitAfter (.constructRz (q 1) (q 1) (q 1 2)) .reset .rz = some ({ valid := true, tb := (q 1), v := (q 1) }, (q 1 2)) := by decide

theorem test_construct_rz_first_failure :
    answer (.constructRz (q 1) (q 1) (q 0)) .reset = some (.failure .wrongDuty) ∧
    answer (.constructRz (q 0) (q 0) (q 2)) .reset = some (.failure .invalidBitPeriod) ∧
    answer (.constructRz (q 1) (q 0) (q 2)) .reset = some (.failure .badAmplitude) := by decide

theorem test_construct_man :
    unitAfter (.constructMan (q 2) (q 1 2)) .reset .man = some ({ valid := true, tb := (q 2), v := (q 1 2) }, (q 0)) := by decide

theorem test_construct_ami :
    unitAfter (.constructAmi (q 1) (q (-1))) .reset .ami = some ({ valid := true, tb := (q 1), v := (q (-1)) }, (q 0)) ∧
    unitAfter (.constructAmi (q 2) (q 5)) (unitState .ami (q 1) (q (-1))) .ami = some ({ valid := true, tb := (q 2), v := (q 5) }, (q 0)) := by decide

theorem test_construct_ami_failure_keeps_the_unit :
    unitAfter (.constructAmi (q 0) (q 5)) (unitState .ami (q 1) (q (-1))) .ami = some ({ valid := true, tb := (q 1), v := (q (-1)) }, q 0) := by decide

theorem test_construct_mlt3 :
    answer (.constructMlt3 (q 1) (q (-2))) .reset = some (.failure .badAmplitude) ∧
    unitAfter (.constructMlt3 (q 1) (q 1)) .reset .mlt3 = some ({ valid := true, tb := (q 1), v := (q 1) }, (q 0)) := by decide

theorem test_construct_hdb3 :
    unitAfter (.constructHdb3 (q 1) (q (-1))) .reset .hdb3 = some ({ valid := true, tb := (q 1), v := (q (-1)) }, (q 0)) ∧
    answer (.constructHdb3 (q 1) (q 0)) .reset = some (.failure .badAmplitude) := by decide

/-! ### SET_TB, SET_AMP, SET_DUTY (2.3) -/

theorem test_set_tb_nrzl :
    answer (.setTbNrzl (q 1)) .reset = some (.failure .notConstructed) ∧
    unitAfter (.setTbNrzl (q 1 2)) (unitState .nrzl (q 1) (q 1)) .nrzl = some ({ valid := true, tb := (q 1 2), v := (q 1) }, (q 0)) ∧
    answer (.setTbNrzl (q 0)) (unitState .nrzl (q 1) (q 1)) = some (.failure .invalidBitPeriod) ∧
    unitAfter (.setTbNrzl (q 0)) (unitState .nrzl (q 1 2) (q 1)) .nrzl = some ({ valid := true, tb := (q 1 2), v := (q 1) }, (q 0)) := by decide

theorem test_set_tb_nrzi :
    unitAfter (.setTbNrzi (q 1 2)) (unitState .nrzi (q 1) (q 1)) .nrzi = some ({ valid := true, tb := (q 1 2), v := (q 1) }, (q 0)) ∧
    answer (.setTbNrzi (q (-1))) (unitState .nrzi (q 1) (q 1)) = some (.failure .invalidBitPeriod) := by decide

theorem test_set_tb_rz :
    unitAfter (.setTbRz (q 1 2)) (unitState .rz (q 1) (q 1)) .rz = some ({ valid := true, tb := (q 1 2), v := (q 1) }, (q 0)) ∧
    answer (.setTbRz (q (-1))) (unitState .rz (q 1) (q 1)) = some (.failure .invalidBitPeriod) := by decide

theorem test_set_tb_man :
    unitAfter (.setTbMan (q 1 2)) (unitState .man (q 1) (q 1)) .man = some ({ valid := true, tb := (q 1 2), v := (q 1) }, (q 0)) ∧
    answer (.setTbMan (q (-1))) (unitState .man (q 1) (q 1)) = some (.failure .invalidBitPeriod) := by decide

theorem test_set_tb_ami :
    unitAfter (.setTbAmi (q 1 2)) (unitState .ami (q 1) (q 1)) .ami = some ({ valid := true, tb := (q 1 2), v := (q 1) }, (q 0)) ∧
    answer (.setTbAmi (q (-1))) (unitState .ami (q 1) (q 1)) = some (.failure .invalidBitPeriod) := by decide

theorem test_set_tb_mlt3 :
    unitAfter (.setTbMlt3 (q 1 2)) (unitState .mlt3 (q 1) (q 1)) .mlt3 = some ({ valid := true, tb := (q 1 2), v := (q 1) }, (q 0)) ∧
    answer (.setTbMlt3 (q (-1))) (unitState .mlt3 (q 1) (q 1)) = some (.failure .invalidBitPeriod) := by decide

theorem test_set_tb_hdb3 :
    unitAfter (.setTbHdb3 (q 1 2)) (unitState .hdb3 (q 1) (q 1)) .hdb3 = some ({ valid := true, tb := (q 1 2), v := (q 1) }, (q 0)) ∧
    answer (.setTbHdb3 (q (-1))) (unitState .hdb3 (q 1) (q 1)) = some (.failure .invalidBitPeriod) := by decide

theorem test_set_amp_nrzl :
    answer (.setAmpNrzl (q (-1))) (unitState .nrzl (q 1) (q 1)) = some (.failure .badAmplitude) ∧
    unitAfter (.setAmpNrzl (q 5 2)) (unitState .nrzl (q 1) (q 1)) .nrzl = some ({ valid := true, tb := (q 1), v := (q 5 2) }, (q 0)) := by decide

theorem test_set_amp_nrzi :
    unitAfter (.setAmpNrzi (q (-1))) (unitState .nrzi (q 1) (q 1)) .nrzi = some ({ valid := true, tb := (q 1), v := (q (-1)) }, (q 0)) ∧
    answer (.setAmpNrzi (q 0)) (unitState .nrzi (q 1) (q 1)) = some (.failure .badAmplitude) := by decide

theorem test_set_amp_rz :
    answer (.setAmpRz (q (-1))) (unitState .rz (q 1) (q 1)) = some (.failure .badAmplitude) ∧
    unitAfter (.setAmpRz (q 5 2)) (unitState .rz (q 1) (q 1)) .rz = some ({ valid := true, tb := (q 1), v := (q 5 2) }, (q 0)) := by decide

theorem test_set_amp_man :
    answer (.setAmpMan (q (-1))) (unitState .man (q 1) (q 1)) = some (.failure .badAmplitude) ∧
    unitAfter (.setAmpMan (q 5 2)) (unitState .man (q 1) (q 1)) .man = some ({ valid := true, tb := (q 1), v := (q 5 2) }, (q 0)) := by decide

theorem test_set_amp_ami :
    unitAfter (.setAmpAmi (q (-1))) (unitState .ami (q 1) (q 1)) .ami = some ({ valid := true, tb := (q 1), v := (q (-1)) }, (q 0)) ∧
    answer (.setAmpAmi (q 0)) (unitState .ami (q 1) (q 1)) = some (.failure .badAmplitude) := by decide

theorem test_set_amp_mlt3 :
    answer (.setAmpMlt3 (q (-1))) (unitState .mlt3 (q 1) (q 1)) = some (.failure .badAmplitude) ∧
    unitAfter (.setAmpMlt3 (q 5 2)) (unitState .mlt3 (q 1) (q 1)) .mlt3 = some ({ valid := true, tb := (q 1), v := (q 5 2) }, (q 0)) := by decide

theorem test_set_amp_hdb3 :
    unitAfter (.setAmpHdb3 (q (-3))) (unitState .hdb3 (q 1) (q 1)) .hdb3 = some ({ valid := true, tb := (q 1), v := (q (-3)) }, (q 0)) ∧
    answer (.setAmpHdb3 (q 0)) (unitState .hdb3 (q 1) (q 1)) = some (.failure .badAmplitude) := by decide

theorem test_set_amp_needs_construction :
    answer (.setAmpAmi (q 1)) .reset = some (.failure .notConstructed) := by decide

theorem test_set_duty_rz :
    answer (.setDutyRz (q 1 2)) .reset = some (.failure .notConstructed) ∧
    unitAfter (.setDutyRz (q 1 4)) (unitState .rz (q 1) (q 1) (q 1 2)) .rz = some ({ valid := true, tb := (q 1), v := (q 1) }, (q 1 4)) ∧
    unitAfter (.setDutyRz (q 1)) (unitState .rz (q 1) (q 1) (q 1 4)) .rz = some ({ valid := true, tb := (q 1), v := (q 1) }, (q 1)) ∧
    answer (.setDutyRz (q 0)) (unitState .rz (q 1) (q 1) (q 1 4)) = some (.failure .wrongDuty) ∧
    answer (.setDutyRz (q 5 4)) (unitState .rz (q 1) (q 1) (q 1 4)) = some (.failure .wrongDuty) := by decide

theorem test_set_duty_elsewhere :
    answer (.setDutyNrzl (q 1 2)) .reset = some (.failure .unsupported) ∧
    answer (.setDutyNrzi (q 1 2)) (unitState .nrzi (q 1) (q 1)) = some (.failure .unsupported) ∧
    answer (.setDutyMan (q 1 2)) (unitState .man (q 1) (q 1)) = some (.failure .unsupported) ∧
    answer (.setDutyAmi (q 1 2)) .reset = some (.failure .unsupported) ∧
    answer (.setDutyMlt3 (q 1 2)) (unitState .mlt3 (q 1) (q 1)) = some (.failure .unsupported) ∧
    answer (.setDutyHdb3 (q 1 2)) .reset = some (.failure .unsupported) := by decide

/-! ### ENCODE (1, 2.4 to 2.7, 3) -/

theorem test_encode_nrzl :
    output (.encodeNrzl [true, false, true, true]) (unitState .nrzl (q 1) (q 1)) = some [seg (q 0) (q 1) (q 1), seg (q 1) (q 2) (q (-1)), seg (q 2) (q 3) (q 1), seg (q 3) (q 4) (q 1)] := by decide

theorem test_encode_nrzl_half :
    output (.encodeNrzl [true, false]) (unitState .nrzl (q 1 2) (q 5 2)) = some [seg (q 0) (q 1 2) (q 5 2), seg (q 1 2) (q 1) (q (-5) 2)] := by decide

theorem test_encode_nrzi :
    output (.encodeNrzi [false, true, true, false]) (unitState .nrzi (q 1) (q (-1))) = some [seg (q 0) (q 1) (q (-1)), seg (q 1) (q 2) (q 1), seg (q 2) (q 3) (q (-1)), seg (q 3) (q 4) (q (-1))] := by decide

theorem test_encode_nrzi_first_one :
    output (.encodeNrzi [true]) (unitState .nrzi (q 2) (q 2)) = some [seg (q 0) (q 2) (q (-2))] := by decide

theorem test_encode_rz :
    output (.encodeRz [true, false]) (unitState .rz (q 2) (q 3) (q 1 4)) = some [seg (q 0) (q 1 2) (q 3), seg (q 1 2) (q 2) (q 0), seg (q 2) (q 5 2) (q (-3)), seg (q 5 2) (q 4) (q 0)] := by decide

theorem test_encode_rz_full_duty :
    output (.encodeRz [true, false]) (unitState .rz (q 2) (q 3) (q 1)) = some [seg (q 0) (q 2) (q 3), seg (q 2) (q 4) (q (-3))] := by decide

theorem test_encode_man :
    output (.encodeMan [false, true]) (unitState .man (q 1) (q 1)) = some [seg (q 0) (q 1 2) (q 1), seg (q 1 2) (q 1) (q (-1)), seg (q 1) (q 3 2) (q (-1)), seg (q 3 2) (q 2) (q 1)] := by decide

theorem test_encode_man_halves_not_merged :
    output (.encodeMan [true, true, false]) (unitState .man (q 2) (q 1 2)) = some [seg (q 0) (q 1) (q (-1) 2), seg (q 1) (q 2) (q 1 2), seg (q 2) (q 3) (q (-1) 2), seg (q 3) (q 4) (q 1 2), seg (q 4) (q 5) (q 1 2), seg (q 5) (q 6) (q (-1) 2)] := by decide

/-- S1 and S2. -/
theorem test_encode_ami_source_example :
    levels (.encodeAmi [true, true, true, true]) (unitState .ami (q 1) (q (-1))) = some [q 1, q (-1), q 1, q (-1)] ∧
    levels (.encodeAmi [false, false, false, false]) (unitState .ami (q 1) (q (-1))) = some [q 0, q 0, q 0, q 0] := by decide

theorem test_encode_ami :
    output (.encodeAmi [true, false, true, false, false, true, true]) (unitState .ami (q 1) (q 1)) = some [seg (q 0) (q 1) (q (-1)), seg (q 1) (q 2) (q 0), seg (q 2) (q 3) (q 1), seg (q 3) (q 4) (q 0), seg (q 4) (q 5) (q 0), seg (q 5) (q 6) (q (-1)), seg (q 6) (q 7) (q 1)] := by decide

/-- S3. -/
theorem test_encode_mlt3_source_example :
    levels (.encodeMlt3 [true, true, true, false, false, false, true, true, true]) (unitState .mlt3 (q 1) (q 1)) = some [q 1, q 0, q (-1), q (-1), q (-1), q (-1), q 0, q 1, q 0] := by decide

theorem test_encode_mlt3 :
    output (.encodeMlt3 [false, true, true, false]) (unitState .mlt3 (q 1 2) (q 1)) = some [seg (q 0) (q 1 2) (q 0), seg (q 1 2) (q 1) (q 1), seg (q 1) (q 3 2) (q 0), seg (q 3 2) (q 2) (q 0)] := by decide

/-- S4 and S5. -/
theorem test_encode_hdb3_source_examples :
    levels (.encodeHdb3 [false, false, false, false]) (unitState .hdb3 (q 1) (q (-1))) = some [q 1, q 0, q 0, q 1] ∧
    levels (.encodeHdb3 [true, false, false, false, false]) (unitState .hdb3 (q 1) (q (-1))) = some [q 1, q 0, q 0, q 0, q 1] := by decide

theorem test_encode_hdb3_mixed :
    levels (.encodeHdb3 [true, true, false, false, false, false, true]) (unitState .hdb3 (q 1) (q 1)) = some [q (-1), q 1, q (-1), q 0, q 0, q (-1), q 1] ∧
    levels (.encodeHdb3 [false, false, false, false, false, false, false, false]) (unitState .hdb3 (q 1) (q 1)) = some [q (-1), q 0, q 0, q (-1), q 1, q 0, q 0, q 1] ∧
    output (.encodeHdb3 [true, false, false, false, false]) (unitState .hdb3 (q 1 2) (q (-3))) = some [seg (q 0) (q 1 2) (q 3), seg (q 1 2) (q 1) (q 0), seg (q 1) (q 3 2) (q 0), seg (q 3 2) (q 2) (q 0), seg (q 2) (q 5 2) (q 3)] := by decide

/-- The registers at the end of pass 1: `1000` keeps a trailing run, `100001000011` ends with two marks. -/
theorem test_hdb3_registers :
    hdb3Pass1 [true, false, false, false] (hdb3Start .pos) = .ok ⟨.neg, 1, 3, [.neg, .sil, .sil, .sil]⟩ ∧
    hdb3Pass1 [true, false, false, false, false, true, false, false, false, false, true, true] (hdb3Start .neg) =
      .ok ⟨.neg, 2, 0, [.pos, .sil, .sil, .sil, .pos, .neg, .sil, .sil, .sil, .neg, .pos, .neg]⟩ := ⟨rfl, rfl⟩

/-! ### A binary instance (2.9) -/

/-- Ten bits of the double next to 0.1: the ends of the fifth, eighth and tenth bit are 0.5, 0.7999999999999999 and
0.9999999999999999, the tenth being not 1. -/
theorem test_running_sum_binary64 :
    ((output (.encodeNrzl [true, true, true, true, true, true, true, true, true, true])
        (unitState .nrzl (q 3602879701896397 36028797018963968) (q 1) .zero .binary64)).map fun out =>
      [out[4]?, out[7]?, out[9]?].map (·.map (·.stop))) =
      some [some (q 1 2), some (q 7205759403792793 9007199254740992), some (q 9007199254740991 9007199254740992)] := by decide

/-- The same in single precision: 0.5, 0.8000000715255737 and 1.0000001192092896. -/
theorem test_running_sum_binary32 :
    ((output (.encodeNrzl [true, true, true, true, true, true, true, true, true, true])
        (unitState .nrzl (q 13421773 134217728) (q 1) .zero .binary32)).map fun out =>
      [out[4]?, out[7]?, out[9]?].map (·.map (·.stop))) =
      some [some (q 1 2), some (q 6710887 8388608), some (q 8388609 8388608)] := by decide

/-- Absorption: at `t = 2^53` a width of 1 does not move the clock, and the candidate is dropped. -/
theorem test_absorption :
    emit .binary64 (q 1) (q 1) { t := q (2 ^ 53), out := [] } = { t := q (2 ^ 53), out := [] } := by decide

/-! ### Steps -/

/-- Program 1: `ENCODE.AMI` before and after the construction, as whole transactions. -/
theorem test_program_one :
    (State.reset.withFetchWord 8 0x54).inbox = [.command ⟨0x54#8, [.len 0]⟩] ∧
    ({ State.reset with inbox := [.command (encode (.encodeAmi [true])), .command (encode (.constructAmi (q 1) (q (-1)))),
        .command (encode (.encodeAmi [true]))] } : State).observe 3 =
      [.failure .notConstructed, .done, .answer (.segments [seg (q 0) (q 1) (q 1)])] := by decide

/-- A reserved word (2.8). -/
theorem test_reserved_word_steps :
    responseAt 1 (State.reset.withFetchWord 8 0xFF) = some (.failure .illegalCommand) := by decide

/-- The inside of `ENCODE.HDB3 0000`: no response in the six steps before the seventh, which gives S4's answer. -/
theorem test_serial_encode :
    ({ unitState .hdb3 (q 1) (q (-1)) with
        inbox := [.start (encode (.encodeHdb3 [false, false, false, false]))] } : State).observe 7 =
      [.answer (.segments [seg (q 0) (q 1) (q 1), seg (q 1) (q 2) (q 0), seg (q 2) (q 3) (q 0), seg (q 3) (q 4) (q 1)])] := by
  decide

/-- A command presented while another is in progress, and a reset that falls into a command. -/
theorem test_overlap_and_reset :
    faultOf { State.reset with busy := some (.presented ⟨0x00#8, [.num (q 1)]⟩), inbox := [.command ⟨0x60#8, []⟩] } =
        some .overlappingCommands ∧
      ({ unitState .ami (q 1) (q 1) with inbox := [.start (encode (.encodeAmi [true, true])), .wait, .wait, .reset,
        .command (encode (.encodeAmi [true]))] } : State).observe 5 = [.failure .notConstructed] := by decide

/-- A command that is no `ENCODE`, a reserved word and an `ENCODE` on a unit that is not valid, presented by `start`: two
steps each, and the answer of the whole command (R38, R56, D12). -/
theorem test_start_of_other_commands :
    ({ State.reset with inbox := [.start (encode (.chkDuty (q 2))), .wait, .start ⟨0x60#8, []⟩, .wait,
        .start (encode (.encodeNrzl [true]))] } : State).observe 6 =
      [.failure .wrongDuty, .failure .illegalCommand, .failure .notConstructed] := by decide

/-- What `step` refuses. -/
theorem test_refusals :
    refusalOf { State.reset with inbox := [.command (encode (.chkTb .nan))] } = some .operandOutsideNum ∧
    refusalOf { State.reset with inbox := [.command ⟨0x00#8, []⟩] } = some .badOperands ∧
    refusalOf { State.resetWith { num := .rational, nMax := some 1 } with
      inbox := [.command (encode (.encodeMan [true, true]))] } = some .lengthOverNMax := by decide

/-! ### Witnesses: the hypotheses of the statements can be met

`allUnits` is the end state of program 5 of `spec/95_test_vectors.md`: all seven units constructed with `tb = 1`, `v = 1`, RZ
with `duty = 1/2`. -/

def unitOne : CoderUnit := { valid := true, tb := .rat 1, v := .rat 1 }

/-- In the instance `num`, with the bound `nMax`. -/
def allUnits (num : NumFormat := .rational) (nMax : Option Nat := none) : State :=
  { State.resetWith { num, nMax } with
    nrzl := unitOne, nrzi := unitOne, rz := unitOne, man := unitOne, ami := unitOne, mlt3 := unitOne, hdb3 := unitOne,
    rzDuty := .rat (1 / 2) }

theorem positive_one : Positive (.rat 1) := ⟨1, rfl, by norm_num⟩

theorem legal_one (sc : Scheme) : LegalAmplitude sc (.rat 1) := by cases sc <;> exact ⟨1, rfl, by norm_num⟩

theorem duty_half : DutyFraction (.rat (1 / 2)) := ⟨1 / 2, rfl, by norm_num, by norm_num⟩

theorem allUnits_unit (num : NumFormat) (n : Option Nat) (sc : Scheme) : (allUnits num n).unit sc = unitOne := by
  cases sc <;> rfl

theorem allUnits_legal (num : NumFormat) (n : Option Nat) : (allUnits num n).RegistersLegal :=
  ⟨fun sc _ => by rw [allUnits_unit]; exact ⟨positive_one, legal_one sc⟩, fun _ => duty_half⟩

theorem allUnits_inNum : (allUnits).RegistersInNum := ⟨fun sc => by rw [allUnits_unit]; exact ⟨rfl, rfl⟩, rfl⟩

theorem allUnits_inv : (allUnits).Inv :=
  ⟨allUnits_legal _ _, allUnits_inNum, fun tr h => by simp [allUnits, State.resetWith] at h⟩

/-- With an `ENCODE.HDB3 0001` in progress, three of its bits taken: everything the invariant says of a transient state. -/
def midEncode : State :=
  { allUnits with busy := some (.encoding
      { bits := [false, false, false, true], i := 3, wave := .start, engine := .hdb3 ⟨.pos, 0, 3, [.sil, .sil, .sil]⟩ }) }

theorem midEncode_inv : midEncode.Inv := by
  refine ⟨allUnits_legal .rational none, allUnits_inNum, fun tr h => ?_⟩
  obtain rfl : _ = tr := Busy.encoding.inj (Option.some.inj h)
  exact ⟨by decide, Wave.start_sound.1, Wave.start_sound.2, ⟨rfl, by decide, by decide, by decide, by decide⟩, rfl⟩

/-! Decoding and steps. -/

theorem witness_EncodeOfDecode :
    ∃ (f : Frame) (i : Instr), decode f = .instr i :=
  ⟨⟨0x55#8, [.len 2, .bit true, .bit false]⟩, .encodeMlt3 [true, false], by decide⟩

/-- Presented whole: one command with a number and one with a sequence. Presented by `start`; and put in progress so: a command
that is no `ENCODE` with the host waiting by an event, an `ENCODE` on a unit that is not valid with nothing more to do, and one
on a valid unit that is longer than `N_MAX`. -/
theorem witness_StepRunsDecodedCommand :
    (∃ (s : State) (f : Frame) (rest : List HostEvent) (i : Instr), s.inbox = .command f :: rest ∧ s.busy = none ∧
      decode f = .instr i ∧ i.nums ≠ [] ∧ ∀ x ∈ i.nums, x.inFormat s.config.num = true) ∧
    (∃ (s : State) (f : Frame) (rest : List HostEvent) (i : Instr), s.inbox = .command f :: rest ∧ s.busy = none ∧
      decode f = .instr i ∧ 0 < i.seqLength ∧ ∀ x ∈ i.nums, x.inFormat s.config.num = true) ∧
    (∃ (s : State) (f : Frame) (rest : List HostEvent), s.inbox = .start f :: rest ∧ s.busy = none) ∧
    (∃ (s : State) (f : Frame) (i : Instr) (rest : List HostEvent), s.inbox = .wait :: rest ∧
      s.busy = some (.presented f) ∧ decode f = .instr i ∧ i.nums ≠ [] ∧
      (∀ x ∈ i.nums, x.inFormat s.config.num = true) ∧ ∀ sc bits, i ≠ .encodeBits sc bits) ∧
    (∃ (s : State) (f : Frame) (sc : Scheme) (bits : List Bool), s.inbox = [] ∧ s.busy = some (.presented f) ∧
      decode f = .instr (.encodeBits sc bits) ∧ (s.unit sc).valid = false) ∧
    ∃ (s : State) (f : Frame) (sc : Scheme) (bits : List Bool), s.inbox = [] ∧ s.busy = some (.presented f) ∧
      decode f = .instr (.encodeBits sc bits) ∧ (s.unit sc).valid = true ∧ s.config.admitsLength bits.length = false :=
  ⟨⟨{ State.reset with inbox := [.command ⟨0x26#8, [.num (q 1)]⟩] }, _, _, .setTbHdb3 (q 1), rfl, rfl, by decide, by decide,
      by decide⟩,
    ⟨{ State.reset with inbox := [.command ⟨0x50#8, [.len 1, .bit true]⟩, .reset] }, _, _, .encodeNrzl [true], rfl, rfl,
      by decide, by decide, by decide⟩,
    ⟨{ State.reset with inbox := [.start ⟨0x00#8, [.num (q 1)]⟩] }, _, _, rfl, rfl⟩,
    ⟨{ State.reset with busy := some (.presented ⟨0x26#8, [.num (q 1)]⟩), inbox := [.wait, .reset] }, _, .setTbHdb3 (q 1), _,
      rfl, rfl, by decide, by decide, by decide, fun sc bits h => by cases sc <;> cases h⟩,
    ⟨{ State.reset with busy := some (.presented ⟨0x50#8, [.len 1, .bit true]⟩) }, _, .nrzl, [true], rfl, rfl, by decide, rfl⟩,
    ⟨{ allUnits .rational (some 0) with busy := some (.presented ⟨0x50#8, [.len 1, .bit true]⟩) }, _, .nrzl, [true], rfl, rfl,
      by decide, rfl, rfl⟩⟩

/-- Presented whole, and by `start` with the host waiting in either way. -/
theorem witness_ReservedWordAnswersIllegalCommand :
    (∃ (s : State) (f : Frame) (rest : List HostEvent), s.inbox = .command f :: rest ∧ s.busy = none ∧
      decode f = .reserved f.word) ∧
    (∃ (s : State) (f : Frame), s.inbox = [] ∧ s.busy = some (.presented f) ∧ decode f = .reserved f.word) ∧
    ∃ (s : State) (f : Frame) (rest : List HostEvent), s.inbox = .wait :: rest ∧ s.busy = some (.presented f) ∧
      decode f = .reserved f.word :=
  ⟨⟨{ State.reset with inbox := [.command ⟨0x60#8, [.num (q 1)]⟩] }, _, _, rfl, rfl, by decide⟩,
    ⟨{ State.reset with busy := some (.presented ⟨0x17#8, []⟩) }, _, rfl, rfl, by decide⟩,
    ⟨{ State.reset with busy := some (.presented ⟨0x08#8, []⟩), inbox := [.wait] }, _, _, rfl, rfl, by decide⟩⟩

/-- Both ways of presenting a command, over a command just presented and over an `ENCODE` under way. -/
theorem witness_OverlappingCommandsStop :
    (∃ (s : State) (f : Frame) (rest : List HostEvent) (b : Busy), s.busy = some b ∧ s.inbox = .command f :: rest) ∧
    (∃ (s : State) (f : Frame) (rest : List HostEvent) (b : Busy), s.busy = some b ∧ s.inbox = .start f :: rest) :=
  ⟨⟨{ midEncode with inbox := [.command ⟨0x00#8, [.num (q 1)]⟩] }, _, _, _, rfl, rfl⟩,
    ⟨{ State.reset with busy := some (.presented ⟨0x60#8, []⟩), inbox := [.start ⟨0x60#8, []⟩] }, _, _, _, rfl, rfl⟩⟩

/-- Between two commands and inside one. -/
theorem witness_ResetEventForgetsTheRun :
    (∃ (s : State) (rest : List HostEvent), s.inbox = .reset :: rest ∧ s.busy = none) ∧
    ∃ (s : State) (rest : List HostEvent), s.inbox = .reset :: rest ∧ s.busy ≠ none ∧ (s.unit .hdb3).valid = true :=
  ⟨⟨{ State.reset with inbox := [.reset, .wait] }, _, rfl, rfl⟩,
    ⟨{ midEncode with inbox := [.reset] }, _, rfl, by decide, rfl⟩⟩

/-- The least and the greatest `k`, for two schemes. -/
theorem witness_InterruptedEncodeIsNotAnswered :
    ∀ k : Nat, k = 0 ∨ k = 3 → ∀ sc : Scheme, ∃ (s : State) (bits : List Bool),
      s.busy = none ∧ s.RegistersLegal ∧ (s.unit sc).valid = true ∧ s.config.admitsLength bits.length = true ∧
      k ≤ bits.length + 1 ∧
      s.inbox = .start (encode (.encodeBits sc bits)) :: (List.replicate k .wait ++ [.reset]) := by
  intro k hk sc
  refine ⟨{ allUnits with
    inbox := .start (encode (.encodeBits sc [true, false])) :: (List.replicate k .wait ++ [.reset]) },
    [true, false], rfl, allUnits_legal .rational none, ?_, rfl, ?_, rfl⟩
  · cases sc <;> rfl
  · rcases hk with rfl | rfl <;> decide

/-- For every scheme: no event after the presentation, and `n + 2` waits with another event behind them. -/
theorem witness_SerialEncodeRefinesTheCommand :
    ∀ sc : Scheme, ∀ k : Nat, ∀ rest : List HostEvent, k = 0 ∧ rest = [] ∨ k = 4 ∧ rest = [.reset] →
      ∃ (s : State) (bits : List Bool),
        s.busy = none ∧ s.RegistersLegal ∧ (s.unit sc).valid = true ∧ s.config.admitsLength bits.length = true ∧
        k ≤ bits.length + 2 ∧ (rest = [] ∨ k = bits.length + 2) ∧
        s.inbox = .start (encode (.encodeBits sc bits)) :: (List.replicate k .wait ++ rest) := by
  intro sc k rest h
  refine ⟨{ allUnits with inbox := .start (encode (.encodeBits sc [false, true])) :: (List.replicate k .wait ++ rest) },
    [false, true], rfl, allUnits_legal .rational none, ?_, rfl, ?_, ?_, rfl⟩
  · cases sc <;> rfl
  · rcases h with ⟨rfl, -⟩ | ⟨rfl, -⟩ <;> decide
  · exact h.imp And.right And.left

theorem witness_IdleBlockStaysAsItIs :
    (∃ s : State, s.busy = none ∧ s.inbox = []) ∧
    ∃ (s : State) (rest : List HostEvent), s.busy = none ∧ s.inbox = .wait :: rest :=
  ⟨⟨State.reset, rfl, rfl⟩, ⟨{ State.reset with inbox := [.wait, .reset] }, _, rfl, rfl⟩⟩

/-! Checks and registers: admitted and rejected values at the boundaries, every clause. -/

theorem not_positive_zero : ¬ Positive (.rat 0) := by
  rintro ⟨r, h, hr⟩
  cases h
  exact lt_irrefl _ hr

theorem not_nonZero_zero : ¬ NonZero (.rat 0) := by
  rintro ⟨r, h, hr⟩
  cases h
  exact hr rfl

theorem not_legal_zero (sc : Scheme) : ¬ LegalAmplitude sc (.rat 0) := by
  cases sc <;> first | exact not_positive_zero | exact not_nonZero_zero

theorem not_duty_zero : ¬ DutyFraction (.rat 0) := by
  rintro ⟨r, h, hr, -⟩
  cases h
  exact lt_irrefl _ hr

theorem duty_one : DutyFraction (.rat 1) := ⟨1, rfl, by norm_num, le_rfl⟩

theorem witness_CheckBitPeriod : (∃ x, Positive x) ∧ (∃ x, ¬ Positive x) ∧ ¬ Positive (.inf false) :=
  ⟨⟨_, positive_one⟩, ⟨_, not_positive_zero⟩, by rintro ⟨r, h, -⟩; cases h⟩

theorem witness_CheckAmplitudeClosed : (∃ x, Positive x) ∧ (∃ x, ¬ Positive x) := ⟨⟨_, positive_one⟩, ⟨_, not_positive_zero⟩⟩

theorem witness_CheckAmplitudeOpen : NonZero (.rat (-1)) ∧ ¬ NonZero (.rat 0) ∧ ¬ NonZero .negZero :=
  ⟨⟨-1, rfl, by norm_num⟩, not_nonZero_zero, by rintro ⟨r, h, -⟩; cases h⟩

theorem witness_CheckDuty : DutyFraction (.rat 1) ∧ ¬ DutyFraction (.rat 0) ∧ ¬ DutyFraction (.rat (3 / 2)) := by
  refine ⟨duty_one, not_duty_zero, ?_⟩
  rintro ⟨r, h, -, hr⟩
  cases h
  norm_num at hr

/-- For every scheme, RZ with the greatest duty; NRZ-I, AMI and HDB3 with a negative amplitude too. -/
theorem witness_ConstructWritesTheUnit :
    (∀ sc : Scheme, ∃ tb v duty : Number, Positive tb ∧ LegalAmplitude sc v ∧ (sc = .rz → DutyFraction duty)) ∧
    ∀ sc : Scheme, sc = .nrzi ∨ sc = .ami ∨ sc = .hdb3 → LegalAmplitude sc (.rat (-1)) :=
  ⟨fun sc => ⟨_, _, .rat 1, positive_one, legal_one sc, fun _ => duty_one⟩, by
    rintro sc (rfl | rfl | rfl) <;> exact ⟨-1, rfl, by norm_num⟩⟩

theorem witness_ConstructReportsTheFirstFailure :
    ∀ sc : Scheme, (∃ tb, ¬ Positive tb) ∧ (∃ tb v, Positive tb ∧ ¬ LegalAmplitude sc v) ∧
      ∃ tb v duty, Positive tb ∧ LegalAmplitude .rz v ∧ ¬ DutyFraction duty :=
  fun sc => ⟨⟨_, not_positive_zero⟩, ⟨_, _, positive_one, not_legal_zero sc⟩,
    ⟨_, _, _, positive_one, legal_one .rz, not_duty_zero⟩⟩

theorem witness_SetBitPeriod :
    ∀ sc : Scheme, (∃ (x : Number) (s : State), (s.unit sc).valid = true ∧ Positive x) ∧
      (∃ (x : Number) (s : State), (s.unit sc).valid = true ∧ ¬ Positive x) ∧
      ∃ s : State, (s.unit sc).valid = false :=
  fun sc => ⟨⟨_, allUnits, by rw [allUnits_unit]; rfl, positive_one⟩,
    ⟨_, allUnits, by rw [allUnits_unit]; rfl, not_positive_zero⟩, ⟨State.reset, by cases sc <;> rfl⟩⟩

theorem witness_SetAmplitude :
    ∀ sc : Scheme, (∃ (x : Number) (s : State), (s.unit sc).valid = true ∧ LegalAmplitude sc x) ∧
      (∃ (x : Number) (s : State), (s.unit sc).valid = true ∧ ¬ LegalAmplitude sc x) ∧
      ∃ s : State, (s.unit sc).valid = false :=
  fun sc => ⟨⟨_, allUnits, by rw [allUnits_unit]; rfl, legal_one sc⟩,
    ⟨_, allUnits, by rw [allUnits_unit]; rfl, not_legal_zero sc⟩, ⟨State.reset, by cases sc <;> rfl⟩⟩

theorem witness_SetDutyOfRz :
    (∃ (x : Number) (s : State), s.rz.valid = true ∧ DutyFraction x) ∧
    (∃ (x : Number) (s : State), s.rz.valid = true ∧ ¬ DutyFraction x) ∧ ∃ s : State, s.rz.valid = false :=
  ⟨⟨_, allUnits, rfl, duty_one⟩, ⟨_, allUnits, rfl, not_duty_zero⟩, ⟨State.reset, rfl⟩⟩

theorem witness_SetDutyElsewhereIsUnsupported : ∃ sc : Scheme, sc ≠ .rz := ⟨.man, by decide⟩

theorem witness_FailedCommandHasNoEffect :
    ∃ (i : Instr) (s t : State) (r : Response), exec i s = .next t ∧ t.response = some r ∧ r.status ≠ .ok :=
  ⟨.setAmpNrzl (.rat 0), allUnits, { allUnits with response := some (.failure .badAmplitude) }, _, rfl, rfl, by decide⟩

/-- A command that writes a unit, with a scheme that it does not name, and one that writes nothing. -/
theorem witness_CommandWritesOnlyItsUnit :
    (∃ (i : Instr) (s t : State), exec i s = .next t ∧ writesUnit i = some .ami ∧ t ≠ s ∧ writesDuty i = false) ∧
    ∃ (i : Instr) (s t : State), exec i s = .next t ∧ writesUnit i = none :=
  ⟨⟨.setTbAmi (.rat 2), allUnits,
      { allUnits with ami := { valid := true, tb := .rat 2, v := .rat 1 }, response := some .done },
      rfl, rfl, by decide, rfl⟩,
    ⟨.encodeMan [], allUnits, { allUnits with response := some (.answer (.segments [])) }, rfl, rfl⟩⟩

theorem witness_OnlyResetClearsValid :
    ∃ (s t : State) (sc : Scheme), step s = .next t ∧ (s.unit sc).valid = true ∧ (t.unit sc).valid = false :=
  ⟨{ allUnits with inbox := [.reset] }, State.reset, .mlt3, rfl, rfl, rfl⟩

theorem witness_StepKeepsRegistersLegal : ∃ s t : State, s.RegistersLegal ∧ (s.unit .rz).valid = true ∧ step s = .next t :=
  ⟨allUnits, allUnits, allUnits_legal _ _, rfl, rfl⟩

theorem witness_StepKeepsRegistersInNum : ∃ s t : State, s.RegistersInNum ∧ step s = .next t :=
  ⟨allUnits, allUnits, allUnits_inNum, rfl⟩

/-- With an `ENCODE` in progress before and after the step. -/
theorem witness_StepKeepsTheInvariant :
    ∃ s t : State, s.Inv ∧ step s = .next t ∧ s.busy ≠ none ∧ t.busy ≠ none :=
  ⟨midEncode, { midEncode with busy := some (.encoding
    { bits := [false, false, false, true], i := 4, wave := .start,
      engine := .hdb3 ⟨.neg, 1, 0, [.sil, .sil, .sil, .neg]⟩ }) }, midEncode_inv, rfl, by decide, by decide⟩

theorem witness_NoDefectUnderTheInvariant : ∃ s : State, s.Inv ∧ s.busy ≠ none := ⟨midEncode, midEncode_inv, by decide⟩

/-! `ENCODE`, for every scheme; a bound that the sequence just meets. -/

theorem witness_EncodeNeverFails :
    ∀ sc : Scheme, ∃ (bits : List Bool) (s : State),
      s.RegistersLegal ∧ (s.unit sc).valid = true ∧ s.config.admitsLength bits.length = true ∧ s.config.nMax = some 2 :=
  fun sc => ⟨[true, false], allUnits .binary32 (some 2), allUnits_legal _ _, by rw [allUnits_unit]; rfl, rfl, rfl⟩

theorem witness_EncodeNeedsConstruction :
    ∀ sc : Scheme, ∃ (bits : List Bool) (s : State), (s.unit sc).valid = false ∧ s.config.admitsLength bits.length = true :=
  fun sc => ⟨[true], State.reset, by cases sc <;> rfl, rfl⟩

theorem witness_OverlongSequencesAreRefused :
    (∃ (bits : List Bool) (s : State) (m : Nat), s.config.nMax = some m ∧ m < bits.length) ∧
    (∃ (chars : List CharCode) (s : State) (m : Nat), s.config.nMax = some m ∧ m < chars.length) ∧
    ∃ s : State, s.config.nMax = none :=
  ⟨⟨[true, true, true], allUnits .rational (some 2), 2, rfl, by decide⟩,
    ⟨[0x30#8], allUnits .rational (some 0), 0, rfl, by decide⟩, ⟨allUnits, rfl⟩⟩

theorem witness_EmptyInputGivesEmptyOutput :
    ∀ sc : Scheme, ∃ s : State, s.RegistersLegal ∧ (s.unit sc).valid = true :=
  fun sc => ⟨allUnits, allUnits_legal _ _, by rw [allUnits_unit]; rfl⟩

/-- An output of two segments. -/
theorem answers_rz : Answers (.encodeBits .rz [true]) allUnits
    [{ start := .zero, stop := .rat (1 / 2), level := .rat 1 }, { start := .rat (1 / 2), stop := .rat 1, level := .zero }] := by
  rw [answers_iff]
  refine ⟨rfl, rfl, ?_⟩
  simp [encodeAlgorithm, rzRun, rzBit, rzHigh, rzLow, allUnits, State.resetWith, State.unit, unitOne, Wave.start, Number.zero,
    Number.one, emit_rational]
  norm_num [emit_rational]

theorem witness_OutputIsContiguous :
    ∃ (sc : Scheme) (bits : List Bool) (s : State) (out : List Segment),
      Answers (.encodeBits sc bits) s out ∧ 2 ≤ out.length := ⟨_, _, _, _, answers_rz, by decide⟩

theorem witness_OutputDependsOnlyOnTheUnit :
    ∃ (sc : Scheme) (bits : List Bool) (s s' : State) (out : List Segment),
      s.config = s'.config ∧ s.unit sc = s'.unit sc ∧ (sc = .rz → s.rzDuty = s'.rzDuty) ∧
      Answers (.encodeBits sc bits) s out ∧ s ≠ s' :=
  ⟨.rz, _, allUnits, { allUnits with ami := .reset, response := some .done }, _, rfl, rfl, fun _ => rfl, answers_rz,
    by decide⟩

theorem witness_LevelsComeFromTheAmplitude :
    ∃ (sc : Scheme) (bits : List Bool) (s : State) (out : List Segment),
      s.RegistersLegal ∧ Answers (.encodeBits sc bits) s out ∧ out ≠ [] :=
  ⟨_, _, _, _, allUnits_legal _ _, answers_rz, by decide⟩

/-- A candidate that is kept in a binary instance, widths that are dropped, and the absorption of `spec/95_test_vectors.md`
2.9. -/
theorem witness_EmitKeepsOrDropsTheCandidate :
    (∃ (f : NumFormat) (t w : Number), f ≠ .rational ∧ w.gt .zero = true ∧ (t.add f w).gt t = true) ∧
    (∀ w : Number, w = .rat 0 ∨ w = .rat (-1) ∨ w = .negZero ∨ w = .inf true ∨ w = .nan →
      (∀ r : Rat, 0 < r → w ≠ .rat r) ∧ w ≠ .inf false) ∧
    ∃ (f : NumFormat) (t w : Number), t.add f w = t ∧ w.gt .zero = true :=
  ⟨⟨.binary32, q 1, q 1, by decide, by decide, by decide⟩, by
    rintro w (rfl | rfl | rfl | rfl | rfl) <;> refine ⟨fun r hr h => ?_, by simp⟩ <;> cases h <;> norm_num at hr,
    ⟨.binary64, q (2 ^ 53), q 1, by decide, by decide⟩⟩

/-- Below the bound with a tie, where two finite values are equally near; at the bound, of either sign; the helper's tie. -/
theorem witness_RoundingIsToNearestEven :
    (∃ x r r' : Rat, |x| < overflowBound 24 127 ∧ FiniteValue 24 127 r ∧ FiniteValue 24 127 r' ∧ r' ≠ r ∧
      |x - r'| = |x - r|) ∧
    (overflowBound 53 1023 ≤ |overflowBound 53 1023| ∧ overflowBound 53 1023 ≤ |-overflowBound 53 1023|) ∧
    ∃ n d : Nat, 0 < d ∧ 2 * |(roundHalfEven n d : Rat) - (n : Rat) / d| = 1 :=
  ⟨⟨2 ^ 24 + 1, 2 ^ 24, 2 ^ 24 + 2, by norm_num [overflowBound, abs_of_pos],
      ⟨2 ^ 23, 1, by norm_num [abs_of_pos], by norm_num, by norm_num, by norm_num⟩,
      ⟨2 ^ 23 + 1, 1, by norm_num [abs_of_pos], by norm_num, by norm_num, by norm_num⟩, by norm_num, by norm_num [abs_of_pos, abs_of_neg]⟩,
    ⟨le_abs_self _, by rw [abs_neg]; exact le_abs_self _⟩,
    1, 2, by decide, by
    have : roundHalfEven 1 2 = 0 := by decide
    rw [this]; norm_num [abs_of_neg]⟩

theorem witness_ArithmeticStaysInNum :
    ∀ f : NumFormat, ∃ a b : Number, a.inFormat f = true ∧ b.inFormat f = true ∧ a ≠ .zero ∧ b ≠ .zero :=
  fun f => ⟨q 1, q 3, by cases f <;> decide, by cases f <;> decide, by decide, by decide⟩

/-! The encoders: bits of both kinds, on `allUnits`, whose units have `tb = 1` and `v = 1`. -/

theorem allUnits_config : (allUnits).config.num = .rational ∧ (allUnits).config.admitsLength 5 = true := ⟨rfl, rfl⟩

theorem witness_NrzlOutput :
    ∃ (tb v : Rat) (bits : List Bool) (s : State), s.config.num = .rational ∧ s.config.admitsLength bits.length = true ∧
      0 < tb ∧ s.nrzl = { valid := true, tb := .rat tb, v := .rat v } ∧ true ∈ bits ∧ false ∈ bits :=
  ⟨1, 1, [true, false], allUnits, rfl, rfl, by norm_num, rfl, by decide, by decide⟩

theorem witness_NrziOutput :
    ∃ (tb v : Rat) (bits : List Bool) (s : State), s.config.num = .rational ∧ s.config.admitsLength bits.length = true ∧
      0 < tb ∧ s.nrzi = { valid := true, tb := .rat tb, v := .rat v } ∧ true ∈ bits ∧ false ∈ bits :=
  ⟨1, 1, [true, false], allUnits, rfl, rfl, by norm_num, rfl, by decide, by decide⟩

theorem witness_RzOutput :
    ∃ (tb v duty : Rat) (bits : List Bool) (s : State), s.config.num = .rational ∧
      s.config.admitsLength bits.length = true ∧ 0 < tb ∧ 0 < duty ∧ duty < 1 ∧
      s.rz = { valid := true, tb := .rat tb, v := .rat v } ∧ s.rzDuty = .rat duty ∧ true ∈ bits ∧ false ∈ bits :=
  ⟨1, 1, 1 / 2, [true, false], allUnits, rfl, rfl, by norm_num, by norm_num, by norm_num, rfl, rfl, by decide, by decide⟩

theorem witness_RzAtFullDutyIsNrzl :
    ∃ (tb v : Rat) (s : State), s.config.num = .rational ∧ 0 < tb ∧
      s.rz = { valid := true, tb := .rat tb, v := .rat v } ∧ s.rzDuty = .rat 1 ∧ s.nrzl = s.rz :=
  ⟨1, 1, { allUnits with rzDuty := .rat 1 }, rfl, by norm_num, rfl, rfl, rfl⟩

theorem witness_ManchesterOutput :
    ∃ (tb v : Rat) (bits : List Bool) (s : State), s.config.num = .rational ∧ s.config.admitsLength bits.length = true ∧
      0 < tb ∧ s.man = { valid := true, tb := .rat tb, v := .rat v } ∧ true ∈ bits ∧ false ∈ bits :=
  ⟨1, 1, [true, false], allUnits, rfl, rfl, by norm_num, rfl, by decide, by decide⟩

theorem witness_AmiOutput :
    ∃ (tb v : Rat) (bits : List Bool) (s : State), s.config.num = .rational ∧ s.config.admitsLength bits.length = true ∧
      0 < tb ∧ s.ami = { valid := true, tb := .rat tb, v := .rat v } ∧ true ∈ bits ∧ false ∈ bits :=
  ⟨1, 1, [true, false, true], allUnits, rfl, rfl, by norm_num, rfl, by decide, by decide⟩

/-- Five bits, so that the cycle comes round. -/
theorem witness_MltThreeOutput :
    ∃ (tb v : Rat) (bits : List Bool) (s : State), s.config.num = .rational ∧ s.config.admitsLength bits.length = true ∧
      0 < tb ∧ s.mlt3 = { valid := true, tb := .rat tb, v := .rat v } ∧ bits.count true = 5 :=
  ⟨1, 1, [true, true, true, true, true], allUnits, rfl, rfl, by norm_num, rfl, by decide⟩

theorem witness_HdbThreeOutput :
    ∃ (tb v : Rat) (bits : List Bool) (s : State), s.config.num = .rational ∧ s.config.admitsLength bits.length = true ∧
      0 < tb ∧ v ≠ 0 ∧ s.hdb3 = { valid := true, tb := .rat tb, v := .rat v } ∧ bits = [false, false, false, false] :=
  ⟨1, 1, _, allUnits, rfl, rfl, by norm_num, by norm_num, rfl, rfl⟩

/-- The outputs of `NRZ-I 011`, `MLT-3 011` and `MAN 01` in `Q`, complete. -/
theorem witness_NrziTogglesOnOnes :
    ∃ (bits : List Bool) (s : State) (out : List Segment), s.RegistersLegal ∧ Answers (.encodeNrzi bits) s out ∧
      out.length = bits.length ∧ 2 ≤ bits.length := by
  refine ⟨[false, true, true], allUnits, nrziRun .rational unitOne [false, true, true], allUnits_legal _ _,
    (answers_iff .nrzi _ _ _).mpr ⟨rfl, rfl, rfl⟩, ?_, by decide⟩
  simp [nrziRun, nrziBit, nrziAcc, unitOne, Wave.start, Number.zero, emit_rational]

theorem witness_MltThreeTransitions :
    ∃ (bits : List Bool) (s : State) (out : List Segment), s.RegistersLegal ∧ Answers (.encodeMlt3 bits) s out ∧
      out.length = bits.length ∧ 2 ≤ bits.length := by
  refine ⟨[false, true, true], allUnits, mlt3Run .rational unitOne [false, true, true], allUnits_legal _ _,
    (answers_iff .mlt3 _ _ _).mpr ⟨rfl, rfl, rfl⟩, ?_, by decide⟩
  simp [mlt3Run, mlt3Bit, unitOne, Wave.start, Number.zero, emit_rational]

theorem witness_ManchesterHalvesAreInverse :
    ∃ (bits : List Bool) (s : State) (out : List Segment), s.RegistersLegal ∧ Answers (.encodeMan bits) s out ∧
      out.length = 2 * bits.length ∧ true ∈ bits ∧ false ∈ bits := by
  refine ⟨[false, true], unitState .man (q 1) (q 1), manRun .rational { valid := true, tb := q 1, v := q 1 } [false, true],
    ?_, (answers_iff .man _ _ _).mpr ⟨rfl, rfl, rfl⟩, by decide, by decide, by decide⟩
  refine ⟨fun sc h => ?_, fun h => by cases h⟩
  cases sc <;> first
    | exact ⟨⟨mkRat 1 1, rfl, by norm_num [Rat.mkRat_eq_div]⟩, mkRat 1 1, rfl, by norm_num [Rat.mkRat_eq_div]⟩
    | cases h

/-- Every scheme answers an output on `allUnits`, with two segments for RZ; and in `binary32`, with the greatest finite bit
period, the third candidate of NRZ-L is cut off. -/
theorem witness_RoundingCutsOnlyTheEnd :
    (allUnits).RegistersLegal ∧ (∀ sc, ∃ out, Answers (.encodeBits sc [true, false]) allUnits out) ∧
    (∃ (bits : List Bool) (s : State) (out : List Segment),
      s.RegistersLegal ∧ Answers (.encodeRz bits) s out ∧ out.length = 2) ∧
    ∃ (bits : List Bool) (s : State) (out : List Segment),
      Answers (.encodeNrzl bits) s out ∧ out.length = 2 ∧ bits.length = 3 :=
  ⟨allUnits_legal _ _,
    fun sc => by cases sc <;> exact ⟨_, (answers_iff _ _ _ _).mpr ⟨rfl, rfl, rfl⟩⟩,
    ⟨_, _, _, allUnits_legal _ _, answers_rz, rfl⟩,
    ⟨[true, false, true],
      { allUnits .binary32 with nrzl := { valid := true, tb := q ((2 ^ 24 - 1) * 2 ^ 104), v := q 1 } },
      nrzlRun .binary32 { valid := true, tb := q ((2 ^ 24 - 1) * 2 ^ 104), v := q 1 } [true, false, true],
      (answers_iff .nrzl _ _ _).mpr ⟨rfl, rfl, rfl⟩, by decide, rfl⟩⟩

/-! HDB3. -/

/-- Both parities, and a zero short of four. -/
theorem witness_HdbThreeSteps : (∃ zeros : Nat, zeros < 3) ∧ (∃ marks : Nat, Odd marks) ∧ ∃ marks : Nat, Even marks :=
  ⟨⟨2, by decide⟩, ⟨1, by decide⟩, ⟨0, by decide⟩⟩

/-- The symbol that the fourth zero still changes is out of the statement's reach, the one before it is not. -/
theorem witness_HdbThreeLookbackIsThree :
    ∃ (bits more : List Bool) (p : Polarity) (h h' : Hdb3Regs) (k : Nat),
      hdb3Pass1 bits (hdb3Start p) = .ok h ∧ hdb3Pass1 (bits ++ more) (hdb3Start p) = .ok h' ∧ k + 3 < bits.length :=
  ⟨[true, false, false, false], [false], .pos, ⟨.neg, 1, 3, [.neg, .sil, .sil, .sil]⟩,
    ⟨.neg, 0, 0, [.neg, .sil, .sil, .sil, .neg]⟩, 0, rfl, rfl, by decide⟩

theorem witness_HdbThreeBreaksZeroRuns :
    ∃ (bits : List Bool) (p : Polarity) (h : Hdb3Regs), hdb3Pass1 bits (hdb3Start p) = .ok h ∧ 4 ≤ bits.length :=
  ⟨[false, false, false, false], .neg, ⟨.pos, 0, 0, [.pos, .sil, .sil, .pos]⟩, rfl, by decide⟩

/-- The violations of the bits `00000000` (2.7). -/
theorem witness_HdbThreeViolationsAlternate :
    ∃ (bits : List Bool) (p : Polarity) (h : Hdb3Regs) (z : List Symb) (i j : Nat), ∃ hi : i < j, ∃ hj : j + 1 < z.length,
      hdb3Pass1 bits (hdb3Start p) = .ok h ∧ z = symOf p :: h.sym.filter (· ≠ .sil) ∧
      z[i + 1] = z[i] ∧ z[j + 1] = z[j] ∧ ∀ m, ∀ hm : m < j, i < m → z[m + 1] ≠ z[m] := by
  refine ⟨List.replicate 8 false, .pos, ⟨.pos, 0, 0, [.neg, .sil, .sil, .neg, .pos, .sil, .sil, .pos]⟩,
    [.pos, .neg, .neg, .pos, .pos], 1, 3, by decide, by decide, rfl, by decide, rfl, rfl, ?_⟩
  intro m hm hlt
  obtain rfl : m = 2 := by omega
  exact (by decide : Symb.pos ≠ Symb.neg)

theorem witness_HdbThreeWithoutLongRunsIsAmi :
    ∃ (bits : List Bool) (s : State), s.RegistersLegal ∧ s.hdb3 = s.ami ∧ s.hdb3.valid = true ∧
      ¬ [false, false, false, false] <:+: bits ∧ 4 ≤ bits.length :=
  ⟨[false, false, false, true], allUnits, allUnits_legal _ _, rfl, rfl, by decide, by decide⟩

/-! `PARSE`. -/

theorem witness_ParseAnswers :
    (∃ (chars : List CharCode) (s : State), s.config.admitsLength chars.length = true ∧ chars ≠ [] ∧
      ∀ c ∈ chars, c = 0x30#8 ∨ c = 0x31#8) ∧
    (∃ s : State, s.config.admitsLength ([] : List CharCode).length = true) ∧
    ∃ (chars : List CharCode) (s : State), s.config.admitsLength chars.length = true ∧
      ∃ c ∈ chars, c ≠ 0x30#8 ∧ c ≠ 0x31#8 :=
  ⟨⟨[0x30#8, 0x31#8], allUnits, rfl, by decide, by decide⟩, ⟨allUnits .rational (some 0), rfl⟩,
    ⟨[0x31#8, 0x32#8], allUnits, rfl, 0x32#8, by decide, by decide, by decide⟩⟩

end Sys2Proof.Tests
end

section
/-! Empty input (`spec/20_memory.md` R44, `spec/45_bit_string_parser.md` R140). The one encoder that could fail on the empty
sequence is HDB3, whose start needs the sign of the amplitude; the register invariant (R14) makes it non-zero. -/

namespace Sys2Proof.Machine

/-- Length 0 is within every `N_MAX` (R43). -/
@[simp] theorem admitsLength_zero (c : Config) : c.admitsLength 0 = true := by
  obtain ⟨-, _ | m⟩ := c
  · rfl
  · simp [Config.admitsLength]

/-- Pass 1 of HDB3 starts whenever the amplitude has a sign (R122, R7). -/
theorem hdb3Init_of_nonZero {u : CoderUnit} (hv : NonZero u.v) : ∃ p, hdb3Init u = .ok (hdb3Start p) := by
  obtain ⟨r, hr, hne⟩ := hv
  exact ⟨_, by rw [hdb3Init, hr, signOf_rat hne]⟩

theorem hdb3Run_nil (f : NumFormat) {u : CoderUnit} (hv : NonZero u.v) : hdb3Run f u [] = .ok [] := by
  obtain ⟨p, hp⟩ := hdb3Init_of_nonZero hv
  rw [hdb3Run, hp]
  rfl

/-- Every encoder's loop over no bit leaves the output as `Wave.start` has it; HDB3 must first find its polarity. -/
theorem encodeAlgorithm_nil (f : NumFormat) (duty : Number) {sc : Scheme} {u : CoderUnit} (hv : LegalAmplitude sc u.v) :
    encodeAlgorithm f duty sc [] u = .ok [] := by
  cases sc with
  | hdb3 => exact hdb3Run_nil f hv
  | nrzl | nrzi | rz | man | ami | mlt3 => rfl

theorem exec_parse_of_admitted {chars : List CharCode} {s : State} (h : s.config.admitsLength chars.length = true) :
    exec (.parse chars) s = .next (s.respond (parseResponse chars)) := if_pos h

/-- Settles O34: the empty sequence passes the entry tests and the algorithm gives no segment; the empty string is admitted
and rejected. -/
theorem emptyInputGivesEmptyOutput : Obligations.EmptyInputGivesEmptyOutput := by
  intro sc s
  constructor
  · rintro ⟨hunits, -⟩ hvalid
    obtain ⟨-, hv⟩ := hunits sc hvalid
    exact (answers_iff sc [] s []).mpr ⟨admitsLength_zero _, hvalid, encodeAlgorithm_nil _ _ hv⟩
  · exact exec_parse_of_admitted (admitsLength_zero _)

end Sys2Proof.Machine
end

section
/-! The four parameter checks as commands (`spec/40_validator_and_configuration.md` R70 to R73). Each is `checkCommand` on a
test of its own: what the two answers are is said once, and each command brings its word and what its test admits. -/

namespace Sys2Proof

/-- A presented command whose word is an opcode's and whose operands are in order decodes to its command. -/
theorem decode_of_operands {op : Opcode} {items : List Item} {i : Instr} (h : op.operands items = some i) :
    decode ⟨op.word, items⟩ = .instr i := by
  rw [decode_word, h]

namespace Machine

/-- A check answers `OK` with the checked value exactly where its test admits the value, and otherwise its status without
payload; neither answer touches a register. -/
theorem checkCommand_answers {passed : Bool} {Admitted : Prop} (h : passed = true ↔ Admitted) (st : Status) (x : Number)
    (s : State) :
    (Admitted → checkCommand passed st x s = .next { s with response := some { status := .ok, payload := .num x } }) ∧
    (¬ Admitted → checkCommand passed st x s = .next { s with response := some { status := st, payload := .empty } }) := by
  rw [← h]
  cases passed with
  | true => exact ⟨fun _ => rfl, fun hn => absurd rfl hn⟩
  | false => exact ⟨fun hp => absurd hp Bool.false_ne_true, fun _ => rfl⟩

/-- Settles O13: the test of `CHK_TB` admits the positive finite numbers. -/
theorem checkBitPeriod : Obligations.CheckBitPeriod := fun x s =>
  ⟨decode_of_operands (op := .chkTb) rfl, checkCommand_answers bitPeriodOk_iff .invalidBitPeriod x s⟩

/-- Settles O14: the test of `CHK_AMPC` admits the positive finite numbers. -/
theorem checkAmplitudeClosed : Obligations.CheckAmplitudeClosed := fun x s =>
  ⟨decode_of_operands (op := .chkAmpc) rfl, checkCommand_answers ampClosedOk_iff .badAmplitude x s⟩

/-- Settles O15: the test of `CHK_AMPO` admits the finite numbers other than the zeros. -/
theorem checkAmplitudeOpen : Obligations.CheckAmplitudeOpen := fun x s =>
  ⟨decode_of_operands (op := .chkAmpo) rfl, checkCommand_answers ampOpenOk_iff .badAmplitude x s⟩

/-- Settles O16: the test of `CHK_DUTY` admits the numbers above 0 and up to 1. -/
theorem checkDuty : Obligations.CheckDuty := fun x s =>
  ⟨decode_of_operands (op := .chkDuty) rfl, checkCommand_answers dutyOk_iff .wrongDuty x s⟩

end Machine

end Sys2Proof
end

section
/-! The steps of HDB3's pass 1 (`spec/44_hdb3.md` R123 to R128). What a mark and a silence do is `hdb3Bit_one` and
`hdb3Bit_silence`, and the fourth zero is `hdb3Bit_fourth`; what is left is which substitution the parity of `marks` picks. -/

namespace Sys2Proof.Machine

/-- `000V` (R126): the violation repeats the polarity of the last mark. -/
theorem hdb3Substitute_of_odd (base : List Symb) {h : Hdb3Regs} (hm : Odd h.marks) :
    hdb3Substitute base h = ⟨h.pol, 0, 0, base ++ [.sil, .sil, .sil, symOf h.pol]⟩ :=
  if_pos (Nat.odd_iff.mp hm)

/-- `B00V` (R127): the balancing mark inverts the polarity, and the violation repeats it. -/
theorem hdb3Substitute_of_even (base : List Symb) {h : Hdb3Regs} (hm : Even h.marks) :
    hdb3Substitute base h =
      ⟨Polarity.inv h.pol, 0, 0, base ++ [symOf (Polarity.inv h.pol), .sil, .sil, symOf (Polarity.inv h.pol)]⟩ :=
  if_neg (Nat.odd_iff.not.mp (Nat.not_odd_iff_even.mpr hm))

/-- Settles O53: a one, a zero short of four, and the fourth zero split by the parity of `marks`. -/
theorem hdbThreeSteps : Obligations.HdbThreeSteps := by
  intro p marks zeros sym
  refine ⟨hdb3Bit_one _, hdb3Bit_silence (h := ⟨p, marks, zeros, sym⟩), fun hodd => ?_, fun heven => ?_⟩
  · rw [hdb3Bit_fourth rfl rfl, hdb3Substitute_of_odd sym hodd]
  · rw [hdb3Bit_fourth rfl rfl, hdb3Substitute_of_even sym heven]

end Sys2Proof.Machine
end

section
/-! What a failing command leaves behind (`spec/60_exceptions.md` R153). A command that writes a register answers `OK`, so
whatever answers another status has only responded. -/

namespace Sys2Proof.Machine

/-- A command that ends has either only responded, with no payload unless its status is `OK`, or has written something and
answers `OK`. -/
theorem exec_next_respond_or_done {i : Instr} {s t : State} (h : exec i s = .next t) :
    (∃ r : Response, (r.status ≠ .ok → r.payload = .empty) ∧ t = s.respond r) ∨ t.response = some .done := by
  rcases exec_next_cases h with hr | ⟨sc, u, -, rfl, -⟩ | ⟨x, -, -, -, rfl⟩ | ⟨u, x, -, -, rfl, -⟩
  · exact .inl hr
  · exact .inr rfl
  · exact .inr rfl
  · exact .inr rfl

/-- Settles O23: a response other than `OK` rules out that a register was written. -/
theorem failedCommandHasNoEffect : Obligations.FailedCommandHasNoEffect := by
  intro i s t r hexec hresp hfail
  rcases exec_next_respond_or_done hexec with ⟨r', hempty, rfl⟩ | hdone
  · obtain rfl : r' = r := Option.some.inj hresp
    exact ⟨hempty hfail, rfl⟩
  · obtain rfl : Response.done = r := Option.some.inj (hdone.symm.trans hresp)
    exact absurd rfl hfail

end Sys2Proof.Machine
end

section
/-! After the `VALID` test no `ENCODE` can fail (`spec/60_exceptions.md` R152). Six of the algorithms are total; HDB3 needs a
sign of the amplitude for its start (R122), which the register invariant (R14) gives, and three `SIL` before every
substitution (R125), which pass 1 keeps by itself (R131 (b)). -/

namespace Sys2Proof.Machine

/-- HDB3 meets neither defect of R159 when its amplitude has a sign. -/
theorem hdb3Run_succeeds (f : NumFormat) {u : CoderUnit} (hv : NonZero u.v) (bits : List Bool) :
    ∃ out, hdb3Run f u bits = .ok out := by
  obtain ⟨p, hinit⟩ := hdb3Init_of_nonZero hv
  obtain ⟨h, hpass1, -⟩ := hdb3Pass1_sound bits (hdb3Start_sound p)
  exact ⟨hdb3Pass2 f u h.sym, by simp only [hdb3Run, hinit, hpass1]⟩

/-- Every algorithm gives an output on a legal amplitude; none but HDB3's looks at it for that. -/
theorem encodeAlgorithm_succeeds (f : NumFormat) (duty : Number) {sc : Scheme} (bits : List Bool) {u : CoderUnit}
    (hv : LegalAmplitude sc u.v) : ∃ out, encodeAlgorithm f duty sc bits u = .ok out := by
  cases sc with
  | hdb3 => exact hdb3Run_succeeds f hv bits
  | nrzl | nrzi | rz | man | ami | mlt3 => exact ⟨_, rfl⟩

/-- Settles O31: the amplitude of a valid unit is legal, so the algorithm behind the entry tests succeeds. -/
theorem encodeNeverFails : Obligations.EncodeNeverFails := by
  rintro sc bits s ⟨hunits, -⟩ hvalid hadmits
  obtain ⟨-, hv⟩ := hunits sc hvalid
  obtain ⟨out, hout⟩ := encodeAlgorithm_succeeds s.config.num s.rzDuty bits hv
  exact ⟨out, (answers_iff sc bits s out).mpr ⟨hadmits, hvalid, hout⟩⟩

end Sys2Proof.Machine
end

section
/-! The encoder and the decoder (`spec/30_encoding.md` R51 to R56). The word of a command is read back by `opcodeOf_word` and
`opcodeOf_eq_some`; what is left is that an opcode's operands and the items of its commands are the same thing. -/

namespace Sys2Proof

/-- The operands of a command's opcode, read from the items the encoder writes, are the command again. -/
@[simp] theorem operands_opcode_items (i : Instr) : i.opcode.operands i.items = some i := by
  induction i using Machine.instr_families with
  | chkTb | chkAmpc | chkAmpo | chkDuty => rfl
  | parse chars => simp [Instr.opcode, Instr.items, Opcode.operands, seqOfChars]
  | construct sc | setTb sc | setAmp sc | setDuty sc => cases sc <;> rfl
  | encodeBits sc bits =>
    have h : (bitItems bits.length (bits.map .bit)).map (Instr.encodeBits sc) = some (.encodeBits sc bits) := by simp
    cases sc <;> exact h

/-- Settles O2: the word gives the opcode back, and the items give the operands back. -/
theorem decodeOfEncode : Obligations.DecodeOfEncode := by
  intro i
  rw [encode, decode_word, operands_opcode_items]

/-- One number is read from exactly the item of that number. -/
theorem oneNum_eq_some {k : Number → Instr} {items : List Item} {i : Instr} (h : oneNum k items = some i) :
    ∃ x, items = [.num x] ∧ i = k x := by
  unfold oneNum at h
  split at h
  · exact ⟨_, rfl, (Option.some.inj h).symm⟩
  · cases h

/-- The operands of a `CONSTRUCT.s` are read from exactly the items of its numbers. -/
theorem constructOperands_eq_some {sc : Scheme} {items : List Item} {i : Instr} (h : constructOperands sc items = some i) :
    i.opcode = .construct sc ∧ i.items = items := by
  unfold constructOperands at h
  split at h
  · cases h; exact ⟨rfl, rfl⟩
  · cases h
  · cases h
    cases sc with
    | rz => contradiction
    | nrzl | nrzi | man | ami | mlt3 | hdb3 => exact ⟨rfl, rfl⟩
  · cases h

/-- Operands are read only from the very items that the encoder writes for the command they make up. -/
theorem opcode_items_of_operands {op : Opcode} {items : List Item} {i : Instr} (h : op.operands items = some i) :
    i.opcode = op ∧ i.items = items := by
  cases op with
  | chkTb | chkAmpc | chkAmpo | chkDuty =>
    obtain ⟨x, rfl, rfl⟩ := oneNum_eq_some h
    exact ⟨rfl, rfl⟩
  | parse =>
    simp only [Opcode.operands] at h
    split at h
    · obtain ⟨chars, hc, rfl⟩ := Option.map_eq_some_iff.mp h
      obtain ⟨rfl, rfl⟩ := chrItems_eq_some hc
      exact ⟨rfl, rfl⟩
    · cases h
  | construct sc => exact constructOperands_eq_some h
  | setTb sc | setAmp sc | setDuty sc =>
    obtain ⟨x, rfl, rfl⟩ := oneNum_eq_some h
    cases sc <;> exact ⟨rfl, rfl⟩
  | encode sc =>
    simp only [Opcode.operands] at h
    split at h
    · obtain ⟨bits, hb, rfl⟩ := Option.map_eq_some_iff.mp h
      obtain ⟨rfl, rfl⟩ := bitItems_eq_some hb
      cases sc <;> exact ⟨rfl, rfl⟩
    · cases h

/-- A presented command that decodes has a word that names an opcode, of which its items are the operands. -/
theorem decode_eq_instr {f : Frame} {i : Instr} (h : decode f = .instr i) :
    ∃ op, opcodeOf f.word = some op ∧ op.operands f.items = some i := by
  unfold decode at h
  split at h
  · cases h
  · next op hop =>
    split at h
    · cases h
    · next j hj => cases h; exact ⟨op, hop, hj⟩

/-- Settles O3: the decoded command has the opcode of the word, hence the word, and it has the items. -/
theorem encodeOfDecode : Obligations.EncodeOfDecode := by
  intro f i h
  obtain ⟨op, hword, hitems⟩ := decode_eq_instr h
  obtain ⟨rfl, hi⟩ := opcode_items_of_operands hitems
  rw [encode, opcodeOf_eq_some hword, hi]

/-- Settles O1: each word is the one of its opcode, and the items are that opcode's operands. -/
theorem tableWordsDecode : Obligations.TableWordsDecode :=
  ⟨fun _ => decode_of_operands (op := .chkTb) rfl,
    fun _ => decode_of_operands (op := .chkDuty) rfl,
    decode_of_operands (op := .parse) rfl,
    fun _ _ => decode_of_operands (op := .construct .ami) rfl,
    fun _ _ _ => decode_of_operands (op := .construct .rz) rfl,
    fun _ => decode_of_operands (op := .setTb .hdb3) rfl,
    fun _ => decode_of_operands (op := .setAmp .mlt3) rfl,
    fun _ => decode_of_operands (op := .setDuty .rz) rfl,
    fun _ => decode_of_operands (op := .setDuty .man) rfl,
    decode_of_operands (op := .encode .nrzi) rfl⟩

/-- The reserved words of R56, by their fields: among the 256 words, exactly those that name no opcode. -/
theorem opcodeOf_eq_none_iff (w : CmdWord) :
    opcodeOf w = none ↔
      (w.getLsbD 3 = true ∨ 6 ≤ w.toNat / 16 ∨ (1 ≤ w.toNat / 16 ∧ w.toNat / 16 ≤ 5 ∧ w.toNat % 8 = 7) ∨
        (w.toNat / 16 = 0 ∧ 5 ≤ w.toNat % 8)) := by
  revert w
  decide

/-- Settles O4: a word is rejected exactly when it names no opcode, which no operand item has a part in. -/
theorem reservedWordsAreThoseListed : Obligations.ReservedWordsAreThoseListed := fun w items =>
  (decode_reserved_iff ⟨w, items⟩).trans (opcodeOf_eq_none_iff w)

end Sys2Proof
end

section
/-! Construction and reconfiguration of a unit (`spec/40_validator_and_configuration.md` R75 to R79), and what every command
leaves alone. The checks' own code is replaced by the numbers that they admit, once for `CONSTRUCT` and once for the
setters. -/

namespace Sys2Proof.Machine

/-- Each of the seven `CONSTRUCT.s` answers the status of its first failing check, or writes its whole unit, and DUTY too
when it is RZ's. -/
theorem exec_construct_cases (sc : Scheme) (tb v duty : Number) (s : State) :
    (¬ Positive tb ∧ exec (.construct sc tb v duty) s = .next (s.respond (.failure .invalidBitPeriod))) ∨
    (¬ LegalAmplitude sc v ∧ Positive tb ∧
      exec (.construct sc tb v duty) s = .next (s.respond (.failure .badAmplitude))) ∨
    ((sc = .rz ∧ ¬ DutyFraction duty) ∧ Positive tb ∧ LegalAmplitude sc v ∧
      exec (.construct sc tb v duty) s = .next (s.respond (.failure .wrongDuty))) ∨
    (Positive tb ∧ LegalAmplitude sc v ∧ (sc = .rz → DutyFraction duty) ∧
      exec (.construct sc tb v duty) s =
        .next (((s.setUnit sc { valid := true, tb, v }).setDuty (if sc = .rz then duty else s.rzDuty)).respond .done)) := by
  simp only [exec_construct, ← bitPeriodOk_iff, ← ampOk_iff, ← dutyOk_iff, Bool.not_eq_true]
  by_cases hsc : sc = .rz
  · subst hsc
    rcases constructWithDuty_cases tb v duty s with ⟨htb, he⟩ | ⟨htb, hv, he⟩ | ⟨htb, hv, hd, he⟩ | ⟨htb, hv, hd, he⟩
    · exact .inl ⟨htb, he⟩
    · exact .inr (.inl ⟨hv, htb, he⟩)
    · exact .inr (.inr (.inl ⟨⟨rfl, hd⟩, htb, hv, he⟩))
    · exact .inr (.inr (.inr ⟨htb, hv, fun _ => hd, he⟩))
  · have hduty : (s.setUnit sc { valid := true, tb, v }).setDuty s.rzDuty = s.setUnit sc { valid := true, tb, v } := by
      cases sc <;> rfl
    rw [if_neg hsc, if_neg hsc, hduty]
    rcases construct_cases sc tb v s with ⟨htb, he⟩ | ⟨htb, hv, he⟩ | ⟨htb, hv, he⟩
    · exact .inl ⟨htb, he⟩
    · exact .inr (.inl ⟨hv, htb, he⟩)
    · exact .inr (.inr (.inr ⟨htb, hv, fun h => absurd h hsc, he⟩))

/-- Settles O17: legal operands leave of the cases only the one that writes. -/
theorem constructWritesTheUnit : Obligations.ConstructWritesTheUnit := by
  intro sc tb v duty s htb hv hduty
  rcases exec_construct_cases sc tb v duty s with ⟨hn, -⟩ | ⟨hn, -⟩ | ⟨⟨hrz, hn⟩, -⟩ | ⟨-, -, -, he⟩
  · exact absurd htb hn
  · exact absurd hv hn
  · exact absurd (hduty hrz) hn
  · exact ⟨_, he, by simp, by simp, fun sc' hne => by simp [unit_setUnit_of_ne _ _ _ hne], rfl, by simp, by simp, by simp⟩

/-- Settles O18: each of the three premises leaves of the cases only the one with its status. -/
theorem constructReportsTheFirstFailure : Obligations.ConstructReportsTheFirstFailure := by
  intro sc tb v duty s
  rcases exec_construct_cases sc tb v duty s with
    ⟨htb, he⟩ | ⟨hv, htb, he⟩ | ⟨⟨hrz, hd⟩, htb, hv, he⟩ | ⟨htb, hv, hd, -⟩
  · exact ⟨fun _ => he, fun h => absurd h htb, fun h => absurd h htb⟩
  · exact ⟨fun h => absurd htb h, fun _ _ => he, fun _ h => absurd h hv⟩
  · exact ⟨fun h => absurd htb h, fun _ h => absurd hv h, fun _ _ _ _ => he⟩
  · exact ⟨fun h => absurd htb h, fun _ h => absurd hv h, fun _ _ hrz h => absurd (hd hrz) h⟩

/-- A setter on a valid unit writes exactly what its check admits and answers its status otherwise; without a valid unit it
answers `NotConstructed`. -/
theorem setter_answers {passed : Bool} {Admitted : Prop} (h : passed = true ↔ Admitted) (sc : Scheme) (st : Status)
    (written s : State) :
    ((s.unit sc).valid = true → Admitted → setter sc passed st written s = .next (written.respond .done)) ∧
    ((s.unit sc).valid = true → ¬ Admitted → setter sc passed st written s = .next (s.respond (.failure st))) ∧
    ((s.unit sc).valid = false → setter sc passed st written s = .next (s.respond (.failure .notConstructed))) := by
  rw [← h]
  rcases setter_cases sc passed st written s with ⟨hv, he⟩ | ⟨hv, rfl, he⟩ | ⟨hv, rfl, he⟩
  · simp [hv, he]
  · simp [hv, he]
  · simp [hv, he]

/-- Settles O19: `setter_answers` for the bit period, with what the write of `TB` leaves alone. -/
theorem setBitPeriod : Obligations.SetBitPeriod := by
  intro sc x s
  rw [exec_setTb]
  obtain ⟨written, failed, notValid⟩ := setter_answers bitPeriodOk_iff sc .invalidBitPeriod (s.setTb sc x) s
  refine ⟨fun hv hx => ⟨_, written hv hx, ?_⟩, failed, notValid⟩
  rw [State.setTb]
  exact ⟨by simp, fun sc' hne => by simp [unit_setUnit_of_ne _ _ _ hne], by simp, rfl, by simp, by simp, by simp⟩

/-- Settles O20: `setter_answers` for the amplitude, with what the write of `V` leaves alone. -/
theorem setAmplitude : Obligations.SetAmplitude := by
  intro sc x s
  rw [exec_setAmp]
  obtain ⟨written, failed, notValid⟩ := setter_answers ampOk_iff sc .badAmplitude (s.setV sc x) s
  refine ⟨fun hv hx => ⟨_, written hv hx, ?_⟩, failed, notValid⟩
  rw [State.setV]
  exact ⟨by simp, fun sc' hne => by simp [unit_setUnit_of_ne _ _ _ hne], by simp, rfl, by simp, by simp, by simp⟩

/-- Settles O21: `setter_answers` for the duty. -/
theorem setDutyOfRz : Obligations.SetDutyOfRz := fun x s => setter_answers dutyOk_iff .rz .wrongDuty (s.setDuty x) s

/-- Settles O22: every `SET_DUTY` but RZ's is the one meaning that examines nothing. -/
theorem setDutyElsewhereIsUnsupported : Obligations.SetDutyElsewhereIsUnsupported := by
  intro sc x s hsc
  rw [exec_setDuty, if_neg hsc]
  rfl

/-- Settles O24: in each case of `exec_next_cases` the writes are those of the unit named and of the duty. -/
theorem commandWritesOnlyItsUnit : Obligations.CommandWritesOnlyItsUnit := by
  intro i s t h
  rcases exec_next_cases h with ⟨r, -, rfl⟩ | ⟨sc, u, hw, rfl, -⟩ | ⟨x, hd, -, -, rfl⟩ | ⟨u, x, hw, hd, rfl, -⟩
  · simp
  · refine ⟨rfl, fun sc' hne => ?_, by simp⟩
    rw [respond_unit, unit_setUnit_of_ne]
    rintro rfl
    exact hne hw
  · simp [hd]
  · refine ⟨rfl, fun sc' hne => ?_, by simp [hd]⟩
    rw [respond_unit, setDuty_unit, unit_setUnit_of_ne]
    rintro rfl
    exact hne hw

end Sys2Proof.Machine
end

section
/-! What a step does with each event of the host (`spec/70_reset_and_hazards.md` R170, R173, R178), one lemma per event; a
wait is `step_waiting`. -/

namespace Sys2Proof.Machine

section Events

variable {s : State} {f : Frame} {rest : List HostEvent}

theorem step_command (h : s.inbox = .command f :: rest) (hb : s.busy = none) :
    step s = perform f { s with inbox := rest } := by
  simp only [step, takeEvent_cons s h, whenFree, hb]

theorem step_start (h : s.inbox = .start f :: rest) (hb : s.busy = none) :
    step s = .next ({ s with inbox := rest }.present f) := by
  simp only [step, takeEvent_cons s h, whenFree, hb]

theorem step_reset (h : s.inbox = .reset :: rest) : step s = .next { s with inbox := rest }.afterReset := by
  simp only [step, takeEvent_cons s h]

theorem step_overlapping {b : Busy} (h : s.inbox = .command f :: rest ∨ s.inbox = .start f :: rest)
    (hb : s.busy = some b) : step s = .fault .overlappingCommands := by
  rcases h with h | h <;> simp only [step, takeEvent_cons s h, whenFree, hb]

theorem step_waiting_idle (h : s.inbox = [] ∨ ∃ rest, s.inbox = .wait :: rest) (hb : s.busy = none) :
    step s = .next { s with inbox := s.inbox.tail }.noResponse := by
  simp only [step_waiting h, advance, hb]

theorem step_waiting_presented (h : s.inbox = [] ∨ ∃ rest, s.inbox = .wait :: rest)
    (hb : s.busy = some (.presented f)) : step s = beginCommand f { s with inbox := s.inbox.tail }.release := by
  simp only [step_waiting h, advance, hb]

theorem step_waiting_encoding {tr : Transient} (h : s.inbox = [] ∨ ∃ rest, s.inbox = .wait :: rest)
    (hb : s.busy = some (.encoding tr)) : step s = encodeTick tr { s with inbox := s.inbox.tail } := by
  simp only [step_waiting h, advance, hb]

end Events

theorem numsAdmitted_iff {i : Instr} {c : Config} : i.numsAdmitted c = true ↔ ∀ x ∈ i.nums, x.inFormat c.num = true := by
  simp [Instr.numsAdmitted]

theorem perform_of_decode {f : Frame} {i : Instr} (h : decode f = .instr i) (s : State) :
    perform f s = performInstr i s := by
  simp only [perform, h]

theorem performInstr_of_admitted {i : Instr} {s : State} (h : ∀ x ∈ i.nums, x.inFormat s.config.num = true) :
    performInstr i s = exec i s := if_pos (numsAdmitted_iff.mpr h)

@[simp] theorem encodeOperand_encodeBits (sc : Scheme) (bits : List Bool) :
    encodeOperand (.encodeBits sc bits) = some (sc, bits) := by cases sc <;> rfl

/-- Only an `ENCODE` has a scheme and a bit sequence as its operand. -/
theorem encodeOperand_eq_some {i : Instr} {sc : Scheme} {bits : List Bool} (h : encodeOperand i = some (sc, bits)) :
    i = .encodeBits sc bits := by
  revert h
  induction i using instr_families with
  | chkTb | chkAmpc | chkAmpo | chkDuty | parse => exact nofun
  | construct sc' | setTb sc' | setAmp sc' | setDuty sc' => cases sc' <;> exact nofun
  | encodeBits sc' bits' =>
    rw [encodeOperand_encodeBits]
    intro h
    cases h
    rfl

/-- An `ENCODE` begins to be performed bit by bit exactly when it passes its entry tests (R80). -/
theorem encodeBegins_eq_some_iff {i : Instr} {s : State} {sc : Scheme} {bits : List Bool} :
    encodeBegins i s = some (sc, bits) ↔
      i = .encodeBits sc bits ∧ s.config.admitsLength bits.length = true ∧ (s.unit sc).valid = true := by
  constructor
  · intro h
    unfold encodeBegins at h
    split at h
    · next sc' bits' hop =>
      split at h
      · next hpass =>
        cases h
        exact ⟨encodeOperand_eq_some hop, Bool.and_eq_true_iff.mp hpass⟩
      · cases h
    · cases h
  · rintro ⟨rfl, ha, hv⟩
    simp [encodeBegins, ha, hv]

/-- Settles O5: each event leads to `exec` on the state without it; an `ENCODE` that fails its entry tests does not begin, so
it too is performed whole. -/
theorem stepRunsDecodedCommand : Obligations.StepRunsDecodedCommand := by
  refine ⟨fun s f rest i hin hb hd hn => ?_, fun s f rest hin hb => step_start hin hb, fun s f i hin hb hd hn henc => ?_⟩
  · rw [step_command hin hb, perform_of_decode hd]
    exact performInstr_of_admitted hn
  · have hnone : encodeBegins i { s with inbox := s.inbox.tail }.release = none := by
      refine Option.eq_none_iff_forall_ne_some.mpr fun ⟨sc, bits⟩ h => ?_
      obtain ⟨hi, ha, hv⟩ := encodeBegins_eq_some_iff.mp h
      rw [release_unit, unit_with_inbox] at hv
      rcases henc sc bits hi with hv' | ha'
      · exact Bool.noConfusion (hv.symm.trans hv')
      · exact Bool.noConfusion (ha.symm.trans ha')
    rw [step_waiting_presented hin hb]
    simp only [beginCommand, hd, hnone]
    exact performInstr_of_admitted hn

/-- Settles O6: whole or begun, a reserved word is answered without a look at the state. -/
theorem reservedWordAnswersIllegalCommand : Obligations.ReservedWordAnswersIllegalCommand := by
  refine ⟨fun s f rest hin hb hd => ?_, fun s f hin hb hd => ?_⟩
  · rw [step_command hin hb, perform, hd]
    rfl
  · rw [step_waiting_presented hin hb, beginCommand, hd]
    rfl

/-- Settles O7: with a command in progress both ways of presenting another are the fault. -/
theorem overlappingCommandsStop : Obligations.OverlappingCommandsStop := fun _ _ _ _ hb hin => step_overlapping hin hb

/-- Settles O8: every unit is `CoderUnit.reset`. -/
theorem resetStateOfTheBlock : Obligations.ResetStateOfTheBlock :=
  ⟨fun sc => by rw [State.reset, resetWith_unit, reset_valid], rfl, rfl⟩

/-- Settles O9: the state after a reset is made from the configuration and the remaining events alone. -/
theorem resetEventForgetsTheRun : Obligations.ResetEventForgetsTheRun := by
  intro s rest hin
  refine ⟨_, step_reset hin, fun sc => by rw [afterReset_unit, reset_valid], rfl, rfl, rfl, rfl, fun s' hin' hc => ?_⟩
  rw [step_reset hin', State.afterReset, State.afterReset, hc]

/-- Settles O12: with nothing in progress a wait only clears the response. -/
theorem idleBlockStaysAsItIs : Obligations.IdleBlockStaysAsItIs := fun _ hb hin => step_waiting_idle hin hb

end Sys2Proof.Machine
end

section
/-! The invariants of every step (`spec/10_state.md` R14, R16, R19, R20, R22; `spec/44_hdb3.md` R131). What a step can do is
`step_effect`, and what a command can write is `exec_next_cases`; each part of the invariant is carried along these cases. -/

namespace Sys2Proof.Machine

/-! ### The registers

Both register invariants speak of the units, the duty and the configuration only, so they pass between states that agree on
these, and writing a unit or the duty needs a look at what is written and nothing else. -/

theorem SameRegisters.symm {s t : State} (h : SameRegisters s t) : SameRegisters t s :=
  ⟨fun sc => (h.1 sc).symm, h.2.1.symm, h.2.2.symm⟩

theorem SameRegisters.config {s t : State} (h : SameRegisters s t) : s.config = t.config := h.2.2

theorem sameRegisters_self_respond (s : State) (r : Response) : SameRegisters s (s.respond r) :=
  ⟨fun sc => (respond_unit s r sc).symm, rfl, rfl⟩

/-- What R14 asks of one unit, as far as the unit alone shows it. -/
def UnitLegal (sc : Scheme) (u : CoderUnit) : Prop := u.valid = true → Positive u.tb ∧ LegalAmplitude sc u.v

theorem registersLegal_iff {s : State} :
    s.RegistersLegal ↔ (∀ sc, UnitLegal sc (s.unit sc)) ∧ ((s.unit .rz).valid = true → DutyFraction s.rzDuty) := Iff.rfl

theorem State.RegistersLegal.of_same {s t : State} (hs : s.RegistersLegal) (h : SameRegisters s t) : t.RegistersLegal := by
  obtain ⟨hu, hd, -⟩ := h
  simpa only [registersLegal_iff, hu, hd] using hs

theorem State.RegistersInNum.of_same {s t : State} (hs : s.RegistersInNum) (h : SameRegisters s t) :
    t.RegistersInNum := by
  obtain ⟨hu, hd, hc⟩ := h
  simpa only [State.RegistersInNum, hu, hd, hc] using hs

theorem State.RegistersLegal.respond {s : State} (hs : s.RegistersLegal) (r : Response) : (s.respond r).RegistersLegal :=
  hs.of_same (sameRegisters_self_respond s r)

theorem State.RegistersInNum.respond {s : State} (hs : s.RegistersInNum) (r : Response) : (s.respond r).RegistersInNum :=
  hs.of_same (sameRegisters_self_respond s r)

/-- The amplitude of a valid unit is one that its scheme admits. -/
theorem State.RegistersLegal.amplitude {s : State} (hs : s.RegistersLegal) {sc : Scheme}
    (hvalid : (s.unit sc).valid = true) : LegalAmplitude sc (s.unit sc).v := (hs.1 sc hvalid).2

theorem unitLegal_setUnit {s : State} {sc : Scheme} {u : CoderUnit} (hs : s.RegistersLegal) (hu : UnitLegal sc u)
    (sc' : Scheme) : UnitLegal sc' ((s.setUnit sc u).unit sc') := by
  rw [unit_setUnit]
  split
  · next he => exact he ▸ hu
  · exact hs.1 sc'

/-- A command keeps R14: what it writes has passed the checks, and what it leaves was legal. -/
theorem exec_keeps_registersLegal {i : Instr} {s t : State} (hs : s.RegistersLegal) (h : exec i s = .next t) :
    t.RegistersLegal := by
  rcases exec_next_cases h with ⟨r, -, rfl⟩ | ⟨sc, u, -, rfl, -, -, hrz, htb, hv⟩ | ⟨x, -, -, hx, rfl⟩ |
    ⟨u, x, -, -, rfl, -, -, htb, hv, hx⟩
  · exact hs.respond r
  · have hu : UnitLegal sc u := fun _ => by
      constructor
      · rcases htb with ⟨he, hvalid⟩ | htb
        · exact he ▸ (hs.1 sc hvalid).1
        · exact htb
      · rcases hv with ⟨he, hvalid⟩ | hv
        · exact he ▸ hs.amplitude hvalid
        · exact hv
    have hduty : ((s.setUnit sc u).unit .rz).valid = true → DutyFraction (s.setUnit sc u).rzDuty := by
      rw [setUnit_rzDuty, unit_setUnit]
      split
      · next he => exact fun _ => (registersLegal_iff.mp hs).2 (by rw [he]; exact hrz he.symm)
      · exact hs.2
    exact State.RegistersLegal.respond (registersLegal_iff.mpr ⟨unitLegal_setUnit hs hu, hduty⟩) _
  · refine State.RegistersLegal.respond (registersLegal_iff.mpr ⟨fun sc => ?_, fun _ => hx⟩) _
    rw [setDuty_unit]
    exact hs.1 sc
  · refine State.RegistersLegal.respond (registersLegal_iff.mpr ⟨fun sc => ?_, fun _ => hx⟩) _
    rw [setDuty_unit]
    exact unitLegal_setUnit hs (fun _ => ⟨htb, hv⟩) sc

/-- A command of elements of `NUM` keeps the registers inside it: what it writes is its own operands. -/
theorem exec_keeps_registersInNum {i : Instr} {s t : State} (hs : s.RegistersInNum)
    (hn : ∀ x ∈ i.nums, x.inFormat s.config.num = true) (h : exec i s = .next t) : t.RegistersInNum := by
  obtain ⟨hunits, hduty⟩ := hs
  have unit_in_num : ∀ {sc : Scheme} {u : CoderUnit},
      (∀ x ∈ [u.tb, u.v], x ∈ i.nums ∨ x ∈ [(s.unit sc).tb, (s.unit sc).v]) →
      ∀ sc', ((s.setUnit sc u).unit sc').tb.inFormat s.config.num = true ∧
        ((s.setUnit sc u).unit sc').v.inFormat s.config.num = true := by
    intro sc u hu sc'
    rw [unit_setUnit]
    split
    · have written : ∀ x ∈ [u.tb, u.v], x.inFormat s.config.num = true := by
        intro x hx
        rcases hu x hx with hx | hx
        · exact hn x hx
        · rcases List.mem_pair.mp hx with rfl | rfl
          · exact (hunits sc).1
          · exact (hunits sc).2
      exact ⟨written _ (by simp), written _ (by simp)⟩
    · exact hunits sc'
  rcases exec_next_cases h with ⟨r, -, rfl⟩ | ⟨sc, u, -, rfl, -, hu, -⟩ | ⟨x, -, hx, -, rfl⟩ |
    ⟨u, x, -, -, rfl, -, hu, -⟩
  · exact State.RegistersInNum.respond ⟨hunits, hduty⟩ r
  · refine State.RegistersInNum.respond (s := s.setUnit sc u) ?_ _
    rw [State.RegistersInNum, setUnit_config, setUnit_rzDuty]
    exact ⟨unit_in_num hu, hduty⟩
  · refine State.RegistersInNum.respond (s := s.setDuty x) ?_ _
    exact ⟨fun sc => by rw [setDuty_unit]; exact hunits sc, hn x hx⟩
  · refine State.RegistersInNum.respond (s := (s.setUnit .rz u).setDuty x) ?_ _
    rw [State.RegistersInNum, setDuty_config, setUnit_config]
    refine ⟨fun sc => ?_, hn x (hu x (by simp))⟩
    rw [setDuty_unit]
    exact unit_in_num (fun y hy => .inl (hu y (by simp only [List.mem_cons] at hy ⊢; tauto))) sc

theorem afterReset_registersLegal (s : State) : s.afterReset.RegistersLegal :=
  registersLegal_iff.mpr ⟨fun sc => by rw [afterReset_unit]; exact nofun, by rw [afterReset_unit]; exact nofun⟩

/-- The zero that the model gives a register after reset (log 3) is an element of every `NUM`. -/
@[simp] theorem zero_inFormat (f : NumFormat) : Number.zero.inFormat f = true := by cases f <;> rfl

theorem resetWith_registersInNum (c : Config) : (State.resetWith c).RegistersInNum :=
  ⟨fun sc => by rw [resetWith_unit]; exact ⟨zero_inFormat _, zero_inFormat _⟩, zero_inFormat _⟩

theorem afterReset_registersInNum (s : State) : s.afterReset.RegistersInNum :=
  ⟨fun sc => by rw [afterReset_unit]; exact ⟨zero_inFormat _, zero_inFormat _⟩, zero_inFormat _⟩

/-- Settles O27: a whole command keeps R14, a reset leaves no unit valid, and any other step leaves the registers alone. -/
theorem stepKeepsRegistersLegal : Obligations.StepKeepsRegistersLegal := by
  intro s t hs h
  rcases step_effect h with ⟨s₀, i, hsame, -, hexec, -⟩ | ⟨-, -, s₀, -, rfl⟩ | ⟨hsame, -⟩
  · exact exec_keeps_registersLegal (hs.of_same hsame.symm) hexec
  · exact afterReset_registersLegal s₀
  · exact hs.of_same hsame.symm

/-- Settles O28: the same three cases for `NUM`, and none of them writes the configuration. -/
theorem stepKeepsRegistersInNum : Obligations.StepKeepsRegistersInNum := by
  intro s t hs h
  rcases step_effect h with ⟨s₀, i, hsame, -, hexec, hn⟩ | ⟨-, -, s₀, hsame, rfl⟩ | ⟨hsame, -⟩
  · obtain ⟨-, -, -, hconfig, -⟩ := commandWritesOnlyItsUnit i s₀ t hexec
    have hn' : ∀ x ∈ i.nums, x.inFormat s₀.config.num = true := by
      rw [hsame.config]; exact numsAdmitted_iff.mp hn
    exact ⟨exec_keeps_registersInNum (hs.of_same hsame.symm) hn' hexec, hconfig.trans hsame.config⟩
  · exact ⟨afterReset_registersInNum s₀, hsame.config⟩
  · exact ⟨hs.of_same hsame.symm, hsame.config⟩

/-- A command leaves a valid unit valid. -/
theorem exec_keeps_valid {i : Instr} {s t : State} {sc : Scheme} (h : exec i s = .next t)
    (hv : (s.unit sc).valid = true) : (t.unit sc).valid = true := by
  have written : ∀ {sc' : Scheme} {u : CoderUnit}, u.valid = true → ((s.setUnit sc' u).unit sc).valid = true := by
    intro sc' u hu
    rw [unit_setUnit]
    split
    · exact hu
    · exact hv
  rcases exec_next_cases h with ⟨r, -, rfl⟩ | ⟨sc', u, -, rfl, hu, -⟩ | ⟨x, -, -, -, rfl⟩ | ⟨u, x, -, -, rfl, hu, -⟩
  · rwa [respond_unit]
  · rw [respond_unit]; exact written hu
  · rwa [respond_unit, setDuty_unit]
  · rw [respond_unit, setDuty_unit]; exact written hu

/-- Settles O25: of the three effects of a step only the reset makes a valid unit invalid. -/
theorem onlyResetClearsValid : Obligations.OnlyResetClearsValid := by
  intro s t sc h hvalid hinvalid
  rcases step_effect h with ⟨s₀, i, hsame, -, hexec, -⟩ | ⟨rest, hreset, -⟩ | ⟨hsame, -⟩
  · have := exec_keeps_valid hexec (hsame.1 sc ▸ hvalid)
    exact Bool.noConfusion (this.symm.trans hinvalid)
  · exact ⟨rest, hreset⟩
  · exact Bool.noConfusion (hvalid.symm.trans (hsame.1 sc ▸ hinvalid))

end Sys2Proof.Machine
end

section
/-! The invariant of the transient state, and that no step meets a defect (`spec/10_state.md` R16, R19, R20;
`spec/44_hdb3.md` R131; `spec/60_exceptions.md` R159). An encoder at work is followed through its start and one bit at
a time. -/

namespace Sys2Proof.Machine

/-! ### One bit of the encoder at work -/

/-- Inverting twice gives a number with a sign back. -/
theorem neg_neg_of_nonZero (f : NumFormat) {v : Number} (hv : NonZero v) : (v.neg f).neg f = v := by
  obtain ⟨r, rfl, hr⟩ := hv
  rw [neg_rat f hr, neg_rat f (neg_ne_zero.mpr hr), neg_neg]

/-- An accumulator at `v` or `-v` stays there when it is inverted. -/
theorem neg_accumulator (f : NumFormat) {v acc : Number} (hv : NonZero v) (h : acc = v ∨ acc = v.neg f) :
    acc.neg f = v ∨ acc.neg f = v.neg f := by
  rcases h with rfl | rfl
  · exact .inr rfl
  · exact .inl (neg_neg_of_nonZero f hv)

/-- What an encoder's registers must satisfy is read off the units and the configuration. -/
theorem Engine.Sound.of_same {s t : State} (h : SameRegisters s t) {n : Nat} {g : Engine} (hg : g.Sound s n) :
    g.Sound t n := by
  obtain ⟨hu, -, hc⟩ := h
  cases g with
  | nrzl => exact (congrArg CoderUnit.valid (hu .nrzl)).symm.trans hg
  | rz => exact (congrArg CoderUnit.valid (hu .rz)).symm.trans hg
  | man => exact (congrArg CoderUnit.valid (hu .man)).symm.trans hg
  | mlt3 idx => exact (congrArg CoderUnit.valid (hu .mlt3)).symm.trans hg
  | hdb3 h => exact ⟨(congrArg CoderUnit.valid (hu .hdb3)).symm.trans hg.1, hg.2⟩
  | nrzi acc =>
    have hu' : s.nrzi = t.nrzi := hu .nrzi
    rwa [Engine.Sound, ← hu', ← hc]
  | ami acc =>
    have hu' : s.ami = t.ami := hu .ami
    rwa [Engine.Sound, ← hu', ← hc]

/-- The registers an `ENCODE` starts with are sound on a valid unit (R16, R122). -/
theorem engineStart_sound {s : State} {sc : Scheme} (hvalid : (s.unit sc).valid = true) {g : Engine}
    (h : engineStart sc (s.unit sc) = .ok g) : g.Sound s 0 := by
  cases sc with
  | nrzl | rz | man | mlt3 => cases h; exact hvalid
  | nrzi | ami => cases h; exact ⟨hvalid, .inl rfl⟩
  | hdb3 =>
    simp only [engineStart, hdb3Init] at h
    split at h
    · next hinit =>
      split at hinit
      · cases hinit
        cases h
        exact ⟨hvalid, hdb3Start_sound _⟩
      · cases hinit
    · cases h

/-- On a legal amplitude every encoder starts. -/
theorem engineStart_succeeds {sc : Scheme} {u : CoderUnit} (hv : LegalAmplitude sc u.v) :
    ∃ g, engineStart sc u = .ok g := by
  cases sc with
  | nrzl | nrzi | rz | man | ami | mlt3 => exact ⟨_, rfl⟩
  | hdb3 =>
    obtain ⟨p, hp⟩ := hdb3Init_of_nonZero hv
    exact ⟨.hdb3 (hdb3Start p), by rw [engineStart, hp]⟩

/-- With sound registers every bit is taken: HDB3 finds its three `SIL`, and no other encoder can fail. -/
theorem engineBit_succeeds {s : State} {n : Nat} {g : Engine} (hg : g.Sound s n) (a : Wave) (b : Bool) :
    ∃ r, engineBit s g a b = .ok r := by
  cases g with
  | nrzl | nrzi | rz | man | ami | mlt3 => exact ⟨_, rfl⟩
  | hdb3 h =>
    obtain ⟨h', hb, -⟩ := hdb3Bit_sound hg.2 b
    exact ⟨(.hdb3 h', a), by rw [engineBit, hb]⟩

/-- The registers stay sound over a bit: an accumulator is inverted or left, and HDB3's step is `hdb3Bit_sound`. -/
theorem engineBit_keeps_engine {s : State} (hs : s.RegistersLegal) {n : Nat} {g g' : Engine} (hg : g.Sound s n)
    {a a' : Wave} {b : Bool} (h : engineBit s g a b = .ok (g', a')) : g'.Sound s (n + 1) := by
  cases g with
  | nrzl | rz | man | mlt3 => cases h; exact hg
  | nrzi acc =>
    cases h
    obtain ⟨hvalid, hacc⟩ := hg
    refine ⟨hvalid, ?_⟩
    cases b with
    | false => exact hacc
    | true => exact neg_accumulator _ (hs.amplitude (sc := .nrzi) hvalid).nonZero hacc
  | ami acc =>
    obtain ⟨hvalid, hacc⟩ := hg
    cases b with
    | false => cases h; exact ⟨hvalid, hacc⟩
    | true => cases h; exact ⟨hvalid, neg_accumulator _ (hs.amplitude (sc := .ami) hvalid).nonZero hacc⟩
  | hdb3 r =>
    obtain ⟨r', hb, hr'⟩ := hdb3Bit_sound hg.2 b
    rw [engineBit, hb] at h
    cases h
    exact ⟨hg.1, hr'⟩

/-- A bit's emissions keep the output contiguous and the clock at its end, whatever the registers (R20, R36). -/
theorem engineBit_keeps_wave {s : State} {g g' : Engine} {a a' : Wave} {b : Bool} (ha : a.Sound)
    (h : engineBit s g a b = .ok (g', a')) : a'.Sound := by
  cases g with
  | nrzl | nrzi | mlt3 => cases h; exact emit_sound ha _ _ _
  | rz => cases h; exact emit_sound (emit_sound ha _ _ _) _ _ _
  | man => cases b <;> (cases h; exact emit_sound (emit_sound ha _ _ _) _ _ _)
  | ami => cases b <;> (cases h; exact emit_sound ha _ _ _)
  | hdb3 r =>
    simp only [engineBit] at h
    split at h
    · cases h; exact ha
    · cases h

/-! ### The invariant -/

/-- What the invariant says of a transient state in the block `s`. -/
def Transient.Sound (s : State) (tr : Transient) : Prop :=
  tr.i ≤ tr.bits.length ∧ tr.wave.Sound ∧ tr.engine.Sound s tr.i

theorem transientSound_iff {s : State} :
    s.TransientSound ↔ ∀ tr, s.busy = some (.encoding tr) → tr.Sound s ∧ s.response = none := by
  simp only [State.TransientSound, Transient.Sound, Wave.Sound, and_assoc]

theorem transientStart_sound {s : State} {sc : Scheme} {bits : List Bool} {tr : Transient}
    (hvalid : (s.unit sc).valid = true) (h : transientStart sc bits (s.unit sc) = .ok tr) : tr.Sound s := by
  unfold transientStart at h
  split at h
  · next g hg =>
    cases h
    exact ⟨Nat.zero_le _, Wave.start_sound, engineStart_sound hvalid hg⟩
  · cases h

/-- Taking the bit at the cursor keeps a transient state sound (R19). -/
theorem transient_tick_sound {s : State} (hs : s.RegistersLegal) {tr : Transient} (htr : tr.Sound s) {b : Bool}
    {g : Engine} {a : Wave} (hb : bitRead tr.bits tr.i = some b) (h : engineBit s tr.engine tr.wave b = .ok (g, a)) :
    Transient.Sound s { tr with i := tr.i + 1, wave := a, engine := g } := by
  obtain ⟨-, hwave, hengine⟩ := htr
  obtain ⟨hlt, -⟩ := List.getElem?_eq_some_iff.mp hb
  exact ⟨hlt, engineBit_keeps_wave hwave h, engineBit_keeps_engine hs hengine h⟩

/-- Settles O26: no unit is valid, the registers are zeros, and no command is in progress. -/
theorem invariantAtReset : Obligations.InvariantAtReset := fun c =>
  ⟨afterReset_registersLegal (State.resetWith c), resetWith_registersInNum c, nofun⟩

/-- Settles O29: O27 and O28 for the registers; and an `ENCODE` in progress after a step has begun in it or has taken a
bit. -/
theorem stepKeepsTheInvariant : Obligations.StepKeepsTheInvariant := by
  rintro s t ⟨hlegal, hnum, htransient⟩ h
  refine ⟨stepKeepsRegistersLegal s t hlegal h, (stepKeepsRegistersInNum s t hnum h).1, transientSound_iff.mpr ?_⟩
  rw [transientSound_iff] at htransient
  intro tr htr
  rcases step_effect h with ⟨s₀, i, -, hidle, hexec, -⟩ | ⟨-, -, s₀, -, rfl⟩ | ⟨hsame, hbusy⟩
  · obtain ⟨-, -, -, -, hb, -⟩ := commandWritesOnlyItsUnit i s₀ t hexec
    rw [hb, hidle] at htr
    cases htr
  · cases htr
  · obtain ⟨hresp, hprogress⟩ := hbusy tr htr
    have hsound : tr.Sound s := by
      rcases hprogress with ⟨sc, bits, hvalid, hstart⟩ | ⟨tr₀, b, g, a, htr₀, hb, hbit, rfl⟩
      · exact transientStart_sound hvalid hstart
      · exact transient_tick_sound hlegal (htransient tr₀ htr₀).1 hb hbit
    obtain ⟨hi, hw, he⟩ := hsound
    exact ⟨⟨hi, hw, he.of_same hsame.symm⟩, hresp⟩

/-! ### No defect -/

/-- Under R14 no command is a fault: only an `ENCODE` could be, and its amplitude has a sign. -/
theorem exec_ne_fault {s : State} (hs : s.RegistersLegal) (i : Instr) (e : Fault) : exec i s ≠ .fault e := by
  induction i using instr_families with
  | chkTb | chkAmpc | chkAmpo | chkDuty => exact nofun
  | parse chars =>
    intro h
    simp only [exec, execParse] at h
    split at h <;> cases h
  | construct sc tb v duty =>
    rcases exec_construct_cases sc tb v duty s with ⟨-, he⟩ | ⟨-, -, he⟩ | ⟨-, -, -, he⟩ | ⟨-, -, -, he⟩ <;>
      (rw [he]; exact nofun)
  | setTb sc x => rw [exec_setTb]; exact nofun
  | setAmp sc x => rw [exec_setAmp]; exact nofun
  | setDuty sc x =>
    rw [exec_setDuty]
    split <;> exact nofun
  | encodeBits sc bits =>
    rw [exec_encodeBits]
    rcases encodeEntry_cases sc bits (encodeAlgorithm s.config.num s.rzDuty sc bits) s with
      ⟨-, he⟩ | ⟨-, -, he⟩ | ⟨-, hvalid, ⟨out, -, he⟩ | ⟨e', herr, he⟩⟩
    · rw [he]; exact nofun
    · rw [he]; exact nofun
    · rw [he]; exact nofun
    · obtain ⟨out, hout⟩ := encodeAlgorithm_succeeds s.config.num s.rzDuty bits (hs.amplitude hvalid)
      rw [hout] at herr
      cases herr

theorem performInstr_ne_fault {s : State} (hs : s.RegistersLegal) (i : Instr) (e : Fault) : performInstr i s ≠ .fault e := by
  unfold performInstr
  split
  · exact exec_ne_fault hs i e
  · exact nofun

theorem perform_ne_fault {s : State} (hs : s.RegistersLegal) (f : Frame) (e : Fault) : perform f s ≠ .fault e := by
  unfold perform
  split
  · exact performInstr_ne_fault hs _ e
  · exact nofun
  · exact nofun

/-- Beginning an `ENCODE` on a valid unit finds the sign of its amplitude. -/
theorem encodeBegin_ne_fault {s : State} (hs : s.RegistersLegal) {sc : Scheme} (hvalid : (s.unit sc).valid = true)
    (bits : List Bool) (e : Fault) : encodeBegin sc bits s ≠ .fault e := by
  obtain ⟨g, hg⟩ := engineStart_succeeds (hs.amplitude hvalid)
  simp only [encodeBegin, transientStart, hg]
  exact nofun

theorem beginCommand_ne_fault {s : State} (hs : s.RegistersLegal) (f : Frame) (e : Fault) :
    beginCommand f s ≠ .fault e := by
  unfold beginCommand
  split
  · split
    · next hbegins =>
      obtain ⟨-, -, hvalid⟩ := encodeBegins_eq_some_iff.mp hbegins
      exact encodeBegin_ne_fault hs hvalid _ e
    · exact performInstr_ne_fault hs _ e
  · exact nofun
  · exact nofun

theorem encodeTick_ne_fault {s : State} {tr : Transient} (htr : tr.Sound s) (e : Fault) : encodeTick tr s ≠ .fault e := by
  obtain ⟨-, -, hengine⟩ := htr
  unfold encodeTick
  split
  · next b _ =>
    obtain ⟨r, hr⟩ := engineBit_succeeds hengine tr.wave b
    rw [hr]
    exact nofun
  · exact nofun

/-- Under the invariant the block goes on by itself without a fault. -/
theorem advance_ne_fault {s : State} (hs : s.Inv) (e : Fault) : advance s ≠ .fault e := by
  obtain ⟨hlegal, -, htransient⟩ := hs
  unfold advance
  split
  · exact nofun
  · exact beginCommand_ne_fault (hlegal.of_same ⟨fun sc => (release_unit s sc).symm, rfl, rfl⟩) _ e
  · next tr htr => exact encodeTick_ne_fault (transientSound_iff.mp htransient tr htr).1 e

theorem whenFree_fault {s : State} {r : Result} {e : Fault} (h : whenFree s r = .fault e) :
    r = .fault e ∨ e = .overlappingCommands := by
  unfold whenFree at h
  split at h
  · exact .inl h
  · cases h; exact .inr rfl

/-- Taking the host's next event keeps the invariant. -/
theorem inv_takeEvent {s : State} (hs : s.Inv) : s.takeEvent.2.Inv := by
  obtain ⟨hlegal, hnum, htransient⟩ := hs
  unfold State.takeEvent
  split
  · exact ⟨hlegal, hnum, htransient⟩
  · next rest _ =>
    have hsame : SameRegisters s { s with inbox := rest } := ⟨fun sc => (unit_with_inbox s rest sc).symm, rfl, rfl⟩
    refine ⟨hlegal.of_same hsame, hnum.of_same hsame, transientSound_iff.mpr fun tr htr => ?_⟩
    obtain ⟨⟨hi, hw, he⟩, hresp⟩ := transientSound_iff.mp htransient tr htr
    exact ⟨⟨hi, hw, he.of_same hsame⟩, hresp⟩

/-- Under the invariant the only fault of a step is that of overlapping commands. -/
theorem step_fault_overlapping {s : State} (hs : s.Inv) {e : Fault} (h : step s = .fault e) :
    e = .overlappingCommands := by
  have hs' := inv_takeEvent hs
  unfold step at h
  split at h <;> rename_i hev <;> rw [hev] at hs'
  · exact absurd h (advance_ne_fault hs' e)
  · cases h
  · exact (whenFree_fault h).resolve_left nofun
  · exact (whenFree_fault h).resolve_left (perform_ne_fault hs'.1 _ e)

/-- Settles O30: the fault of a defect is not the one of overlapping commands. -/
theorem noDefectUnderTheInvariant : Obligations.NoDefectUnderTheInvariant := fun _ hs =>
  ⟨fun h => Fault.noConfusion (step_fault_overlapping hs h), fun h => Fault.noConfusion (step_fault_overlapping hs h)⟩

end Sys2Proof.Machine
end

section
/-! The entry of an `ENCODE` (`spec/20_memory.md` R43, `spec/40_validator_and_configuration.md` R80), and its inside performed
bit by bit (`spec/00_scope.md` R4): the bits taken one after another by the encoder at work, and the end-of-stream action, are
the algorithm that the whole command runs. -/

namespace Sys2Proof.Machine

/-! ### The entry tests -/

theorem admitsLength_of_over {c : Config} {m n : Nat} (hc : c.nMax = some m) (h : m < n) : c.admitsLength n = false := by
  simp [Config.admitsLength, hc, h]

theorem admitsLength_unbounded {c : Config} (hc : c.nMax = none) (n : Nat) : c.admitsLength n = true := by
  simp [Config.admitsLength, hc]

/-- An `ENCODE` is refused exactly for its length. -/
theorem exec_encodeBits_refused_iff {sc : Scheme} {bits : List Bool} {s : State} :
    exec (.encodeBits sc bits) s = .refused .lengthOverNMax ↔ s.config.admitsLength bits.length = false := by
  rw [exec_encodeBits]
  rcases encodeEntry_cases sc bits (encodeAlgorithm s.config.num s.rzDuty sc bits) s with
    ⟨ha, he⟩ | ⟨ha, -, he⟩ | ⟨ha, -, ⟨out, -, he⟩ | ⟨e, -, he⟩⟩ <;> simp [ha, he]

/-- `PARSE` is refused exactly for its length. -/
theorem exec_parse_refused_iff {chars : List CharCode} {s : State} :
    exec (.parse chars) s = .refused .lengthOverNMax ↔ s.config.admitsLength chars.length = false := by
  cases h : s.config.admitsLength chars.length with
  | true => simp [exec_parse_of_admitted h]
  | false => simp [exec, execParse, h]

/-- Settles O32: an admitted length leaves the `VALID` test, which fails. -/
theorem encodeNeedsConstruction : Obligations.EncodeNeedsConstruction := by
  intro sc bits s hvalid hadmits
  rw [exec_encodeBits, encodeEntry, hadmits, hvalid]
  rfl

/-- Settles O33: both commands are refused exactly for their length, and no length is over an absent bound. -/
theorem overlongSequencesAreRefused : Obligations.OverlongSequencesAreRefused := by
  intro sc bits chars s
  simp only [ne_eq, exec_encodeBits_refused_iff, exec_parse_refused_iff, Bool.not_eq_false]
  exact ⟨fun _ hm h => admitsLength_of_over hm h, fun _ hm h => admitsLength_of_over hm h,
    fun hn => ⟨admitsLength_unbounded hn _, admitsLength_unbounded hn _⟩⟩

/-- Settles O36: the algorithm reads the configuration and its unit, and RZ's also the duty. -/
theorem outputDependsOnlyOnTheUnit : Obligations.OutputDependsOnlyOnTheUnit := by
  intro sc bits s s' out hconfig hunit hduty
  have halg : encodeAlgorithm s.config.num s.rzDuty sc bits = encodeAlgorithm s.config.num s'.rzDuty sc bits := by
    cases sc with
    | rz => rw [hduty rfl]
    | nrzl | nrzi | man | ami | mlt3 | hdb3 => rfl
  rw [answers_iff, answers_iff, halg, hconfig, hunit]
  exact id

/-! ### The encoder at work over many bits -/

/-- The encoder at work takes the bits in order. -/
def engineRun (s : State) : List Bool → Engine × Wave → Except Fault (Engine × Wave)
  | [], r => .ok r
  | b :: rest, r => (engineBit s r.1 r.2 b).bind (engineRun s rest)

theorem engineRun_cons_ok {s : State} {g : Engine} {a : Wave} {b : Bool} {r : Engine × Wave}
    (h : engineBit s g a b = .ok r) (bits : List Bool) : engineRun s (b :: bits) (g, a) = engineRun s bits r := by
  simp only [engineRun, h]
  rfl

/-- A run over a bit and more has taken the bit first. -/
theorem engineRun_cons_eq_ok {s : State} {g : Engine} {a : Wave} {b : Bool} {bits : List Bool} {r : Engine × Wave}
    (h : engineRun s (b :: bits) (g, a) = .ok r) :
    ∃ g' a', engineBit s g a b = .ok (g', a') ∧ engineRun s bits (g', a') = .ok r := by
  cases hb : engineBit s g a b with
  | ok p => exact ⟨p.1, p.2, rfl, by rwa [engineRun_cons_ok hb] at h⟩
  | error e => simp only [engineRun, hb] at h; cases h

/-- Without a register of its own, the encoder is its loop over the wave. -/
theorem engineRun_wave {s : State} {g : Engine} {next : Wave → Bool → Wave}
    (h : ∀ a b, engineBit s g a b = .ok (g, next a b)) (bits : List Bool) (a : Wave) :
    engineRun s bits (g, a) = .ok (g, bits.foldl next a) := by
  induction bits generalizing a with
  | nil => rfl
  | cons b bits ih => rw [engineRun_cons_ok (h a b), ih, List.foldl_cons]

/-- With one register, the encoder is its loop over the register and the wave. -/
theorem engineRun_register {α : Type} {s : State} {mk : α → Engine} {next : α × Wave → Bool → α × Wave}
    (h : ∀ x a b, engineBit s (mk x) a b = .ok (mk (next (x, a) b).1, (next (x, a) b).2)) (bits : List Bool) (x : α)
    (a : Wave) :
    engineRun s bits (mk x, a) = .ok (mk (bits.foldl next (x, a)).1, (bits.foldl next (x, a)).2) := by
  induction bits generalizing x a with
  | nil => rfl
  | cons b bits ih => rw [engineRun_cons_ok (h x a b), ih, List.foldl_cons]

/-- HDB3's encoder is pass 1, which emits nothing. -/
theorem engineRun_hdb3 (s : State) (bits : List Bool) (h : Hdb3Regs) (a : Wave) :
    engineRun s bits (.hdb3 h, a) = (hdb3Pass1 bits h).map fun h' => (.hdb3 h', a) := by
  induction bits generalizing h with
  | nil => rfl
  | cons b bits ih =>
    cases hb : hdb3Bit h b with
    | ok h' =>
      have hbit : engineBit s (.hdb3 h) a b = .ok (.hdb3 h', a) := by rw [engineBit, hb]
      simp only [hdb3Pass1, hb, ← ih, engineRun_cons_ok hbit]
    | error e => simp only [hdb3Pass1, engineRun, engineBit, hb]; rfl

/-- The output of an `ENCODE` is what the encoder started on its unit leaves after all its bits (R4). -/
theorem engineRun_of_algorithm {s : State} {sc : Scheme} {bits : List Bool} {out : List Segment}
    (h : encodeAlgorithm s.config.num s.rzDuty sc bits (s.unit sc) = .ok out) :
    ∃ g r, engineStart sc (s.unit sc) = .ok g ∧ engineRun s bits (g, .start) = .ok r ∧ engineFinish s r.1 r.2 = out := by
  cases sc with
  | nrzl => cases h; exact ⟨_, _, rfl, engineRun_wave (fun _ _ => rfl) _ _, rfl⟩
  | rz => cases h; exact ⟨_, _, rfl, engineRun_wave (fun _ _ => rfl) _ _, rfl⟩
  | man => cases h; exact ⟨_, _, rfl, engineRun_wave (fun _ _ => rfl) _ _, rfl⟩
  | nrzi => cases h; exact ⟨_, _, rfl, engineRun_register (mk := .nrzi) (fun _ _ _ => rfl) _ _ _, rfl⟩
  | ami => cases h; exact ⟨_, _, rfl, engineRun_register (mk := .ami) (fun _ _ _ => rfl) _ _ _, rfl⟩
  | mlt3 => cases h; exact ⟨_, _, rfl, engineRun_register (mk := .mlt3) (fun _ _ _ => rfl) _ _ _, rfl⟩
  | hdb3 =>
    simp only [encodeAlgorithm, hdb3Run] at h
    split at h
    · cases h
    · next h₀ hinit =>
      split at h
      · cases h
      · next h₁ hpass1 =>
        cases h
        exact ⟨.hdb3 h₀, (.hdb3 h₁, .start), by rw [engineStart, hinit], by rw [engineRun_hdb3, hpass1]; rfl, rfl⟩

theorem engineRun_keeps_wave {s : State} {bits : List Bool} {g : Engine} {a : Wave} {r : Engine × Wave} (ha : a.Sound)
    (h : engineRun s bits (g, a) = .ok r) : r.2.Sound := by
  induction bits generalizing g a with
  | nil => cases h; exact ha
  | cons b bits ih =>
    obtain ⟨g', a', hbit, hrest⟩ := engineRun_cons_eq_ok h
    exact ih (engineBit_keeps_wave ha hbit) hrest

/-- Pass 2 of HDB3 emits its symbols from the start of a wave. -/
theorem hdb3Pass2_contiguous (f : NumFormat) (u : CoderUnit) (sym : List Symb) : Contiguous (hdb3Pass2 f u sym) := by
  have sound : ∀ a : Wave, a.Sound → (sym.foldl (fun a y => emit f u.tb (symLevel f u.v.abs y) a) a).Sound := by
    induction sym with
    | nil => exact fun _ ha => ha
    | cons y sym ih => exact fun a ha => ih _ (emit_sound ha _ _ _)
  exact (sound _ Wave.start_sound).1

/-- Settles O35: the wave is contiguous at the start and stays so over every bit. -/
theorem outputIsContiguous : Obligations.OutputIsContiguous := by
  intro sc bits s out h
  obtain ⟨-, -, halg⟩ := (answers_iff sc bits s out).mp h
  obtain ⟨g, ⟨g', a⟩, -, hrun, rfl⟩ := engineRun_of_algorithm halg
  cases g' with
  | nrzl | nrzi | rz | man | ami | mlt3 => exact (engineRun_keeps_wave Wave.start_sound hrun).1
  | hdb3 h => exact hdb3Pass2_contiguous _ _ _

end Sys2Proof.Machine
end

section
/-! An `ENCODE` presented by `start` and performed bit by bit while the host waits (`spec/00_scope.md` R4, `spec/20_memory.md`
R38, `spec/70_reset_and_hazards.md` R170): it is begun, takes its bits and ends as the whole command does, and until then it
answers nothing. -/

namespace Sys2Proof.Machine

/-! ### Runs that return no response -/

/-- `k` steps lead from `s` to `t` and return no response. -/
def SilentRun (k : Nat) (s t : State) : Prop := run k s = .next t ∧ ∀ m, s.observe (k + m) = t.observe m

theorem SilentRun.refl (s : State) : SilentRun 0 s s := ⟨rfl, fun m => by rw [Nat.zero_add]⟩

theorem SilentRun.trans {j k : Nat} {s t u : State} (h₁ : SilentRun j s t) (h₂ : SilentRun k t u) :
    SilentRun (j + k) s u :=
  ⟨(run_add k h₁.1).trans h₂.1, fun m => by rw [Nat.add_assoc, h₁.2, h₂.2]⟩

/-- One step into a state without a response. -/
theorem SilentRun.step {s t : State} (h : step s = .next t) (hr : t.response = none) : SilentRun 1 s t :=
  ⟨(run_one s).trans h, fun m => by
    rw [Nat.add_comm]
    simp [State.observe, h, hr]⟩

/-! ### The host waits -/

/-- For `n` steps the host waits, by an event or by having none left. -/
def WaitsFor (n : Nat) (l : List HostEvent) : Prop := ∀ i < n, l[i]?.getD .wait = .wait

theorem WaitsFor.head {n : Nat} {l : List HostEvent} (h : WaitsFor (n + 1) l) : l = [] ∨ ∃ rest, l = .wait :: rest := by
  cases l with
  | nil => exact .inl rfl
  | cons e rest =>
    have he : e = .wait := h 0 (Nat.succ_pos n)
    exact .inr ⟨rest, by rw [he]⟩

theorem WaitsFor.tail {n : Nat} {l : List HostEvent} (h : WaitsFor (n + 1) l) : WaitsFor n l.tail := fun i hi => by
  rw [List.getElem?_tail]
  exact h (i + 1) (Nat.succ_lt_succ hi)

/-- `k` waits serve for `n` steps when they are as many, or when nothing follows them. -/
theorem waitsFor_replicate {n k : Nat} {rest : List HostEvent} (h : n ≤ k ∨ rest = []) :
    WaitsFor n (List.replicate k .wait ++ rest) := by
  intro i hi
  rcases Nat.lt_or_ge i k with hlt | hge
  · rw [List.getElem?_append_left (by simpa using hlt), List.getElem?_replicate, if_pos hlt]
    rfl
  · obtain rfl : rest = [] := h.resolve_left (by omega)
    rw [List.append_nil, List.getElem?_replicate, if_neg (by omega)]
    rfl

/-! ### The pieces of an `ENCODE` -/

/-- The block with an `ENCODE` in progress. -/
def State.encodingWith (s : State) (l : List HostEvent) (tr : Transient) : State :=
  { s with inbox := l, busy := some (.encoding tr), response := none }

theorem sameRegisters_encodingWith (s : State) (l : List HostEvent) (tr : Transient) :
    SameRegisters (s.encodingWith l tr) s := ⟨fun sc => by cases sc <;> rfl, rfl, rfl⟩

/-- A wait with a bit left at the cursor takes that bit. -/
theorem step_takes_bit {s : State} {l : List HostEvent} {tr : Transient} {b : Bool} {g : Engine} {a : Wave}
    (hl : l = [] ∨ ∃ rest, l = .wait :: rest) (hb : bitRead tr.bits tr.i = some b)
    (hbit : engineBit s tr.engine tr.wave b = .ok (g, a)) :
    step (s.encodingWith l tr) =
      .next (s.encodingWith l.tail { tr with i := tr.i + 1, wave := a, engine := g }) := by
  have hbit' : engineBit (s.encodingWith l.tail tr) tr.engine tr.wave b = .ok (g, a) :=
    (engineBit_same (sameRegisters_encodingWith s l.tail tr) _ _ _).trans hbit
  rw [step_waiting_encoding (s := s.encodingWith l tr) hl rfl]
  change encodeTick tr (s.encodingWith l.tail tr) = _
  rw [encodeTick, hb]
  simp only [hbit']
  rfl

/-- Over as many waits the encoder takes the next bits, and nothing is answered. -/
theorem silentRun_bits {s : State} {xs : List Bool} {l : List HostEvent} {tr : Transient} {g : Engine} {a : Wave}
    (hl : WaitsFor xs.length l) (hxs : xs <+: tr.bits.drop tr.i)
    (hrun : engineRun s xs (tr.engine, tr.wave) = .ok (g, a)) :
    SilentRun xs.length (s.encodingWith l tr)
      (s.encodingWith (l.drop xs.length) { tr with i := tr.i + xs.length, wave := a, engine := g }) := by
  induction xs generalizing l tr with
  | nil => cases hrun; exact SilentRun.refl _
  | cons b xs ih =>
    obtain ⟨g', a', hbit, hrest⟩ := engineRun_cons_eq_ok hrun
    obtain ⟨ys, hys⟩ := hxs
    have hread : bitRead tr.bits tr.i = some b := by
      rw [bitRead, ← Nat.add_zero tr.i, ← List.getElem?_drop, ← hys]
      rfl
    have hprefix : xs <+: tr.bits.drop (tr.i + 1) := ⟨ys, by rw [← List.drop_drop, ← hys]; rfl⟩
    have hfirst := SilentRun.step (step_takes_bit hl.head hread hbit) rfl
    have hothers := ih (tr := { tr with i := tr.i + 1, wave := a', engine := g' }) hl.tail hprefix hrest
    have h := hfirst.trans hothers
    rwa [List.drop_tail, Nat.add_comm 1, Nat.add_assoc, Nat.add_comm 1] at h

/-- Presenting an `ENCODE` by `start` and beginning it answers nothing. -/
theorem silentRun_begin {s : State} {sc : Scheme} {bits : List Bool} {g : Engine} {l : List HostEvent}
    (hbusy : s.busy = none) (hvalid : (s.unit sc).valid = true) (hadmits : s.config.admitsLength bits.length = true)
    (hinbox : s.inbox = .start (encode (.encodeBits sc bits)) :: l) (hl : l = [] ∨ ∃ rest, l = .wait :: rest)
    (hstart : engineStart sc (s.unit sc) = .ok g) :
    SilentRun 2 s (s.encodingWith l.tail { bits, i := 0, wave := .start, engine := g }) := by
  have hbegin : step ({ s with inbox := l }.present (encode (.encodeBits sc bits))) =
      .next (s.encodingWith l.tail { bits, i := 0, wave := .start, engine := g }) := by
    rw [step_waiting_presented (f := encode (.encodeBits sc bits)) hl rfl]
    generalize hs₁ : State.release _ = s₁
    have hsame : SameRegisters s₁ s := by
      rw [← hs₁]
      exact ⟨fun sc => by cases sc <;> rfl, rfl, rfl⟩
    have hbegins : encodeBegins (.encodeBits sc bits) s₁ = some (sc, bits) :=
      encodeBegins_eq_some_iff.mpr ⟨rfl, by rw [hsame.config]; exact hadmits, by rw [hsame.1]; exact hvalid⟩
    have htr : transientStart sc bits (s₁.unit sc) = .ok { bits, i := 0, wave := .start, engine := g } := by
      rw [transientStart, hsame.1, hstart]
    simp only [beginCommand, decodeOfEncode (.encodeBits sc bits), hbegins, encodeBegin, htr]
    rw [← hs₁]
    rfl
  exact (SilentRun.step (step_start hinbox hbusy) rfl).trans (SilentRun.step hbegin rfl)

/-- A wait with no bit left ends the `ENCODE` with its output. -/
theorem step_ends_encode {s : State} {l : List HostEvent} {tr : Transient} (hl : l = [] ∨ ∃ rest, l = .wait :: rest)
    (hend : bitRead tr.bits tr.i = none) :
    step (s.encodingWith l tr) = .next { s with
      inbox := l.tail, busy := none, response := some (.answer (.segments (engineFinish s tr.engine tr.wave))) } := by
  rw [step_waiting_encoding (s := s.encodingWith l tr) hl rfl, encodeTick, hend]
  cases tr.engine <;> rfl

/-- Presented, begun, and its first `j` bits taken. -/
theorem silentRun_prefix {s : State} {sc : Scheme} {bits : List Bool} {l : List HostEvent} {j : Nat}
    (hbusy : s.busy = none) (hvalid : (s.unit sc).valid = true) (hadmits : s.config.admitsLength bits.length = true)
    (hinbox : s.inbox = .start (encode (.encodeBits sc bits)) :: l) (hl : WaitsFor (j + 1) l) (hj : j ≤ bits.length)
    {out : List Segment} (halg : encodeAlgorithm s.config.num s.rzDuty sc (bits.take j) (s.unit sc) = .ok out) :
    ∃ g a, SilentRun (2 + j) s (s.encodingWith (l.drop (j + 1)) { bits, i := j, wave := a, engine := g }) ∧
      engineFinish s g a = out := by
  obtain ⟨g, ⟨g', a⟩, hstart, hrun, hfinish⟩ := engineRun_of_algorithm halg
  have hlen : (bits.take j).length = j := List.length_take_of_le hj
  have hbits := silentRun_bits (l := l.tail) (tr := { bits, i := 0, wave := .start, engine := g })
    (by rw [hlen]; exact hl.tail) (List.take_prefix j bits) hrun
  rw [hlen, List.drop_tail, Nat.zero_add] at hbits
  exact ⟨g', a, (silentRun_begin hbusy hvalid hadmits hinbox hl.head hstart).trans hbits, hfinish⟩

/-- Settles O10: up to the reset the run is silent, wherever in the `ENCODE` it falls, and the reset answers nothing. -/
theorem interruptedEncodeIsNotAnswered : Obligations.InterruptedEncodeIsNotAnswered := by
  intro s sc bits k hbusy hlegal hvalid hadmits hk hinbox
  have hsilent : ∃ t, SilentRun (k + 1) s t ∧ t.inbox = [.reset] := by
    cases k with
    | zero => exact ⟨_, SilentRun.step (step_start hinbox hbusy) rfl, rfl⟩
    | succ j =>
      obtain ⟨out, hout⟩ := encodeAlgorithm_succeeds s.config.num s.rzDuty (bits.take j) (hlegal.amplitude hvalid)
      obtain ⟨g, a, hrun, -⟩ := silentRun_prefix hbusy hvalid hadmits hinbox (waitsFor_replicate (.inl (Nat.le_refl _)))
        (Nat.le_of_succ_le_succ hk) hout
      exact ⟨_, by rwa [show j + 1 + 1 = 2 + j by omega], by simp [State.encodingWith]⟩
  obtain ⟨t, hrun, hreset⟩ := hsilent
  have h := hrun.trans (SilentRun.step (step_reset hreset) rfl)
  exact ⟨h.2 0, _, h.1, fun sc' => by rw [afterReset_unit, reset_valid], rfl, rfl⟩

/-- Settles O11: after the last bit the wave is the one from which the whole command's algorithm makes its output. -/
theorem serialEncodeRefinesTheCommand : Obligations.SerialEncodeRefinesTheCommand := by
  intro s sc bits k rest hbusy hlegal hvalid hadmits hk hrest hinbox
  obtain ⟨out, hout⟩ := encodeAlgorithm_succeeds s.config.num s.rzDuty bits (hlegal.amplitude hvalid)
  have hwaits : ∀ n ≤ bits.length + 2, WaitsFor n (List.replicate k .wait ++ rest) := fun n hn =>
    waitsFor_replicate (hrest.symm.imp (by omega) id)
  obtain ⟨g, a, hrun, rfl⟩ := silentRun_prefix hbusy hvalid hadmits hinbox (hwaits (bits.length + 1) (by omega))
    (Nat.le_refl _) (by rwa [List.take_length])
  have hlast : WaitsFor 1 ((List.replicate k HostEvent.wait ++ rest).drop (bits.length + 1)) := fun i hi => by
    rw [List.getElem?_drop]
    exact hwaits _ (Nat.le_refl _) _ (by omega)
  have hleft : ((List.replicate k HostEvent.wait ++ rest).drop (bits.length + 1)).tail = rest := by
    rw [List.tail_drop, List.drop_append, List.drop_replicate, List.length_replicate]
    rcases hrest with rfl | rfl
    · simp; omega
    · simp
  have hans := (answers_iff sc bits { s with inbox := rest } _).mpr
    ⟨hadmits, by rwa [unit_with_inbox], by rwa [unit_with_inbox]⟩
  rw [show bits.length + 3 = 2 + bits.length + 1 by omega, run_last hrun.1,
    step_ends_encode hlast.head (List.getElem?_eq_none (Nat.le_refl _)), hleft,
    step_command (s := { s with inbox := .command (encode (.encodeBits sc bits)) :: rest }) rfl hbusy,
    perform_of_decode (decodeOfEncode _), performInstr_of_admitted (by simp)]
  exact hbusy ▸ hans.symm

end Sys2Proof.Machine
end

section
/-! The candidates of every encoder (`spec/41_nrz.md` to `spec/44_hdb3.md`), in the order in which it gives them to `Emit`.
All encoders but RZ give candidates of one width, so that their outputs are `oneWidthOutput` of their levels; RZ's candidates have
two widths. -/

namespace Sys2Proof.Machine

/-- What `Emit` makes of candidates that all have the width `w`. -/
def oneWidthOutput (f : NumFormat) (w : Number) (levels : List Number) : List Segment :=
  (levels.foldl (fun a l => emit f w l a) .start).out

theorem oneWidthOutput_cut (f : NumFormat) (w : Number) (levels : List Number) :
    CutAtTheEnd f w levels (oneWidthOutput f w levels) := cutAtTheEnd_emits f w levels

/-! ### The accumulator and the index -/

/-- An encoder whose register takes each bit before the emission: the level of bit `k` is read off the register after the
bits up to `k`. -/
theorem foldl_emit_next {α : Type} (f : NumFormat) (w : Number) (next : α → Bool → α) (lv : α → Bool → Number) (x : α)
    (bits : List Bool) (a : Wave) :
    (bits.foldl (fun (r : α × Wave) b => (next r.1 b, emit f w (lv (next r.1 b) b) r.2)) (x, a)).2 =
      (bits.mapIdx fun k b => lv ((bits.take (k + 1)).foldl next x) b).foldl (fun a l => emit f w l a) a := by
  have hlevels : (bits.mapIdx fun k b => lv (next ((bits.take k).foldl next x) b) b) =
      bits.mapIdx fun k b => lv ((bits.take (k + 1)).foldl next x) b := by
    refine List.ext_getElem (by simp) fun k h _ => ?_
    rw [List.getElem_mapIdx, List.getElem_mapIdx, List.take_succ_eq_append_getElem (by simpa using h), List.foldl_append]
    rfl
  rw [← hlevels]
  exact congrArg Prod.snd (foldl_emit_acc f w next (fun x b => lv (next x b) b) x bits a)

/-- The ones among one bit more. -/
theorem count_take_succ {bits : List Bool} {k : Nat} (h : k < bits.length) :
    (bits.take (k + 1)).count true = (bits.take k).count true + if bits[k] then 1 else 0 := by
  rw [List.take_succ_eq_append_getElem h, List.count_append, List.count_singleton]
  cases bits[k] <;> rfl

/-- The sign that an inversion at every one leaves, by the parity of the ones (R91, R110). -/
def invertedByOnes (f : NumFormat) (v : Number) (bits : List Bool) (k : Nat) : Number :=
  if (bits.take (k + 1)).count true % 2 = 1 then v.neg f else v

/-- The accumulator after the bits, where inverting twice gives `v` back. -/
theorem foldl_nrziAcc {f : NumFormat} {v : Number} (hv : (v.neg f).neg f = v) (bits : List Bool) :
    bits.foldl (nrziAcc f) v = if bits.count true % 2 = 1 then v.neg f else v := by
  induction bits using List.reverseRecOn with
  | nil => rfl
  | append_singleton bits b ih =>
    rw [List.foldl_append, ih, List.count_append]
    cases b with
    | false => rfl
    | true =>
      simp only [List.foldl_cons, List.foldl_nil, nrziAcc, if_true, List.count_singleton_self]
      rcases Nat.mod_two_eq_zero_or_one (bits.count true) with h | h
      · simp [h, Nat.add_mod]
      · simp [h, Nat.add_mod, hv]

/-- MLT-3's index counts the ones modulo 4 (R111). -/
theorem foldl_mlt3Next (bits : List Bool) :
    bits.foldl mlt3Next 0 = ⟨bits.count true % 4, Nat.mod_lt _ (by decide)⟩ := by
  induction bits using List.reverseRecOn with
  | nil => rfl
  | append_singleton bits b ih =>
    rw [List.foldl_append, ih]
    cases b <;> simp [mlt3Next, List.count_append]

/-- The level of MLT-3's segment `k`. -/
def mlt3LevelAt (f : NumFormat) (v : Number) (bits : List Bool) (k : Nat) : Number :=
  mlt3Level f v ⟨(bits.take (k + 1)).count true % 4, Nat.mod_lt _ (by decide)⟩

/-! ### The candidates -/

theorem nrzlRun_eq (f : NumFormat) (u : CoderUnit) (bits : List Bool) :
    nrzlRun f u bits = oneWidthOutput f u.tb (bits.map fun b => if b then u.v else u.v.neg f) := by
  rw [oneWidthOutput, List.foldl_map]
  rfl

theorem nrziRun_eq (f : NumFormat) {u : CoderUnit} (hv : (u.v.neg f).neg f = u.v) (bits : List Bool) :
    nrziRun f u bits = oneWidthOutput f u.tb (bits.mapIdx fun k _ => invertedByOnes f u.v bits k) := by
  have h := foldl_emit_next f u.tb (nrziAcc f) (fun x _ => x) u.v bits .start
  simp only [foldl_nrziAcc hv] at h
  exact congrArg Wave.out h

/-- AMI keeps NRZ-I's accumulator, and emits it for a mark only. -/
theorem amiBit_eq (f : NumFormat) (u : CoderUnit) (r : Number × Wave) (b : Bool) :
    amiBit f u r b = (nrziAcc f r.1 b, emit f u.tb (if b then nrziAcc f r.1 b else .zero) r.2) := by cases b <;> rfl

theorem amiRun_eq (f : NumFormat) {u : CoderUnit} (hv : (u.v.neg f).neg f = u.v) (bits : List Bool) :
    amiRun f u bits = oneWidthOutput f u.tb (bits.mapIdx fun k b => if b then invertedByOnes f u.v bits k else .zero) := by
  have h := foldl_emit_next f u.tb (nrziAcc f) (fun x b => if b then x else .zero) u.v bits .start
  simp only [foldl_nrziAcc hv] at h
  rw [amiRun, funext₂ (amiBit_eq f u)]
  exact congrArg Wave.out h

theorem mlt3Run_eq (f : NumFormat) (u : CoderUnit) (bits : List Bool) :
    mlt3Run f u bits = oneWidthOutput f u.tb (bits.mapIdx fun k _ => mlt3LevelAt f u.v bits k) := by
  have h := foldl_emit_next f u.tb mlt3Next (fun i _ => mlt3Level f u.v i) 0 bits .start
  simp only [foldl_mlt3Next] at h
  exact congrArg Wave.out h

theorem manRun_eq (f : NumFormat) (u : CoderUnit) (bits : List Bool) :
    manRun f u bits = oneWidthOutput f (manHalf f u)
      (bits.flatMap fun b => if b then [u.v.neg f, u.v] else [u.v, u.v.neg f]) := by
  have hbit : ∀ a b, manBit f u a b =
      (if b then [u.v.neg f, u.v] else [u.v, u.v.neg f]).foldl (fun a l => emit f (manHalf f u) l a) a := by
    intro a b
    cases b <;> rfl
  rw [oneWidthOutput, List.foldl_flatMap, manRun, funext₂ hbit]

theorem hdb3Pass2_eq (f : NumFormat) (u : CoderUnit) (sym : List Symb) :
    hdb3Pass2 f u sym = oneWidthOutput f u.tb (sym.map (symLevel f u.v.abs)) := by
  rw [oneWidthOutput, List.foldl_map]
  rfl

/-- HDB3 in one: pass 1 from the sign of the amplitude, and one candidate for each of its symbols (R129). -/
theorem hdb3Run_eq (f : NumFormat) {u : CoderUnit} {r : Rat} (hv : u.v = .rat r) (hr : r ≠ 0) (bits : List Bool) :
    ∃ h, hdb3Pass1 bits (hdb3Start (if 0 < r then .pos else .neg)) = .ok h ∧ h.sym.length = bits.length ∧
      hdb3Run f u bits = .ok (oneWidthOutput f u.tb (h.sym.map (symLevel f u.v.abs))) := by
  obtain ⟨h, hpass1, hsound⟩ := hdb3Pass1_sound bits (hdb3Start_sound (if 0 < r then .pos else .neg))
  refine ⟨h, hpass1, by simpa using hsound.1, ?_⟩
  have hinit : hdb3Init u = .ok (hdb3Start (if 0 < r then .pos else .neg)) := by rw [hdb3Init, hv, signOf_rat hr]
  simp only [hdb3Run, hinit, hpass1, hdb3Pass2_eq]

/-! ### Candidates of more than one width -/

/-- The candidates of RZ, width and level, two for each bit (R100). -/
def rzCandidates (f : NumFormat) (u : CoderUnit) (duty : Number) (bits : List Bool) : List (Number × Number) :=
  bits.flatMap fun b => [(rzHigh f u duty, if b then u.v else u.v.neg f), (rzLow f u duty, .zero)]

theorem rzRun_eq (f : NumFormat) (u : CoderUnit) (duty : Number) (bits : List Bool) :
    rzRun f u duty bits = ((rzCandidates f u duty bits).foldl (fun a c => emit f c.1 c.2 a) .start).out := by
  rw [rzCandidates, List.foldl_flatMap]
  rfl

/-- Whatever the widths, the output has the levels of its candidates in order, each candidate at most once, and a segment
ends at the sum of its start and its candidate's width. -/
theorem emits_sublist (f : NumFormat) (cands : List (Number × Number)) :
    ((cands.foldl (fun a c => emit f c.1 c.2 a) .start).out.map (·.level)).Sublist (cands.map (·.2)) ∧
      ∀ g ∈ (cands.foldl (fun a c => emit f c.1 c.2 a) .start).out,
        ∃ c ∈ cands, g.level = c.2 ∧ g.stop = g.start.add f c.1 := by
  induction cands using List.reverseRecOn with
  | nil => exact ⟨.slnil, nofun⟩
  | append_singleton cands c ih =>
    obtain ⟨hlevels, hstops⟩ := ih
    have hstops' : ∀ g ∈ (cands.foldl (fun a c => emit f c.1 c.2 a) Wave.start).out,
        ∃ c' ∈ cands ++ [c], g.level = c'.2 ∧ g.stop = g.start.add f c'.1 := fun g hg => by
      obtain ⟨c', hc', h⟩ := hstops g hg
      exact ⟨c', List.mem_append_left _ hc', h⟩
    rw [List.foldl_append, List.map_append]
    simp only [List.foldl_cons, List.foldl_nil]
    rcases emit_cases f c.1 c.2 (cands.foldl (fun a c => emit f c.1 c.2 a) .start) with he | ⟨-, he⟩ <;> rw [he]
    · exact ⟨hlevels.trans (List.sublist_append_left _ _), hstops'⟩
    · refine ⟨by rw [List.map_append]; exact hlevels.append (.refl _), fun g hg => ?_⟩
      rcases List.mem_append.mp hg with hg | hg
      · exact hstops' g hg
      · obtain rfl := List.mem_singleton.mp hg
        exact ⟨c, List.mem_append_right _ (List.mem_singleton_self c), rfl, rfl⟩

end Sys2Proof.Machine
end

section
/-! What the outputs have in common in every `NUM` (`spec/20_memory.md` R35, `spec/70_reset_and_hazards.md` R175):
where candidates are missing, and which levels there are. The property of each scheme's levels with no candidate missing
(`spec/41_nrz.md` R93, `spec/42_rz_manchester.md` R103, `spec/43_ami_mlt3.md` R113) follows from there. -/

namespace Sys2Proof.Machine

/-! ### Levels of a finite non-zero amplitude -/

section NonZeroAmplitude

variable (f : NumFormat) {v : Number}

theorem NonZero.ne_zero (hv : NonZero v) : v ≠ .zero := by
  obtain ⟨r, rfl, hr⟩ := hv
  exact fun h => hr (Number.rat.inj h)

theorem NonZero.neg (hv : NonZero v) : NonZero (v.neg f) := by
  obtain ⟨r, rfl, hr⟩ := hv
  exact ⟨-r, neg_rat f hr, neg_ne_zero.mpr hr⟩

theorem NonZero.neg_ne_self (hv : NonZero v) : v.neg f ≠ v := by
  obtain ⟨r, rfl, hr⟩ := hv
  rw [neg_rat f hr]
  exact fun h => hr (by linarith [Number.rat.inj h])

/-- The magnitude of an amplitude is the amplitude or its inverse, and with it so is the magnitude's inverse. -/
theorem NonZero.abs_eq (hv : NonZero v) :
    (v.abs = v ∧ v.abs.neg f = v.neg f) ∨ (v.abs = v.neg f ∧ v.abs.neg f = v) := by
  obtain ⟨r, rfl, hr⟩ := hv
  rw [abs_rat, neg_rat f hr, neg_rat f (abs_ne_zero.mpr hr)]
  rcases abs_choice r with h | h <;> simp [h]

end NonZeroAmplitude

/-- Under R14 the amplitude of a unit on which an `ENCODE` answers is finite and not zero. -/
theorem nonZero_of_answers {s : State} (hs : s.RegistersLegal) {sc : Scheme} {bits : List Bool} {out : List Segment}
    (h : Answers (.encodeBits sc bits) s out) : NonZero (s.unit sc).v := by
  obtain ⟨-, hvalid, -⟩ := (answers_iff sc bits s out).mp h
  exact (hs.amplitude hvalid).nonZero

/-- Inverting the amplitude of a unit twice gives it back. -/
theorem neg_neg_of_answers {s : State} (hs : s.RegistersLegal) {sc : Scheme} {bits : List Bool} {out : List Segment}
    (h : Answers (.encodeBits sc bits) s out) (f : NumFormat) : ((s.unit sc).v.neg f).neg f = (s.unit sc).v :=
  neg_neg_of_nonZero f (nonZero_of_answers hs h)

/-! ### The end of the output -/

/-- The cycle of R111 at the number of ones. -/
theorem mlt3LevelAt_eq (f : NumFormat) (v : Number) (bits : List Bool) (k : Nat) :
    mlt3LevelAt f v bits k = match (bits.take (k + 1)).count true % 4 with
      | 0 => .zero | 1 => v | 2 => .zero | _ => v.neg f := by
  have cycle : ∀ i : Fin 4, mlt3Level f v i = match i.val with
      | 0 => .zero | 1 => v | 2 => .zero | _ => v.neg f := fun i => by
    fin_cases i <;> rfl
  exact cycle _

/-- Settles O52: each output is what `Emit` makes of its scheme's candidates, of one width by `oneWidthOutput_cut`, RZ's by
`emits_sublist`. -/
theorem roundingCutsOnlyTheEnd : Obligations.RoundingCutsOnlyTheEnd := by
  intro bits s out
  refine ⟨fun h => ?_, fun hs => ⟨fun h => ?_, fun h => ?_, fun h => ?_, fun h => ?_, fun h => ?_, fun h => ?_⟩⟩
  · obtain ⟨-, -, halg⟩ := (answers_iff .nrzl bits s out).mp h
    cases halg
    rw [nrzlRun_eq]
    exact oneWidthOutput_cut _ _ _
  · obtain ⟨-, -, halg⟩ := (answers_iff .nrzi bits s out).mp h
    cases halg
    rw [nrziRun_eq _ (neg_neg_of_answers hs (sc := .nrzi) h _)]
    exact oneWidthOutput_cut _ _ _
  · obtain ⟨-, -, halg⟩ := (answers_iff .man bits s out).mp h
    cases halg
    rw [manRun_eq]
    exact oneWidthOutput_cut _ _ _
  · obtain ⟨-, -, halg⟩ := (answers_iff .ami bits s out).mp h
    cases halg
    rw [amiRun_eq _ (neg_neg_of_answers hs (sc := .ami) h _)]
    exact oneWidthOutput_cut _ _ _
  · obtain ⟨-, -, halg⟩ := (answers_iff .mlt3 bits s out).mp h
    cases halg
    rw [mlt3Run_eq]
    simp only [mlt3LevelAt_eq]
    exact oneWidthOutput_cut _ _ _
  · obtain ⟨-, -, halg⟩ := (answers_iff .hdb3 bits s out).mp h
    obtain ⟨r, hr, hne⟩ := nonZero_of_answers hs (sc := .hdb3) h
    obtain ⟨regs, hpass1, -, hrun⟩ := hdb3Run_eq s.config.num hr hne bits
    rw [encodeAlgorithm, hrun] at halg
    cases halg
    have hlevel : symLevel s.config.num s.hdb3.v.abs = fun y =>
        match y with | .sil => .zero | .pos => s.hdb3.v.abs | .neg => s.hdb3.v.abs.neg s.config.num := by
      funext y
      cases y <;> rfl
    have hr' : s.hdb3.v = .rat r := hr
    refine ⟨regs, ?_, hlevel ▸ oneWidthOutput_cut _ _ _⟩
    rw [hr', Number.zero, gt_rat]
    simpa using hpass1
  · obtain ⟨-, -, halg⟩ := (answers_iff .rz bits s out).mp h
    have hv : NonZero s.rz.v := nonZero_of_answers hs (sc := .rz) h
    cases halg
    rw [rzRun_eq]
    obtain ⟨hlevels, hstops⟩ := emits_sublist s.config.num (rzCandidates s.config.num (s.unit .rz) s.rzDuty bits)
    refine ⟨?_, fun g hg => ?_⟩
    · rw [rzCandidates, List.map_flatMap] at hlevels
      exact hlevels
    · obtain ⟨c, hc, hlevel, hstop⟩ := hstops g hg
      obtain ⟨b, -, hb⟩ := List.mem_flatMap.mp hc
      rw [hstop, hlevel]
      rcases List.mem_pair.mp hb with rfl | rfl
      · have hne : (if b then s.rz.v else s.rz.v.neg s.config.num) ≠ .zero := by
          cases b
          · exact (hv.neg _).ne_zero
          · exact hv.ne_zero
        exact congrArg (Number.add _ _) (if_neg hne).symm
      · exact congrArg (Number.add _ _) (if_pos rfl).symm

/-- A segment of an output that is cut at its end has one of the candidates' levels. -/
theorem CutAtTheEnd.level_mem {f : NumFormat} {w : Number} {levels : List Number} {out : List Segment}
    (h : CutAtTheEnd f w levels out) {g : Segment} (hg : g ∈ out) : g.level ∈ levels :=
  h.1.subset (List.mem_map_of_mem hg)

/-- With no candidate missing the levels of the output are the candidates'. -/
theorem CutAtTheEnd.level_eq {f : NumFormat} {w : Number} {levels : List Number} {out : List Segment}
    (h : CutAtTheEnd f w levels out) (hn : out.length = levels.length) {k : Nat} (hk : k < out.length) :
    out[k].level = levels[k]'(hn ▸ hk) := by
  have hall : out.map (·.level) = levels := h.1.eq_of_length (by rw [List.length_map, hn])
  have hk' := List.getElem_of_eq hall (i := k) (by simpa using hk)
  rwa [List.getElem_map] at hk'

/-! ### The levels -/

theorem invertedByOnes_mem (f : NumFormat) (v : Number) (bits : List Bool) (k : Nat) :
    invertedByOnes f v bits k = v ∨ invertedByOnes f v bits k = v.neg f := by
  unfold invertedByOnes
  split
  · exact .inr rfl
  · exact .inl rfl

theorem mlt3Level_mem (f : NumFormat) (v : Number) (i : Fin 4) :
    mlt3Level f v i = .zero ∨ mlt3Level f v i = v ∨ mlt3Level f v i = v.neg f := by
  fin_cases i
  · exact .inl rfl
  · exact .inr (.inl rfl)
  · exact .inl rfl
  · exact .inr (.inr rfl)

/-- Every level of an output is one of 0, `v` and `-v`, and NRZ-L, NRZ-I and Manchester have `v` and `-v` only. -/
theorem level_of_answers {s : State} (hs : s.RegistersLegal) {sc : Scheme} {bits : List Bool} {out : List Segment}
    (h : Answers (.encodeBits sc bits) s out) {g : Segment} (hg : g ∈ out) :
    (g.level = (s.unit sc).v ∨ g.level = (s.unit sc).v.neg s.config.num) ∨
      (g.level = .zero ∧ sc ≠ .nrzl ∧ sc ≠ .nrzi ∧ sc ≠ .man) := by
  have hv := nonZero_of_answers hs h
  obtain ⟨nrzl, others⟩ := roundingCutsOnlyTheEnd bits s out
  obtain ⟨nrzi, man, ami, mlt3, hdb3, rz⟩ := others hs
  cases sc with
  | nrzl =>
    obtain ⟨b, -, hb⟩ := List.mem_map.mp ((nrzl h).level_mem hg)
    left
    rw [← hb]
    cases b
    · exact .inr rfl
    · exact .inl rfl
  | nrzi =>
    obtain ⟨k, hk, hl⟩ := List.mem_mapIdx.mp ((nrzi h).level_mem hg)
    left
    rw [← hl]
    exact invertedByOnes_mem _ _ bits k
  | man =>
    obtain ⟨b, -, hb⟩ := List.mem_flatMap.mp ((man h).level_mem hg)
    left
    cases b
    · exact List.mem_pair.mp hb
    · exact (List.mem_pair.mp hb).symm
  | ami =>
    obtain ⟨k, hk, hl⟩ := List.mem_mapIdx.mp ((ami h).level_mem hg)
    rw [← hl]
    split
    · exact .inl (invertedByOnes_mem _ _ bits k)
    · exact .inr ⟨rfl, nofun, nofun, nofun⟩
  | mlt3 =>
    obtain ⟨k, hk, hl⟩ := List.mem_mapIdx.mp ((mlt3 h).level_mem hg)
    have hl' : mlt3LevelAt s.config.num s.mlt3.v bits k = g.level := (mlt3LevelAt_eq _ _ bits k).trans hl
    rw [← hl']
    rcases mlt3Level_mem s.config.num s.mlt3.v _ with hz | hz
    · exact .inr ⟨hz, nofun, nofun, nofun⟩
    · exact .inl hz
  | rz =>
    obtain ⟨b, -, hb⟩ := List.mem_flatMap.mp ((rz h).1.subset (List.mem_map_of_mem hg))
    rcases List.mem_pair.mp hb with hb | hb
    · left
      rw [hb]
      cases b
      · exact .inr rfl
      · exact .inl rfl
    · exact .inr ⟨hb, nofun, nofun, nofun⟩
  | hdb3 =>
    obtain ⟨regs, -, hcut⟩ := hdb3 h
    obtain ⟨y, -, hy⟩ := List.mem_map.mp (hcut.level_mem hg)
    rw [← hy]
    cases y with
    | sil => exact .inr ⟨rfl, nofun, nofun, nofun⟩
    | pos => exact .inl ((hv.abs_eq s.config.num).imp And.left And.left)
    | neg => exact .inl ((hv.abs_eq s.config.num).symm.imp And.right And.right)

/-- Settles O37: `v` and `-v` are not zero. -/
theorem levelsComeFromTheAmplitude : Obligations.LevelsComeFromTheAmplitude := by
  intro sc bits s out hs h g hg
  have hv := nonZero_of_answers hs h
  rcases level_of_answers hs h hg with hl | ⟨hl, hnrzl, hnrzi, hman⟩
  · refine ⟨.inr hl, fun _ => ?_⟩
    rcases hl with hl | hl <;> rw [hl]
    · exact hv.ne_zero
    · exact (hv.neg _).ne_zero
  · refine ⟨.inl hl, fun hsc => ?_⟩
    rcases hsc with hsc | hsc | hsc
    · exact absurd hsc hnrzl
    · exact absurd hsc hnrzi
    · exact absurd hsc hman

/-! ### Outputs with no candidate missing -/

/-- One bit more inverts the level exactly when it is a one. -/
theorem invertedByOnes_succ_ne_iff (f : NumFormat) {v : Number} (hv : NonZero v) {bits : List Bool} {k : Nat}
    (h : k + 1 < bits.length) :
    invertedByOnes f v bits (k + 1) ≠ invertedByOnes f v bits k ↔ bits[k + 1] = true := by
  have hne := hv.neg_ne_self f
  unfold invertedByOnes
  rw [count_take_succ h]
  rcases Nat.mod_two_eq_zero_or_one ((bits.take (k + 1)).count true) with hc | hc <;>
    cases bits[k + 1] <;> simp [Nat.add_mod, hc, hne, hne.symm]

/-- Settles O44: each segment's level is `v` inverted by the ones up to its bit. -/
theorem nrziTogglesOnOnes : Obligations.NrziTogglesOnOnes := by
  intro bits s out hs h hn
  have hv : NonZero s.nrzi.v := nonZero_of_answers hs (sc := .nrzi) h
  obtain ⟨-, others⟩ := roundingCutsOnlyTheEnd bits s out
  obtain ⟨nrzi, -⟩ := others hs
  have hcut := nrzi h
  have hlevel : ∀ k, ∀ hk : k < out.length, out[k].level = invertedByOnes s.config.num s.nrzi.v bits k := fun k hk => by
    rw [hcut.level_eq (by simpa using hn) hk, List.getElem_mapIdx, invertedByOnes]
  refine ⟨fun k hk => ?_, fun hk => ?_⟩
  · rw [hlevel, hlevel]
    exact invertedByOnes_succ_ne_iff _ hv hk
  · rw [hlevel, invertedByOnes, count_take_succ hk]
    cases bits[0] <;> rfl

/-- The two halves of bit `k` among the pairs of all bits. -/
theorem getElem?_flatMap_pair {α : Type} (p q : Bool → α) (bits : List Bool) (k : Nat) :
    (bits.flatMap fun b => [p b, q b])[2 * k]? = bits[k]?.map p ∧
      (bits.flatMap fun b => [p b, q b])[2 * k + 1]? = bits[k]?.map q := by
  induction bits generalizing k with
  | nil => simp
  | cons b bits ih =>
    cases k with
    | zero => exact ⟨rfl, rfl⟩
    | succ k => simpa [Nat.mul_succ] using ih k

/-- Settles O48: the two candidates of a bit stand at `2k` and `2k + 1`. -/
theorem manchesterHalvesAreInverse : Obligations.ManchesterHalvesAreInverse := by
  intro bits s out hs h hn k hk
  have hv : NonZero s.man.v := nonZero_of_answers hs (sc := .man) h
  obtain ⟨-, others⟩ := roundingCutsOnlyTheEnd bits s out
  obtain ⟨-, man, -⟩ := others hs
  have hcut := man h
  have hpairs :
      (bits.flatMap fun b => if b then [s.man.v.neg s.config.num, s.man.v] else [s.man.v, s.man.v.neg s.config.num]) =
        bits.flatMap fun b =>
          [if b then s.man.v.neg s.config.num else s.man.v, if b then s.man.v else s.man.v.neg s.config.num] :=
    congrArg (bits.flatMap ·) (funext fun b => by cases b <;> rfl)
  rw [hpairs] at hcut
  have hlen : out.length = (bits.flatMap fun b =>
      [if b then s.man.v.neg s.config.num else s.man.v, if b then s.man.v else s.man.v.neg s.config.num]).length := by
    simp [hn, Nat.mul_comm]
  obtain ⟨hfirst, hsecond⟩ := getElem?_flatMap_pair (fun b => if b then s.man.v.neg s.config.num else s.man.v)
    (fun b => if b then s.man.v else s.man.v.neg s.config.num) bits k
  rw [List.getElem?_eq_getElem (by omega), List.getElem?_eq_getElem hk, Option.map_some, Option.some_inj] at hfirst hsecond
  rw [hcut.level_eq hlen (by omega), hcut.level_eq hlen (by omega), hfirst, hsecond]
  cases bits[k] with
  | false => simp
  | true => simp [neg_neg_of_nonZero _ hv, hv.neg_ne_self]

/-- A one moves MLT-3 to a neighbour in its cycle, which has another level and of which one is 0 (R113). -/
theorem mlt3Level_next {f : NumFormat} {v : Number} (hv : NonZero v) (i : Fin 4) (b : Bool) :
    (mlt3Level f v (mlt3Next i b) ≠ mlt3Level f v i ↔ b = true) ∧
      (mlt3Level f v i ≠ .zero → mlt3Level f v (mlt3Next i b) ≠ .zero →
        mlt3Level f v (mlt3Next i b) = mlt3Level f v i) := by
  have h := hv.ne_zero
  have h' := (hv.neg f).ne_zero
  cases b with
  | false => simp [mlt3Next]
  | true => fin_cases i <;> simp [mlt3Next, mlt3Level, h, h', h.symm, h'.symm]

theorem mlt3LevelAt_succ (f : NumFormat) (v : Number) {bits : List Bool} {k : Nat} (h : k + 1 < bits.length) :
    ∃ i, mlt3LevelAt f v bits k = mlt3Level f v i ∧
      mlt3LevelAt f v bits (k + 1) = mlt3Level f v (mlt3Next i bits[k + 1]) := by
  refine ⟨_, rfl, congrArg (mlt3Level f v) ?_⟩
  rw [Fin.ext_iff]
  simp only [count_take_succ h]
  cases bits[k + 1] <;> simp [mlt3Next]

/-- Settles O51: neighbouring segments are at neighbouring places of the cycle, or at the same place. -/
theorem mltThreeTransitions : Obligations.MltThreeTransitions := by
  intro bits s out hs h hn k hk
  have hv : NonZero s.mlt3.v := nonZero_of_answers hs (sc := .mlt3) h
  obtain ⟨-, others⟩ := roundingCutsOnlyTheEnd bits s out
  obtain ⟨-, -, -, mlt3, -⟩ := others hs
  have hcut := mlt3 h
  have hlevel : ∀ k, ∀ hk : k < out.length, out[k].level = mlt3LevelAt s.config.num s.mlt3.v bits k := fun k hk => by
    rw [hcut.level_eq (by simpa using hn) hk, List.getElem_mapIdx]
    exact (mlt3LevelAt_eq _ _ bits k).symm
  obtain ⟨i, hi, hnext⟩ := mlt3LevelAt_succ s.config.num s.mlt3.v hk
  rw [hlevel, hlevel, hi, hnext]
  exact mlt3Level_next hv i _

end Sys2Proof.Machine
end

section
/-! `Emit` and the operations (`spec/20_memory.md` R35, `spec/00_scope.md` R5), and the whole outputs in the reference `NUM`,
`Q` (`spec/41_nrz.md` to `spec/43_ami_mlt3.md`). In `Q` no candidate of positive width is dropped, and the clock before bit
`k` is `k * tb`. -/

namespace Sys2Proof

/-! ### The operations -/

/-- The exact sum rounded is the sum in every `NUM`, also where it is zero. -/
theorem add_rat (f : NumFormat) (x y : Rat) : (Number.rat x).add f (.rat y) = Number.round f (x + y) := by
  simp only [Number.add, Number.addFinite, exactAdd_eq]
  split
  · next h =>
    rw [Rat.num_eq_zero.mp h]
    cases f <;> rfl
  · rfl

/-- Settles O41: each operation and each comparison by its law in `Q`. -/
theorem referenceArithmeticIsExact : Obligations.ReferenceArithmeticIsExact := fun x y =>
  ⟨add_rational x y, sub_rational x y, mul_rational x y, neg_rational x, abs_rat x, by simp, by simp, by simp, by simp⟩

/-- Only the positive numbers and the positive infinity are greater than 0. -/
theorem gt_zero_iff {w : Number} : w.gt .zero = true ↔ (∃ r : Rat, 0 < r ∧ w = .rat r) ∨ w = .inf false := by
  cases w with
  | rat x => simp [Number.zero]
  | negZero => simp [Number.gt, Number.place, Number.zero]
  | inf neg => cases neg <;> simp [Number.gt, Number.place, Number.zero]
  | nan => simp [Number.gt, Number.place]

/-- Nothing lies beyond the sum of the positive infinity and a number. -/
theorem inf_add_gt_inf (f : NumFormat) (w : Number) : ((Number.inf false).add f w).gt (.inf false) = false := by
  cases w with
  | rat x => exact gt_irrefl _
  | negZero => exact gt_irrefl _
  | inf neg =>
    cases neg with
    | false => exact gt_irrefl _
    | true => rfl
  | nan => rfl

namespace Machine

/-- A candidate whose width is not positive is dropped. -/
theorem emit_of_not_gt_zero {f : NumFormat} {w lv : Number} {a : Wave} (h : ¬ w.gt .zero = true) : emit f w lv a = a := by
  rw [emit_eq_if, if_neg fun hc => h hc.1]

/-- A candidate that does not move the clock forward is dropped. -/
theorem emit_of_not_later {f : NumFormat} {w lv : Number} {a : Wave} (h : (a.t.add f w).gt a.t = false) :
    emit f w lv a = a := by
  rw [emit_eq_if, if_neg fun hc => Bool.noConfusion (h.symm.trans hc.2)]

/-- Settles O38: the two tests of `Emit`, what fails the first and what fails the second. -/
theorem emitKeepsOrDropsTheCandidate : Obligations.EmitKeepsOrDropsTheCandidate := by
  refine ⟨emit_rational, fun f t w lv out => emit_eq_if f w lv _, add_rat, fun f w lv a hrat hinf => ?_,
    fun f t w lv out h => ?_, fun f w lv out => ?_⟩
  · refine emit_of_not_gt_zero fun hw => ?_
    rcases gt_zero_iff.mp hw with ⟨r, hr, rfl⟩ | hw
    · exact hrat r hr rfl
    · exact hinf hw
  · exact emit_of_not_later (by rw [h]; exact gt_irrefl t)
  · exact emit_of_not_later (inf_add_gt_inf f w)

/-! ### Outputs in `Q` -/

/-- In `Q` a candidate of positive width becomes a segment. -/
theorem emit_rational_pos {w : Rat} (hw : 0 < w) (t : Rat) (lv : Number) (out : List Segment) :
    emit .rational (.rat w) lv { t := .rat t, out } =
      { t := .rat (t + w), out := out ++ [{ start := .rat t, stop := .rat (t + w), level := lv }] } := by
  rw [emit_rational, if_pos hw]

/-- A loop in `Q` whose step for bit `k` appends `segs k` and moves the clock from `k * tb` to `(k + 1) * tb`. -/
theorem foldl_rational {α : Type} {tb : Rat} {next : Wave → α → Wave} {segs : Nat → α → List Segment}
    (h : ∀ (k : Nat) (out : List Segment) (x : α),
      next { t := .rat (k * tb), out } x = { t := .rat ((k + 1) * tb), out := out ++ segs k x }) (xs : List α) :
    (xs.foldl next .start).out = (xs.mapIdx segs).flatten := by
  suffices hwave : xs.foldl next .start = { t := .rat (xs.length * tb), out := (xs.mapIdx segs).flatten } by
    rw [hwave]
  induction xs using List.reverseRecOn with
  | nil => simp [Wave.start, Number.zero]
  | append_singleton xs x ih =>
    rw [List.foldl_append, ih, List.mapIdx_concat, List.flatten_append]
    simp [h]

/-- In `Q` candidates of one positive width all become segments, of which each holds from `k * tb` to `(k + 1) * tb`. -/
theorem oneWidthOutput_rational {tb : Rat} (htb : 0 < tb) (levels : List Number) :
    oneWidthOutput .rational (.rat tb) levels =
      levels.mapIdx fun k l => { start := .rat (k * tb), stop := .rat ((k + 1) * tb), level := l } := by
  have hstep := foldl_rational (tb := tb) (next := fun a l => emit .rational (.rat tb) l a)
    (segs := fun k l => [{ start := .rat (k * tb), stop := .rat ((k + 1) * tb), level := l }])
    (fun k out l => by rw [emit_rational_pos htb, add_one_mul]) levels
  rw [oneWidthOutput, hstep, List.mapIdx_eq_zipIdx_map, List.mapIdx_eq_zipIdx_map, ← List.flatMap_def,
    List.map_eq_flatMap]

/-- `ENCODE` answers in `Q` what its algorithm gives there. -/
theorem answers_of_algorithm {s : State} {sc : Scheme} {bits : List Bool} {u : CoderUnit} {out : List Segment}
    (hnum : s.config.num = .rational) (hadmits : s.config.admitsLength bits.length = true) (hunit : s.unit sc = u)
    (hvalid : u.valid = true) (halg : encodeAlgorithm .rational s.rzDuty sc bits u = .ok out) :
    Answers (.encodeBits sc bits) s out :=
  (answers_iff sc bits s out).mpr ⟨hadmits, by rw [hunit]; exact hvalid, by rw [hnum, hunit]; exact halg⟩

theorem ite_rat (c : Prop) [Decidable c] (x y : Rat) :
    (if c then Number.rat x else .rat y) = .rat (if c then x else y) := (apply_ite Number.rat c x y).symm

/-- In `Q` inverting twice gives every number back, 0 too. -/
theorem neg_neg_rational (v : Rat) : ((Number.rat v).neg .rational).neg .rational = .rat v := by
  rw [neg_rational, neg_rational, neg_neg]

theorem invertedByOnes_rational (v : Rat) (bits : List Bool) (k : Nat) :
    invertedByOnes .rational (.rat v) bits k = .rat (if (bits.take (k + 1)).count true % 2 = 1 then -v else v) := by
  rw [invertedByOnes, neg_rational, ite_rat]

/-- Settles O42: candidate `k` has the width `tb` and the level of bit `k`. -/
theorem nrzlOutput : Obligations.NrzlOutput := by
  intro tb v bits s hnum hadmits htb hunit
  refine answers_of_algorithm (sc := .nrzl) hnum hadmits hunit rfl (congrArg Except.ok ?_)
  rw [nrzlRun_eq, oneWidthOutput_rational htb]
  simp [List.mapIdx_eq_zipIdx_map, List.zipIdx_map, ite_rat, Function.comp_def]

/-- Settles O43: candidate `k` has the width `tb` and the accumulator as its level. -/
theorem nrziOutput : Obligations.NrziOutput := by
  intro tb v bits s hnum hadmits htb hunit
  refine answers_of_algorithm (sc := .nrzi) hnum hadmits hunit rfl (congrArg Except.ok ?_)
  rw [nrziRun_eq _ (neg_neg_rational v), oneWidthOutput_rational htb, List.mapIdx_mapIdx]
  simp only [Function.comp_def, invertedByOnes_rational]

/-- Settles O49: candidate `k` has the width `tb`, and the accumulator as its level where bit `k` is a mark. -/
theorem amiOutput : Obligations.AmiOutput := by
  intro tb v bits s hnum hadmits htb hunit
  refine answers_of_algorithm (sc := .ami) hnum hadmits hunit rfl (congrArg Except.ok ?_)
  rw [amiRun_eq _ (neg_neg_rational v), oneWidthOutput_rational htb, List.mapIdx_mapIdx]
  simp only [Function.comp_def, invertedByOnes_rational, Number.zero, ite_rat]

/-- Settles O50: candidate `k` has the width `tb` and the level of the cycle at the number of ones. -/
theorem mltThreeOutput : Obligations.MltThreeOutput := by
  intro tb v bits s hnum hadmits htb hunit
  refine answers_of_algorithm (sc := .mlt3) hnum hadmits hunit rfl (congrArg Except.ok ?_)
  rw [mlt3Run_eq, oneWidthOutput_rational htb, List.mapIdx_mapIdx]
  have cycle : ∀ i : Fin 4, mlt3Level .rational (.rat v) i = .rat (match i.val with
      | 0 => 0 | 1 => v | 2 => 0 | _ => -v) := fun i => by
    fin_cases i
    · rfl
    · rfl
    · rfl
    · exact neg_rational v
  refine List.ext_getElem (by simp) fun k _ _ => ?_
  rw [List.getElem_mapIdx, List.getElem_mapIdx]
  exact congrArg (Segment.mk _ _) (cycle _)

/-- The first half of a bit ends, and the second starts, inside its period. -/
theorem rational_width_split (k duty tb : Rat) :
    k * tb + duty * tb = (k + duty) * tb ∧ (k + duty) * tb + (1 - duty) * tb = (k + 1) * tb := by
  constructor <;> ring

/-- Settles O45: each bit appends two segments of the widths `duty * tb` and `(1 - duty) * tb`, both positive. -/
theorem rzOutput : Obligations.RzOutput := by
  intro tb v duty bits s hnum hadmits htb hduty hlt hunit hs
  refine answers_of_algorithm (sc := .rz) hnum hadmits hunit rfl (congrArg Except.ok ?_)
  refine foldl_rational (tb := tb) (fun k out b => ?_) bits
  obtain ⟨hhigh, hlow⟩ := rational_width_split k duty tb
  have hpos : 0 < (1 - duty) * tb := mul_pos (sub_pos.mpr hlt) htb
  rw [rzBit, rzHigh, rzLow, hs, Number.one, sub_rational, mul_rational, mul_rational, neg_rational,
    emit_rational_pos (mul_pos hduty htb), emit_rational_pos hpos, hhigh, hlow, ite_rat]
  simp

/-- Settles O47: each bit appends two segments of the width `tb / 2`. -/
theorem manchesterOutput : Obligations.ManchesterOutput := by
  intro tb v bits s hnum hadmits htb hunit
  refine answers_of_algorithm (sc := .man) hnum hadmits hunit rfl (congrArg Except.ok ?_)
  refine foldl_rational (tb := tb) (fun k out b => ?_) bits
  obtain ⟨hfirst, hsecond⟩ := rational_width_split k (1 / 2) tb
  have hpos : 0 < (1 / 2 : Rat) * tb := mul_pos one_half_pos htb
  have hhalf : manHalf .rational { valid := true, tb := .rat tb, v := .rat v } = .rat (1 / 2 * tb) := by
    rw [manHalf, Number.half, mul_rational, Rat.mkRat_eq_div]
    norm_num
  rw [sub_half] at hsecond
  simp only [manBit, hhalf, neg_rational, emit_rational_pos hpos, hfirst, hsecond]
  cases b <;> simp

/-- With `duty = 1` RZ's second candidate is dropped, and the first is NRZ-L's (R100). -/
theorem rzBit_full_duty {u : CoderUnit} {tb : Rat} (htb : u.tb = .rat tb) (a : Wave) (b : Bool) :
    rzBit .rational u (.rat 1) a b = nrzlBit .rational u a b := by
  have hhigh : rzHigh .rational u (.rat 1) = u.tb := by rw [rzHigh, htb, mul_rational, one_mul]
  have hlow : ¬ (rzLow .rational u (.rat 1)).gt .zero = true := by
    simp [rzLow, htb, Number.one, Number.zero]
  rw [rzBit, emit_of_not_gt_zero hlow, hhigh, nrzlBit]

/-- Settles O46: bit by bit the two encoders do the same. -/
theorem rzAtFullDutyIsNrzl : Obligations.RzAtFullDutyIsNrzl := by
  intro tb v bits s out hnum htb hrz hduty hnrzl
  have hrun : rzRun .rational s.rz (.rat 1) bits = nrzlRun .rational s.rz bits := by
    rw [rzRun, nrzlRun, funext₂ (rzBit_full_duty (congrArg CoderUnit.tb hrz))]
  have hrz' := answers_iff .rz bits s out
  have hnrzl' := answers_iff .nrzl bits s out
  simp only [State.unit, encodeAlgorithm, hnum, hduty, hrun, hnrzl] at hrz' hnrzl'
  exact hrz'.trans hnrzl'.symm

end Machine

end Sys2Proof
end

section
/-! HDB3's symbols (`spec/44_hdb3.md` R131, R132) and what its output makes of them. What holds of the registers at the start
of pass 1 and is kept by its four kinds of step holds at its end; each property of the symbols is an invariant of that
kind. -/

namespace Sys2Proof.Machine

/-! ### Induction over pass 1 -/

/-- A property of the registers that a mark, a silence and both substitutions keep holds after every bit sequence. -/
theorem hdb3Pass1_induction {P : Hdb3Regs → Prop} {p : Polarity} (start : P (hdb3Start p)) (mark : ∀ h, P h → P (hdb3One h))
    (silence : ∀ h, h.zeros < 3 → P h → P { h with zeros := h.zeros + 1, sym := h.sym ++ [.sil] })
    (odd : ∀ h, Odd h.marks → P h → P ⟨h.pol, 0, 0, h.sym ++ [symOf h.pol]⟩)
    (even : ∀ h base, Even h.marks → h.sym = base ++ [.sil, .sil, .sil] → P h →
      P ⟨Polarity.inv h.pol, 0, 0, base ++ [symOf (Polarity.inv h.pol), .sil, .sil, symOf (Polarity.inv h.pol)]⟩)
    {bits : List Bool} {h : Hdb3Regs} (hpass1 : hdb3Pass1 bits (hdb3Start p) = .ok h) : P h := by
  induction bits using List.reverseRecOn generalizing h with
  | nil => cases hpass1; exact start
  | append_singleton bits b ih =>
    obtain ⟨h₁, hprefix, hsound⟩ := hdb3Pass1_sound bits (hdb3Start_sound p)
    have hP := ih hprefix
    have hbit : hdb3Bit h₁ b = .ok h := by
      rw [hdb3Pass1_append, hprefix] at hpass1
      simp only [hdb3Pass1] at hpass1
      split at hpass1
      · next h₂ h₂eq => cases hpass1; exact h₂eq
      · cases hpass1
    rcases hdb3Bit_cases hsound b with ⟨-, he⟩ | ⟨-, hz, he⟩ | ⟨-, base, -, hs, he⟩ <;> cases hbit.symm.trans he
    · exact mark h₁ hP
    · exact silence h₁ hz hP
    · rcases Nat.even_or_odd h₁.marks with hm | hm
      · rw [hdb3Substitute_of_even base hm]
        exact even h₁ base hm hs hP
      · rw [hdb3Substitute_of_odd base hm]
        have hodd := odd h₁ hm hP
        rwa [hs, List.append_assoc] at hodd

/-! ### R131 -/

/-- The symbols other than silences. -/
def marksOf (sym : List Symb) : List Symb := sym.filter (· ≠ .sil)

@[simp] theorem marksOf_append (xs ys : List Symb) : marksOf (xs ++ ys) = marksOf xs ++ marksOf ys := List.filter_append ..

@[simp] theorem marksOf_nil : marksOf [] = [] := rfl

@[simp] theorem marksOf_cons_sil (xs : List Symb) : marksOf (.sil :: xs) = marksOf xs := rfl

@[simp] theorem marksOf_cons_symOf (p : Polarity) (xs : List Symb) : marksOf (symOf p :: xs) = symOf p :: marksOf xs := by
  cases p <;> rfl

/-- `pol` is the polarity of the last non-zero symbol, or the initial one (R131 (c)). -/
theorem hdb3Pass1_pol {bits : List Bool} {p : Polarity} {h : Hdb3Regs} (hpass1 : hdb3Pass1 bits (hdb3Start p) = .ok h) :
    (marksOf h.sym).getLast?.getD (symOf p) = symOf h.pol := by
  refine hdb3Pass1_induction (P := fun h => (marksOf h.sym).getLast?.getD (symOf p) = symOf h.pol)
    ?start ?mark ?silence ?odd ?even hpass1
  case start => rfl
  case mark => intro h _; simp [hdb3One]
  case silence => intro h _ ih; simpa using ih
  case odd => intro h _ _; simp
  case even => intro h base _ _ _; simp

/-- Settles O54: pass 1 keeps its registers sound, and `pol` is the last mark's. -/
theorem hdbThreePassOneInvariants : Obligations.HdbThreePassOneInvariants := by
  intro bits p
  obtain ⟨h, hpass1, hlen, hzeros, -, hsil⟩ := hdb3Pass1_sound bits (hdb3Start_sound p)
  exact ⟨h, hpass1, by simpa using hlen, hzeros, by rwa [hlen], hdb3Pass1_pol hpass1⟩

/-- One bit more leaves all symbols but the last three alone. -/
theorem hdb3Bit_take {h h' : Hdb3Regs} {n : Nat} (hs : h.Sound n) {b : Bool} (hbit : hdb3Bit h b = .ok h') :
    h'.sym.take (n - 3) = h.sym.take (n - 3) := by
  obtain ⟨hlen, -⟩ := id hs
  rcases hdb3Bit_cases hs b with ⟨-, he⟩ | ⟨-, -, he⟩ | ⟨-, base, -, hsym, he⟩ <;> cases hbit.symm.trans he
  · exact List.take_append_of_le_length (by omega)
  · exact List.take_append_of_le_length (by omega)
  · have hbase : n - 3 = base.length := by simp [← hlen, hsym]
    unfold hdb3Substitute
    split <;> simp [hsym, hbase]

/-- So do any number of bits more (R131 (d)). -/
theorem hdb3Pass1_take (more : List Bool) {h h' : Hdb3Regs} {n : Nat} (hs : h.Sound n) (hmore : hdb3Pass1 more h = .ok h') :
    h'.sym.take (n - 3) = h.sym.take (n - 3) := by
  induction more generalizing h n with
  | nil => cases hmore; rfl
  | cons b more ih =>
    obtain ⟨h₁, hbit, hs₁⟩ := hdb3Bit_sound hs b
    simp only [hdb3Pass1, hbit] at hmore
    have hrest := congrArg (List.take (n - 3)) (ih hs₁ hmore)
    rw [List.take_take, List.take_take, min_eq_left (by omega)] at hrest
    rw [hrest, hdb3Bit_take hs hbit]

/-- Settles O55: a symbol with three bits behind it is among those that stay. -/
theorem hdbThreeLookbackIsThree : Obligations.HdbThreeLookbackIsThree := by
  intro bits more p h h' k hpass1 hlonger hk
  obtain ⟨h₁, hpass1', hs⟩ := hdb3Pass1_sound bits (hdb3Start_sound p)
  cases hpass1.symm.trans hpass1'
  rw [hdb3Pass1_append, hpass1] at hlonger
  have hsame := congrArg (·[k]?) (hdb3Pass1_take more hs hlonger)
  simpa [List.getElem?_take, show k < bits.length - 3 by omega] using hsame

/-! ### R132 (a): no four silences -/

section Silences

variable {sym : List Symb}

/-- No silence ends symbols that end in a mark. -/
theorem not_silences_suffix_mark {y : Symb} (hy : y ≠ .sil) (k : Nat) :
    ¬ List.replicate (k + 1) .sil <:+ sym ++ [y] := by
  rw [List.replicate_succ', List.suffix_append_inj_of_length_eq (s₁ := [Symb.sil]) (s₂ := [y]) rfl]
  exact fun h => hy (List.head_eq_of_cons_eq h.2).symm

theorem silences_suffix_silence {k : Nat} :
    List.replicate (k + 1) .sil <:+ sym ++ [.sil] ↔ List.replicate k .sil <:+ sym := by
  rw [List.replicate_succ', List.suffix_append_self_iff]

/-- A mark does not complete a run of silences. -/
theorem not_four_silences_mark {y : Symb} (hy : y ≠ .sil) (h : ¬ List.replicate 4 .sil <:+: sym) :
    ¬ List.replicate 4 .sil <:+: sym ++ [y] := by
  rw [List.infix_concat_iff]
  exact not_or.mpr ⟨not_silences_suffix_mark hy 3, h⟩

/-- Nor does a silence after fewer than three. -/
theorem not_four_silences_silence {k : Nat} (hk : k < 3) (hend : ¬ List.replicate (k + 1) .sil <:+ sym)
    (h : ¬ List.replicate 4 .sil <:+: sym) : ¬ List.replicate 4 .sil <:+: sym ++ [.sil] := by
  rw [List.infix_concat_iff, silences_suffix_silence]
  refine not_or.mpr ⟨fun h3 => hend (.trans ⟨List.replicate (3 - (k + 1)) .sil, ?_⟩ h3), h⟩
  rw [← List.replicate_add]
  congr 1
  omega

end Silences

/-- No four silences stand together, and no more than the zeros counted stand at the end. -/
def Hdb3Regs.RunsBroken (h : Hdb3Regs) : Prop :=
  ¬ List.replicate 4 .sil <:+: h.sym ∧ ¬ List.replicate (h.zeros + 1) .sil <:+ h.sym

theorem hdb3Pass1_runsBroken {bits : List Bool} {p : Polarity} {h : Hdb3Regs}
    (hpass1 : hdb3Pass1 bits (hdb3Start p) = .ok h) : h.RunsBroken := by
  refine hdb3Pass1_induction (P := Hdb3Regs.RunsBroken) ?start ?mark ?silence ?odd ?even hpass1
  case start => simp [Hdb3Regs.RunsBroken, hdb3Start]
  case mark =>
    rintro h ⟨hfour, -⟩
    exact ⟨not_four_silences_mark (symOf_ne_sil _) hfour, not_silences_suffix_mark (symOf_ne_sil _) 0⟩
  case silence =>
    rintro h hz ⟨hfour, hend⟩
    exact ⟨not_four_silences_silence hz hend hfour, fun h' => hend (silences_suffix_silence.mp h')⟩
  case odd =>
    rintro h - ⟨hfour, -⟩
    exact ⟨not_four_silences_mark (symOf_ne_sil _) hfour, not_silences_suffix_mark (symOf_ne_sil _) 0⟩
  case even =>
    rintro ⟨pol, marks, zeros, sym⟩ base - rfl ⟨hfour, -⟩
    have hbase : ¬ List.replicate 4 .sil <:+: base := fun hb => hfour (List.infix_append_of_infix_left hb)
    generalize hV : symOf (Polarity.inv pol) = V
    have hV' : V ≠ .sil := hV ▸ symOf_ne_sil _
    have hB := not_four_silences_mark hV' hbase
    have hB0 := not_four_silences_silence (k := 0) (by decide) (not_silences_suffix_mark hV' 0) hB
    have hB00 := not_four_silences_silence (k := 1) (by decide)
      (fun h => not_silences_suffix_mark hV' 0 (silences_suffix_silence.mp h)) hB0
    have hB00V := not_four_silences_mark hV' hB00
    have hend := not_silences_suffix_mark (sym := base ++ [V] ++ [.sil] ++ [.sil]) hV' 0
    simp only [List.append_assoc, List.cons_append, List.nil_append] at hB00V hend
    exact ⟨hB00V, hend⟩

/-- Settles O56: the runs stay broken. -/
theorem hdbThreeBreaksZeroRuns : Obligations.HdbThreeBreaksZeroRuns := fun _ _ _ hpass1 => (hdb3Pass1_runsBroken hpass1).1

/-! ### R132 (d): violations alternate -/

/-- At place `i + 1` the polarity `q` is repeated. -/
def Violation (w : List Polarity) (i : Nat) (q : Polarity) : Prop := w[i]? = some q ∧ w[i + 1]? = some q

/-- The marks so far, the initial polarity before them: violations alternate, and since the last one the polarity has been
inverted `marks` times. -/
structure Balanced (w : List Polarity) (pol : Polarity) (marks : Nat) : Prop where
  last : w.getLast? = some pol
  alternate : ∀ i j q r, i < j → Violation w i q → Violation w j r →
    (∀ m, i < m → m < j → ∀ q', ¬ Violation w m q') → q ≠ r
  since : ∀ i q, Violation w i q → (∀ m, i < m → ∀ q', ¬ Violation w m q') →
    pol = if marks % 2 = 0 then q else Polarity.inv q

theorem Violation.lt_length {w : List Polarity} {i : Nat} {q : Polarity} (h : Violation w i q) : i + 1 < w.length :=
  (List.getElem?_eq_some_iff.mp h.2).1

/-- One mark more is a violation exactly when it repeats the last one. -/
theorem violation_concat {w : List Polarity} {pol x : Polarity} (hlast : w.getLast? = some pol) {i : Nat} {q : Polarity} :
    Violation (w ++ [x]) i q ↔ Violation w i q ∨ (i + 1 = w.length ∧ q = pol ∧ x = pol) := by
  rw [List.getLast?_eq_getElem?] at hlast
  unfold Violation
  rcases Nat.lt_trichotomy (i + 1) w.length with hlt | heq | hgt
  · rw [List.getElem?_append_left (by omega), List.getElem?_append_left hlt]
    simp [hlt.ne]
  · obtain rfl : i = w.length - 1 := by omega
    rw [List.getElem?_append_left (by omega), heq, hlast, List.getElem?_concat_length, List.getElem?_eq_none (Nat.le_refl _)]
    simp only [Option.some_inj, reduceCtorEq, and_false, false_or, true_and]
    constructor
    · rintro ⟨rfl, rfl⟩; exact ⟨rfl, rfl⟩
    · rintro ⟨rfl, rfl⟩; exact ⟨rfl, rfl⟩
  · rw [List.getElem?_eq_none (l := w) (i := i + 1) (by omega), List.getElem?_eq_none (i := i + 1) (by simp; omega)]
    simp [hgt.ne']

theorem Balanced.start (p : Polarity) : Balanced [p] p 0 where
  last := rfl
  alternate _ _ _ _ _ h := absurd h.lt_length (by simp)
  since _ _ h := absurd h.lt_length (by simp)

/-- A mark of inverted polarity is no violation. -/
theorem Balanced.mark {w : List Polarity} {pol : Polarity} {marks : Nat} (h : Balanced w pol marks) :
    Balanced (w ++ [Polarity.inv pol]) (Polarity.inv pol) (marks + 1) := by
  have hviol : ∀ i q, Violation (w ++ [Polarity.inv pol]) i q ↔ Violation w i q := fun i q => by
    simp [violation_concat h.last, inv_ne]
  refine ⟨by simp, ?_, ?_⟩
  · simpa only [hviol] using h.alternate
  · intro i q hi hnone
    simp only [hviol] at hi hnone
    rw [h.since i q hi hnone]
    rcases Nat.mod_two_eq_zero_or_one marks with hm | hm <;> simp [Nat.add_mod, hm]

/-- After an odd number of marks the last polarity repeated is the opposite of the last violation. -/
theorem Balanced.violation {w : List Polarity} {pol : Polarity} {marks : Nat} (h : Balanced w pol marks)
    (hodd : Odd marks) : Balanced (w ++ [pol]) pol 0 := by
  have hviol : ∀ i q, Violation (w ++ [pol]) i q ↔ Violation w i q ∨ (i + 1 = w.length ∧ q = pol) := fun i q => by
    simp [violation_concat h.last]
  refine ⟨by simp, fun i j q r hij hi hj hnone => ?_, fun i q hi hnone => ?_⟩
  · have hi' : Violation w i q := ((hviol i q).mp hi).resolve_right fun hi' => by
      have hj' := hj.lt_length
      simp at hj'
      omega
    have hnone' : ∀ m, i < m → m < j → ∀ q', ¬ Violation w m q' := fun m him hmj q' hm =>
      hnone m him hmj q' ((hviol m q').mpr (.inl hm))
    rcases (hviol j r).mp hj with hj | ⟨hj, rfl⟩
    · exact h.alternate i j q r hij hi' hj hnone'
    · have hpol := h.since i q hi' fun m him q' hm => hnone' m him (by have := hm.lt_length; omega) q' hm
      rw [if_neg (by rw [Nat.odd_iff.mp hodd]; decide)] at hpol
      rw [hpol]
      exact (inv_ne q).symm
  · rcases (hviol i q).mp hi with hi | ⟨-, rfl⟩
    · have hlen := hi.lt_length
      exact absurd ((hviol (w.length - 1) pol).mpr (.inr ⟨by omega, rfl⟩)) (hnone _ (by omega) pol)
    · rfl

/-- The marks of pass 1 are balanced. -/
theorem hdb3Pass1_balanced {bits : List Bool} {p : Polarity} {h : Hdb3Regs}
    (hpass1 : hdb3Pass1 bits (hdb3Start p) = .ok h) :
    ∃ w, symOf p :: marksOf h.sym = w.map symOf ∧ Balanced w h.pol h.marks := by
  refine hdb3Pass1_induction (P := fun h => ∃ w, symOf p :: marksOf h.sym = w.map symOf ∧ Balanced w h.pol h.marks)
    ?start ?mark ?silence ?odd ?even hpass1
  case start => exact ⟨[p], rfl, .start p⟩
  case mark =>
    rintro h ⟨w, hw, hb⟩
    exact ⟨_, by simp [hdb3One, ← hw], hb.mark⟩
  case silence =>
    rintro h - ⟨w, hw, hb⟩
    exact ⟨w, by simpa using hw, hb⟩
  case odd =>
    rintro h hodd ⟨w, hw, hb⟩
    exact ⟨_, by simp [← hw], hb.violation hodd⟩
  case even =>
    rintro h base heven hs ⟨w, hw, hb⟩
    rw [hs] at hw
    exact ⟨_, by simp [← hw], hb.mark.violation heven.add_one⟩

/-- Settles O57: the marks are balanced, and no symbol stands for both polarities. -/
theorem hdbThreeViolationsAlternate : Obligations.HdbThreeViolationsAlternate := by
  intro bits p h z i j hpass1 hz hi hj hvi hvj hnone
  obtain ⟨w, hw, hb⟩ := hdb3Pass1_balanced hpass1
  obtain rfl : z = w.map symOf := hz.trans hw
  simp only [List.length_map, List.getElem_map, ne_eq] at hj hvi hvj hnone ⊢
  have viol : ∀ k, ∀ hk : k + 1 < w.length, symOf w[k + 1] = symOf w[k] → Violation w k w[k + 1] := fun k hk he =>
    ⟨by rw [symOf_injective he]; exact List.getElem?_eq_getElem _, List.getElem?_eq_getElem hk⟩
  refine fun heq => hb.alternate i j _ _ hi (viol i (by omega) hvi) (viol j hj hvj) (fun m him hmj q' hm => ?_)
    (symOf_injective heq)
  obtain ⟨h₀, h₁⟩ := hm
  rw [List.getElem?_eq_getElem (by omega), Option.some_inj] at h₀ h₁
  exact hnone m hmj him (by rw [h₀, h₁])

/-! ### The output -/

/-- Settles O58: the candidates have the width `tb` and the levels of the symbols. -/
theorem hdbThreeOutput : Obligations.HdbThreeOutput := by
  intro tb v bits s hnum hadmits htb hv hunit
  obtain ⟨h, hpass1, hlen, hrun⟩ := hdb3Run_eq .rational (u := s.hdb3) (congrArg CoderUnit.v hunit) hv bits
  refine ⟨h, hpass1, hlen, answers_of_algorithm (sc := .hdb3) hnum hadmits rfl (by rw [State.unit, hunit]) ?_⟩
  have hlevel : ∀ y, symLevel .rational (Number.rat v).abs y =
      .rat (match y with | .sil => 0 | .pos => |v| | .neg => -|v|) := fun y => by
    rw [abs_rat]
    cases y with
    | sil | pos => rfl
    | neg => exact neg_rational _
  refine hrun.trans (congrArg Except.ok ?_)
  rw [hunit, oneWidthOutput_rational htb]
  refine List.ext_getElem (by simp) fun k _ _ => ?_
  rw [List.getElem_mapIdx, List.getElem_mapIdx, List.getElem_map]
  exact congrArg (Segment.mk _ _) (hlevel _)

/-! ### R132 (e): without a run of four zeros HDB3 is AMI -/

/-- The symbols of AMI's marks and zeros, the last mark before them of polarity `p`. -/
def amiSymbols : Polarity → List Bool → List Symb
  | _, [] => []
  | p, false :: bits => .sil :: amiSymbols p bits
  | p, true :: bits => symOf (Polarity.inv p) :: amiSymbols (Polarity.inv p) bits

/-- Pass 1 with no fourth zero of a run before it substitutes nothing. -/
theorem hdb3Pass1_eq_ami {bits : List Bool} {h : Hdb3Regs} (hz : h.zeros ≤ 3)
    (hrun : ¬ List.replicate 4 false <:+: List.replicate h.zeros false ++ bits) :
    ∃ h', hdb3Pass1 bits h = .ok h' ∧ h'.sym = h.sym ++ amiSymbols h.pol bits := by
  induction bits generalizing h with
  | nil => exact ⟨h, rfl, (List.append_nil _).symm⟩
  | cons b bits ih =>
    cases b with
    | true =>
      have hrest : ¬ List.replicate 4 false <:+: bits := fun hb =>
        hrun (List.infix_append_of_infix_right (List.infix_cons hb))
      obtain ⟨h', hpass1, hsym⟩ := ih (h := hdb3One h) (Nat.zero_le _) hrest
      refine ⟨h', hpass1, ?_⟩
      rw [hsym, hdb3One, List.append_assoc]
      rfl
    | false =>
      have hmove : List.replicate h.zeros false ++ false :: bits = List.replicate (h.zeros + 1) false ++ bits := by
        rw [List.replicate_succ', List.append_assoc]
        rfl
      rw [hmove] at hrun
      have hlt : h.zeros < 3 := by
        refine lt_of_le_of_ne hz fun h3 => hrun ?_
        rw [h3]
        exact List.infix_append_left
      obtain ⟨h', hpass1, hsym⟩ := ih (h := { h with zeros := h.zeros + 1, sym := h.sym ++ [.sil] }) hlt hrun
      refine ⟨h', by simpa only [hdb3Pass1, hdb3Bit_silence hlt] using hpass1, ?_⟩
      rw [hsym, List.append_assoc]
      rfl

/-- The levels of the two polarities are each other's inverse. -/
theorem neg_symLevel_symOf {f : NumFormat} {a : Number} (ha : NonZero a) (p : Polarity) :
    (symLevel f a (symOf p)).neg f = symLevel f a (symOf (Polarity.inv p)) := by
  cases p with
  | pos => rfl
  | neg => exact neg_neg_of_nonZero f ha

/-- AMI emits the levels of its symbols, the accumulator standing at the level of the last mark. -/
theorem foldl_amiBit {f : NumFormat} {u : CoderUnit} {a : Number} (ha : NonZero a) (bits : List Bool) (p : Polarity)
    (w : Wave) :
    (bits.foldl (amiBit f u) (symLevel f a (symOf p), w)).2 =
      ((amiSymbols p bits).map (symLevel f a)).foldl (fun w l => emit f u.tb l w) w := by
  induction bits generalizing p w with
  | nil => rfl
  | cons b bits ih =>
    cases b with
    | false => exact ih p _
    | true =>
      rw [List.foldl_cons, amiBit, if_pos rfl]
      simp only [neg_symLevel_symOf ha]
      exact ih _ _

/-- The amplitude is the level of the symbol of its sign. -/
theorem symLevel_sign (f : NumFormat) {r : Rat} (hr : r ≠ 0) :
    symLevel f (Number.rat r).abs (symOf (if 0 < r then .pos else .neg)) = .rat r := by
  rw [abs_rat]
  split
  · next h => exact congrArg Number.rat (abs_of_pos h)
  · next h =>
    rw [abs_of_nonpos (not_lt.mp h)]
    exact (neg_rat f (neg_ne_zero.mpr hr)).trans (by rw [neg_neg])

/-- The two encoders give the same output with the same registers. -/
theorem hdb3Run_eq_amiRun (f : NumFormat) {u : CoderUnit} (hv : NonZero u.v) {bits : List Bool}
    (hrun : ¬ List.replicate 4 false <:+: bits) : hdb3Run f u bits = .ok (amiRun f u bits) := by
  obtain ⟨r, hr, hne⟩ := hv
  obtain ⟨h, hpass1, -, hhdb3⟩ := hdb3Run_eq f hr hne bits
  obtain ⟨h', hpass1', hsym⟩ := hdb3Pass1_eq_ami (h := hdb3Start (if 0 < r then .pos else .neg)) (Nat.zero_le _) hrun
  cases hpass1.symm.trans hpass1'
  have ha : NonZero u.v.abs := ⟨|r|, by rw [hr, abs_rat], abs_ne_zero.mpr hne⟩
  have hami := foldl_amiBit (f := f) (u := u) ha bits (if 0 < r then .pos else .neg) .start
  rw [hr, symLevel_sign f hne, ← hr] at hami
  rw [hhdb3, hsym, amiRun, hami]
  rfl

/-- Settles O59: on valid units both algorithms give the same output; on others neither answers one. -/
theorem hdbThreeWithoutLongRunsIsAmi : Obligations.HdbThreeWithoutLongRunsIsAmi := by
  intro bits s out hs hunit hrun
  rw [show Answers (.encodeHdb3 bits) s out ↔ _ from answers_iff .hdb3 bits s out,
    show Answers (.encodeAmi bits) s out ↔ _ from answers_iff .ami bits s out]
  refine and_congr_right fun _ => ?_
  simp only [State.unit, hunit, encodeAlgorithm]
  refine and_congr_right fun hvalid => ?_
  have hv : NonZero s.ami.v := (hs.amplitude (sc := .ami) hvalid).nonZero
  rw [hdb3Run_eq_amiRun _ hv hrun]

end Sys2Proof.Machine
end

section
/-! `PARSE` (`spec/45_bit_string_parser.md` R140, R141). A string is read character by character, and one bad character
anywhere rejects it whole. -/

namespace Sys2Proof.Machine

theorem bitOfChar_of_digit {c : CharCode} (h : c = 0x30#8 ∨ c = 0x31#8) : bitOfChar c = some (c == 0x31#8) := by
  rcases h with rfl | rfl <;> rfl

theorem bitOfChar_of_other {c : CharCode} (h0 : c ≠ 0x30#8) (h1 : c ≠ 0x31#8) : bitOfChar c = none := by
  rw [bitOfChar, if_neg h0, if_neg h1]

theorem parseChars_of_digits {chars : List CharCode} (h : ∀ c ∈ chars, c = 0x30#8 ∨ c = 0x31#8) :
    parseChars chars = some (chars.map (· == 0x31#8)) := by
  induction chars with
  | nil => rfl
  | cons c chars ih =>
    rw [List.forall_mem_cons] at h
    simp only [parseChars, bitOfChar_of_digit h.1, ih h.2, List.map_cons]

theorem parseChars_of_other {chars : List CharCode} (h : ∃ c ∈ chars, c ≠ 0x30#8 ∧ c ≠ 0x31#8) :
    parseChars chars = none := by
  induction chars with
  | nil => simp at h
  | cons c chars ih =>
    obtain ⟨c', hc', hbad⟩ := h
    rcases List.mem_cons.mp hc' with rfl | hc'
    · simp only [parseChars, bitOfChar_of_other hbad.1 hbad.2]
    · rw [parseChars, ih ⟨c', hc', hbad⟩]
      cases bitOfChar c <;> rfl

/-- A string with characters answers what its reading gives. -/
theorem parseResponse_of_ne_nil {chars : List CharCode} (h : chars ≠ []) :
    parseResponse chars = ((parseChars chars).map fun bits => .answer (.bits bits)).getD (.failure .parseReject) := by
  cases chars with
  | nil => exact absurd rfl h
  | cons c chars =>
    unfold parseResponse
    cases hp : parseChars (c :: chars) <;> simp [hp]

/-- Settles O60: an admitted string answers what its reading gives, and the empty one is rejected. -/
theorem parseAnswers : Obligations.ParseAnswers := by
  intro chars s hadmits
  rw [exec_parse_of_admitted hadmits]
  refine ⟨fun hne hdigits => ?_, fun hbad => ?_⟩
  · rw [parseResponse_of_ne_nil hne, parseChars_of_digits hdigits]
    rfl
  · rcases hbad with rfl | hother
    · rfl
    · obtain ⟨c, hc, -⟩ := id hother
      rw [parseResponse_of_ne_nil (List.ne_nil_of_mem hc), parseChars_of_other hother]
      rfl

end Sys2Proof.Machine
end

section
/-! Rounding in the binary formats (`spec/00_scope.md` R5, `spec/93_implementation_defined.md` G1; log 14). The magnitude of a
number is rounded to a significand `M` times a unit `2 ^ k`; `RoundedTo` says how the two stand to the number, and all that
IEEE 754 asks follows from it. -/

namespace Sys2Proof

/-! ### The nearest integer -/

/-- `roundHalfEven` misses the quotient by at most one half, and by one half only to land on an even number. -/
theorem roundHalfEven_spec (n d : Nat) (hd : 0 < d) :
    2 * |(roundHalfEven n d : Rat) - (n : Rat) / d| ≤ 1 ∧
      (2 * |(roundHalfEven n d : Rat) - (n : Rat) / d| = 1 → roundHalfEven n d % 2 = 0) := by
  have hd' : (0 : Rat) < d := by exact_mod_cast hd
  have hquot : (n : Rat) / d = (n / d : Nat) + ((n % d : Nat) : Rat) / d := by
    rw [div_eq_iff hd'.ne', add_mul, div_mul_cancel₀ _ hd'.ne']
    exact_mod_cast (Nat.div_add_mod' n d).symm
  have hbelow : ((n % d : Nat) : Rat) / d < 1 / 2 ↔ 2 * (n % d) < d := by
    rw [div_lt_div_iff₀ hd' two_pos, one_mul, mul_comm]
    exact_mod_cast Iff.rfl
  have habove : 1 / 2 < ((n % d : Nat) : Rat) / d ↔ d < 2 * (n % d) := by
    rw [div_lt_div_iff₀ two_pos hd', one_mul, mul_comm]
    exact_mod_cast Iff.rfl
  have hlt : ((n % d : Nat) : Rat) / d < 1 := by
    rw [div_lt_one hd']
    exact_mod_cast Nat.mod_lt n hd
  have hnonneg : 0 ≤ ((n % d : Nat) : Rat) / d := by positivity
  rw [hquot, roundHalfEven]
  generalize ((n % d : Nat) : Rat) / d = t at *
  generalize n / d = q
  have down : |(q : Rat) - (q + t)| = t := by rw [sub_add_cancel_left, abs_neg, abs_of_nonneg hnonneg]
  have up : |((q + 1 : Nat) : Rat) - (q + t)| = 1 - t := by
    rw [Nat.cast_succ, add_sub_add_left_eq_sub, abs_of_pos (by linarith)]
  simp only [← hbelow, ← habove]
  split_ifs with h₁ h₂ h₃
  · rw [down]; exact ⟨by linarith, fun h => absurd h (by linarith)⟩
  · rw [up]; exact ⟨by linarith, fun h => absurd h (by linarith)⟩
  · rw [down]; exact ⟨by linarith, fun _ => h₃⟩
  · rw [up]; exact ⟨by linarith, fun _ => by omega⟩

/-- An integer within one half of `z` is nearest to `z`, and another integer is as near only at a distance of one half. -/
theorem nearest_int {z : Rat} {M : Nat} (h : 2 * |M - z| ≤ 1) (N : Int) :
    |z - M| ≤ |z - N| ∧ (N ≠ M → |z - N| = |z - M| → 2 * |M - z| = 1) := by
  rcases eq_or_ne N M with rfl | hne
  · rw [Int.cast_natCast]
    exact ⟨le_rfl, fun hn => absurd rfl hn⟩
  · have hfar : (1 : Rat) ≤ |(N : Rat) - M| := by exact_mod_cast Int.one_le_abs (sub_ne_zero.mpr hne)
    have htri := abs_sub_le (N : Rat) z M
    rw [abs_sub_comm _ z] at h htri
    refine ⟨by linarith, fun _ he => ?_⟩
    rw [abs_sub_comm _ z]
    linarith

/-! ### A magnitude rounded to a significand -/

theorem two_zpow_add (a b : Int) : (2 : Rat) ^ a * 2 ^ b = 2 ^ (a + b) := (zpow_add₀ two_ne_zero a b).symm

theorem two_zpow_le {a b : Int} : (2 : Rat) ^ a ≤ 2 ^ b ↔ a ≤ b := zpow_le_zpow_iff_right₀ one_lt_two

theorem two_zpow_lt {a b : Int} : (2 : Rat) ^ a < 2 ^ b ↔ a < b := zpow_lt_zpow_iff_right₀ one_lt_two

/-- `M` is the multiple of `2 ^ k` nearest to `y`, ties to even, `2 ^ k` being the unit in the last place of `y`: `p` bits
reach beyond `y`, and `p - 1` do not, unless the exponent is already the least of the format. -/
structure RoundedTo (p emax : Nat) (y : Rat) (M : Nat) (k : Int) : Prop where
  near : 2 * |(M : Rat) - y / 2 ^ k| ≤ 1
  tie : 2 * |(M : Rat) - y / 2 ^ k| = 1 → Even M
  least : (2 : Int) - emax - p ≤ k
  lt : y < 2 ^ (p + k)
  lead : (2 : Rat) ^ (p - 1 + k) ≤ y ∨ k = (2 : Int) - emax - p

/-- The model's magnitude is rounded so. -/
theorem roundMagnitude_roundedTo {f : NumFormat} (hp : 1 ≤ f.precision) {n d : Nat} (hn : 0 < n) (hd : 0 < d) :
    ∃ (M : Nat) (k : Int), f.roundMagnitude n d = M * (2 : Rat) ^ k ∧ RoundedTo f.precision f.maxExp ((n : Rat) / d) M k := by
  obtain ⟨hb, hscale⟩ := scaleDown_spec n d (f.ulpExp n d) hd
  obtain ⟨hlo, hhi⟩ := floorLog2_spec hn hd
  obtain ⟨hnear, htie⟩ := roundHalfEven_spec (scaleDown n d (f.ulpExp n d)).1 _ hb
  rw [hscale] at hnear htie
  have hk : f.ulpExp n d = max (floorLog2 n d) (1 - f.maxExp) - (f.precision - 1) := by
    rw [NumFormat.ulpExp, Nat.cast_sub hp, Nat.cast_one]
  refine ⟨_, _, roundMagnitude_eq f n d, hnear, fun h => Nat.even_iff.mpr (htie h), by omega,
    hhi.trans_le (two_zpow_le.mpr (by omega)), ?_⟩
  rcases le_total (1 - (f.maxExp : Int)) (floorLog2 n d) with h | h
  · exact .inl (le_trans (two_zpow_le.mpr (by omega)) hlo)
  · exact .inr (by omega)

namespace Machine

/-! ### The values of a format -/

theorem FiniteValue.neg {p emax : Nat} {r : Rat} (h : FiniteValue p emax r) : FiniteValue p emax (-r) := by
  obtain ⟨m, q, hm, hq, hq', rfl⟩ := h
  exact ⟨-m, q, by rwa [abs_neg], hq, hq', by push_cast; ring⟩

theorem EvenSignificand.neg {p emax : Nat} {r : Rat} (h : EvenSignificand p emax r) : EvenSignificand p emax (-r) := by
  obtain ⟨m, q, hm, hq, hlead, rfl, heven⟩ := h
  exact ⟨-m, q, by rwa [abs_neg], hq, by rwa [abs_neg], by push_cast; ring, heven.neg⟩

theorem finiteValue_zero {p emax : Nat} (he : 1 ≤ emax) : FiniteValue p emax 0 :=
  ⟨0, 2 - emax - p, by simp, le_rfl, by omega, by simp⟩

theorem evenSignificand_zero (p emax : Nat) : EvenSignificand p emax 0 :=
  ⟨0, 2 - emax - p, by simp, le_rfl, .inr rfl, by simp, Even.zero⟩

/-- The bound lies in the binade below `2 ^ (emax + 1)`. -/
theorem overflowBound_mem {p emax : Nat} (hp : 1 ≤ p) :
    (2 : Rat) ^ (emax : Int) ≤ overflowBound p emax ∧ overflowBound p emax < 2 ^ ((emax : Int) + 1) := by
  have hsplit : ∀ a : Int, (2 : Rat) ^ a = 2 ^ (a - (emax + 1 - p)) * 2 ^ ((emax : Int) + 1 - p) := fun a => by
    rw [two_zpow_add, sub_add_cancel]
  have hpos : (0 : Rat) < 2 ^ ((emax : Int) + 1 - p) := by positivity
  have hhalf : (2 : Rat) ^ p = 2 ^ ((p : Int) - 1) * 2 := by
    rw [← zpow_natCast, ← zpow_add_one₀ two_ne_zero, sub_add_cancel]
  have hone : (1 : Rat) ≤ 2 ^ ((p : Int) - 1) := one_le_zpow₀ one_le_two (by omega)
  rw [overflowBound, hsplit emax, hsplit (emax + 1), mul_le_mul_iff_left₀ hpos, mul_lt_mul_iff_left₀ hpos,
    show (emax : Int) - (emax + 1 - p) = p - 1 by ring, show (emax : Int) + 1 - (emax + 1 - p) = p by ring, zpow_natCast,
    hhalf]
  constructor <;> linarith

end Machine

open Machine

namespace RoundedTo

variable {p emax : Nat} {y : Rat} {M : Nat} {k : Int}

/-- The quotient that is rounded has at most `p` bits before the point. -/
theorem quotient_lt (h : RoundedTo p emax y M k) : y / 2 ^ k < 2 ^ p := by
  rw [div_lt_iff₀ (by positivity), ← zpow_natCast, two_zpow_add]
  exact h.lt

theorem significand_bounds (h : RoundedTo p emax y M k) : y / 2 ^ k - 1 / 2 ≤ M ∧ (M : Rat) ≤ y / 2 ^ k + 1 / 2 := by
  obtain ⟨h₁, h₂⟩ := abs_le.mp (show |(M : Rat) - y / 2 ^ k| ≤ 1 / 2 by linarith [h.near])
  constructor <;> linarith

theorem significand_le (h : RoundedTo p emax y M k) : M ≤ 2 ^ p := by
  have hlt : (M : Rat) < 2 ^ p + 1 := by linarith [h.significand_bounds.2, h.quotient_lt]
  exact Nat.lt_succ_iff.mp (by exact_mod_cast hlt)

/-- Where the exponent is not the least, the significand has its leading bit. -/
theorem le_significand (hp : 1 ≤ p) (h : RoundedTo p emax y M k) (hk : k ≠ 2 - emax - p) : 2 ^ (p - 1) ≤ M := by
  have hlead : (2 : Rat) ^ (p - 1 : Nat) ≤ y / 2 ^ k := by
    rw [le_div_iff₀ (by positivity), ← zpow_natCast, two_zpow_add, Nat.cast_sub hp, Nat.cast_one]
    exact h.lead.resolve_right hk
  have hlt : (2 : Rat) ^ (p - 1 : Nat) < M + 1 := by linarith [h.significand_bounds.1]
  exact Nat.lt_succ_iff.mp (by exact_mod_cast hlt)

/-- Rounding up to `2 ^ p` gives the next binade's first value, with one bit less and the next exponent. -/
theorem value_of_carry (hp : 1 ≤ p) (hM : M = 2 ^ p) :
    (M : Rat) * 2 ^ k = ((2 ^ (p - 1) : Int) : Rat) * 2 ^ (k + 1) := by
  obtain ⟨p, rfl⟩ := Nat.exists_eq_add_of_le' hp
  rw [hM, zpow_add_one₀ two_ne_zero, Nat.add_sub_cancel]
  push_cast
  ring

theorem exponent_le (hp : 1 ≤ p) (he : 1 ≤ emax) (h : RoundedTo p emax y M k) (hy : y < overflowBound p emax) :
    k ≤ emax + 1 - p := by
  rcases h.lead with hlead | hk
  · have := two_zpow_lt.mp (hlead.trans_lt (hy.trans (overflowBound_mem hp).2))
    omega
  · omega

/-- Just below the bound the significand is not rounded up to `2 ^ p`. -/
theorem significand_lt_of_greatest (h : RoundedTo p emax y M k) (hy : y < overflowBound p emax)
    (hk : k = emax + 1 - p) : M < 2 ^ p := by
  have hquot : y / 2 ^ k < 2 ^ p - 1 / 2 := by
    rw [div_lt_iff₀ (by positivity), hk]
    exact hy
  have hlt : (M : Rat) < 2 ^ p := by linarith [h.significand_bounds.2]
  exact_mod_cast hlt

/-- Below the bound the rounded value is a finite value of the format. -/
theorem finiteValue (hp : 1 ≤ p) (he : 1 ≤ emax) (h : RoundedTo p emax y M k) (hy : y < overflowBound p emax) :
    FiniteValue p emax (M * 2 ^ k) := by
  have hk := h.exponent_le hp he hy
  have hleast := h.least
  rcases h.significand_le.lt_or_eq with hlt | hM
  · exact ⟨M, k, by rw [Nat.abs_cast]; exact_mod_cast hlt, h.least, hk, by rw [Int.cast_natCast]⟩
  · have hk' : k ≠ emax + 1 - p := fun hk' => (h.significand_lt_of_greatest hy hk').ne hM
    refine ⟨2 ^ (p - 1), k + 1, ?_, by omega, by omega, value_of_carry hp hM⟩
    rw [abs_of_pos (by positivity)]
    exact pow_lt_pow_right₀ one_lt_two (by omega)

/-- Below the bound the rounded value has no exponent beyond the greatest. -/
theorem value_lt (hp : 1 ≤ p) (he : 1 ≤ emax) (h : RoundedTo p emax y M k) (hy : y < overflowBound p emax) :
    (M : Rat) * 2 ^ k < 2 ^ ((emax : Int) + 1) := by
  have hk := h.exponent_le hp he hy
  have hsum : (2 : Rat) ^ p * 2 ^ k = 2 ^ (p + k) := by rw [← zpow_natCast, two_zpow_add]
  have hpow : (0 : Rat) < 2 ^ k := by positivity
  rcases h.significand_le.lt_or_eq with hlt | hM
  · calc (M : Rat) * 2 ^ k < 2 ^ p * 2 ^ k := by gcongr; exact_mod_cast hlt
      _ = 2 ^ (p + k) := hsum
      _ ≤ _ := two_zpow_le.mpr (by omega)
  · have hk' : k ≠ emax + 1 - p := fun hk' => (h.significand_lt_of_greatest hy hk').ne hM
    rw [hM, Nat.cast_pow, Nat.cast_ofNat, hsum, two_zpow_lt]
    omega

/-- From the bound on the rounded value lies beyond the greatest exponent: at the bound itself the tie goes up, `2 ^ p - 1`
being odd. -/
theorem le_value (hp : 1 ≤ p) (he : 1 ≤ emax) (h : RoundedTo p emax y M k) (hy : overflowBound p emax ≤ y) :
    (2 : Rat) ^ ((emax : Int) + 1) ≤ M * 2 ^ k := by
  have hk : emax + 1 - p ≤ k := by
    have := two_zpow_lt.mp ((overflowBound_mem hp).1.trans_lt (hy.trans_lt h.lt))
    omega
  rcases hk.eq_or_lt with hk | hk
  · have hquot : 2 ^ p - 1 / 2 ≤ y / 2 ^ k := by
      rw [le_div_iff₀ (by positivity), ← hk]
      exact hy
    have hM : 2 ^ p ≤ M := by
      by_contra hlt
      have hle : (M : Rat) ≤ 2 ^ p - 1 := by
        have : M + 1 ≤ 2 ^ p := by omega
        have : ((M + 1 : Nat) : Rat) ≤ (2 ^ p : Nat) := by exact_mod_cast this
        push_cast at this
        linarith
      have hM : (M : Rat) = 2 ^ p - 1 := le_antisymm hle (by linarith [h.significand_bounds.1])
      have heven := h.tie (by rw [abs_of_nonpos (by linarith)]; linarith [h.significand_bounds.1])
      have hsucc : M + 1 = 2 ^ p := by
        have : (M : Rat) + 1 = 2 ^ p := by linarith
        exact_mod_cast this
      exact Nat.not_even_iff_odd.mpr heven.add_one (hsucc ▸ (even_two.pow_of_ne_zero (by omega)))
    calc (2 : Rat) ^ ((emax : Int) + 1) = 2 ^ p * 2 ^ k := by
          rw [← zpow_natCast, two_zpow_add, ← hk]
          congr 1
          ring
      _ ≤ M * 2 ^ k := by gcongr; exact_mod_cast hM
  · have hM := h.le_significand hp (by omega)
    calc (2 : Rat) ^ ((emax : Int) + 1) ≤ 2 ^ ((p : Int) - 1 + k) := two_zpow_le.mpr (by omega)
      _ = 2 ^ (p - 1 : Nat) * 2 ^ k := by rw [← zpow_natCast, two_zpow_add, Nat.cast_sub hp, Nat.cast_one]
      _ ≤ M * 2 ^ k := by gcongr; exact_mod_cast hM

/-- Among the multiples of the unit the rounded value is nearest; another one is as near only in a tie. -/
theorem nearest_multiple (h : RoundedTo p emax y M k) (N : Int) :
    |y - M * 2 ^ k| ≤ |y - N * 2 ^ k| ∧
      ((N : Rat) * 2 ^ k ≠ M * 2 ^ k → |y - N * 2 ^ k| = |y - M * 2 ^ k| → Even M) := by
  have hpos : (0 : Rat) < 2 ^ k := by positivity
  have hscale : ∀ z : Rat, |y - z * 2 ^ k| = |y / 2 ^ k - z| * 2 ^ k := fun z => by
    rw [← abs_of_pos hpos, ← abs_mul, abs_of_pos hpos, sub_mul, div_mul_cancel₀ _ hpos.ne']
  obtain ⟨hnear, htie⟩ := nearest_int h.near N
  rw [hscale, hscale, mul_le_mul_iff_left₀ hpos]
  refine ⟨hnear, fun hne he => h.tie (htie (fun hN => hne ?_) (mul_right_cancel₀ hpos.ne' he))⟩
  rw [hN, Int.cast_natCast]

/-- No finite value is nearer than the rounded one, and one is as near only in a tie: a value with a smaller unit lies below
`y`'s binade, of which the first value is a multiple of `y`'s unit. -/
theorem nearest (hp : 1 ≤ p) (h : RoundedTo p emax y M k) {r : Rat} (hr : FiniteValue p emax r) :
    |y - M * 2 ^ k| ≤ |y - r| ∧ (r ≠ M * 2 ^ k → |y - r| = |y - M * 2 ^ k| → Even M) := by
  obtain ⟨m, q, hm, hq, -, rfl⟩ := hr
  rcases le_or_gt k q with hkq | hqk
  · obtain ⟨j, rfl⟩ := Int.le.dest hkq
    have hmul : (m : Rat) * 2 ^ (k + j) = (m * 2 ^ j : Int) * 2 ^ k := by
      rw [← two_zpow_add, zpow_natCast]
      push_cast
      ring
    rw [hmul]
    exact h.nearest_multiple _
  · have hlead : (2 : Rat) ^ ((p : Int) - 1 + k) ≤ y := h.lead.resolve_right (by omega)
    have hbelow : (m : Rat) * 2 ^ q < 2 ^ ((p : Int) - 1 + k) := by
      have hm' : (m : Rat) < 2 ^ p := by exact_mod_cast (le_abs_self m).trans_lt hm
      calc (m : Rat) * 2 ^ q < 2 ^ p * 2 ^ q := by gcongr
        _ = 2 ^ (p + q) := by rw [← zpow_natCast, two_zpow_add]
        _ ≤ _ := two_zpow_le.mpr (by omega)
    have hfirst := (h.nearest_multiple (2 ^ (p - 1 : Nat))).1
    rw [Int.cast_pow, Int.cast_ofNat, ← zpow_natCast, two_zpow_add, Nat.cast_sub hp, Nat.cast_one,
      abs_of_nonneg (sub_nonneg.mpr hlead)] at hfirst
    have hlt : |y - M * 2 ^ k| < |y - m * 2 ^ q| := by
      rw [abs_of_pos (a := y - m * 2 ^ q) (by linarith)]
      linarith
    exact ⟨hlt.le, fun _ he => absurd he hlt.ne'⟩

/-- An even significand is one of the rounded value, also after a carry. -/
theorem evenSignificand (hp : 2 ≤ p) (h : RoundedTo p emax y M k) (heven : Even M) : EvenSignificand p emax (M * 2 ^ k) := by
  have hleast := h.least
  rcases h.significand_le.lt_or_eq with hlt | hM
  · refine ⟨M, k, by rw [Nat.abs_cast]; exact_mod_cast hlt, h.least, ?_, by rw [Int.cast_natCast], by exact_mod_cast heven⟩
    rw [Nat.abs_cast]
    rcases eq_or_ne k (2 - emax - p) with hk | hk
    · exact .inr hk
    · exact .inl (by exact_mod_cast h.le_significand (by omega) hk)
  · refine ⟨2 ^ (p - 1), k + 1, ?_, by omega, ?_, value_of_carry (by omega) hM, even_two.pow_of_ne_zero (by omega)⟩ <;>
      rw [abs_of_pos (by positivity)]
    · exact pow_lt_pow_right₀ one_lt_two (by omega)
    · exact .inl le_rfl

end RoundedTo

end Sys2Proof
end

section
/-! `Number.round` in the binary formats, and that no operation leaves `NUM` (`spec/00_scope.md` R5; log 14). The sign of a
number goes through the rounding untouched, so that everything is said of magnitudes by `RoundedTo`. -/

namespace Sys2Proof

namespace Machine

/-! ### Magnitudes and signs -/

/-- `r` on the side of 0 on which `x` lies: between magnitudes and numbers of the sign of `x` it goes both ways. -/
def onSideOf (x r : Rat) : Rat := if x < 0 then -r else r

theorem onSideOf_onSideOf (x r : Rat) : onSideOf x (onSideOf x r) = r := by
  unfold onSideOf
  split
  · exact neg_neg r
  · rfl

@[simp] theorem onSideOf_zero (x : Rat) : onSideOf x 0 = 0 := by simp [onSideOf]

theorem onSideOf_eq_zero_iff {x r : Rat} : onSideOf x r = 0 ↔ r = 0 := by
  unfold onSideOf
  split <;> simp

/-- The distance to a number on the side of `x` is that of the magnitudes. -/
theorem abs_sub_onSideOf (x r : Rat) : |x - onSideOf x r| = |(|x| - r)| := by
  unfold onSideOf
  split
  · next h => rw [abs_of_neg h, ← abs_neg]; congr 1; ring
  · next h => rw [abs_of_nonneg (not_lt.mp h)]

theorem abs_sub_eq_onSideOf (x r : Rat) : |x - r| = |(|x| - onSideOf x r)| := by
  rw [← abs_sub_onSideOf, onSideOf_onSideOf]

theorem FiniteValue.onSideOf {p emax : Nat} {r : Rat} (h : FiniteValue p emax r) (x : Rat) :
    FiniteValue p emax (onSideOf x r) := by
  unfold Machine.onSideOf
  split
  · exact h.neg
  · exact h

theorem EvenSignificand.onSideOf {p emax : Nat} {r : Rat} (h : EvenSignificand p emax r) (x : Rat) :
    EvenSignificand p emax (onSideOf x r) := by
  unfold Machine.onSideOf
  split
  · exact h.neg
  · exact h

/-- Every finite value of a format lies below the bound. -/
theorem FiniteValue.abs_lt_overflowBound {p emax : Nat} {r : Rat} (h : FiniteValue p emax r) :
    |r| < overflowBound p emax := by
  obtain ⟨m, q, hm, -, hq, rfl⟩ := h
  have hm' : |(m : Rat)| ≤ 2 ^ p - 1 := by
    have hle : |m| ≤ 2 ^ p - 1 := Int.le_sub_one_of_lt hm
    exact_mod_cast hle
  have hpow : (0 : Rat) < 2 ^ q := by positivity
  rw [abs_mul, abs_of_pos hpow, overflowBound]
  calc |(m : Rat)| * 2 ^ q ≤ |(m : Rat)| * 2 ^ ((emax : Int) + 1 - p) := by
        gcongr
        exact one_le_two
    _ < _ := by gcongr; linarith

end Machine

open Machine

/-! ### The model's rounding -/

theorem natAbs_num_div_den (x : Rat) : (x.num.natAbs : Rat) / x.den = |x| := by
  conv_rhs => rw [← Rat.num_div_den x]
  rw [abs_div, Nat.abs_cast, Nat.cast_natAbs, Int.cast_abs]

theorem lt_floorLog2_iff {n d : Nat} (hn : 0 < n) (hd : 0 < d) (e : Int) :
    e < floorLog2 n d ↔ (2 : Rat) ^ (e + 1) ≤ (n : Rat) / d := by
  obtain ⟨hlo, hhi⟩ := floorLog2_spec hn hd
  constructor
  · intro h
    exact (two_zpow_le.mpr (by omega)).trans hlo
  · intro h
    have := two_zpow_lt.mp (h.trans_lt hhi)
    omega

theorem precision_pos {f : NumFormat} (hf : f ≠ .rational) : 2 ≤ f.precision ∧ 1 ≤ f.maxExp := by
  cases f
  · exact absurd rfl hf
  · decide
  · decide

/-- A non-zero number rounds to its rounded magnitude on its own side: to a zero, to an infinity, or to a finite value. -/
theorem round_of_ne_zero {f : NumFormat} (hf : f ≠ .rational) {x : Rat} (hx : x ≠ 0) :
    ∃ (M : Nat) (k : Int), RoundedTo f.precision f.maxExp |x| M k ∧
      Number.round f x =
        if M = 0 then signedZero f (decide (x < 0))
        else if (2 : Rat) ^ ((f.maxExp : Int) + 1) ≤ M * 2 ^ k then .inf (decide (x < 0))
        else .rat (onSideOf x (M * 2 ^ k)) := by
  have hp : 1 ≤ f.precision := Nat.le_of_succ_le (precision_pos hf).1
  obtain ⟨M, k, hmag, hround⟩ :=
    roundMagnitude_roundedTo hp (n := x.num.natAbs) (by simpa [Int.natAbs_pos] using hx) x.den_pos
  rw [natAbs_num_div_den] at hround
  refine ⟨M, k, hround, ?_⟩
  have hdef : Number.round f x =
      if x.num = 0 then .rat 0
      else if (f.roundMagnitude x.num.natAbs x.den).num = 0 then signedZero f (decide (x.num < 0))
      else if (f.maxExp : Int) <
          floorLog2 (f.roundMagnitude x.num.natAbs x.den).num.natAbs (f.roundMagnitude x.num.natAbs x.den).den then
        .inf (decide (x.num < 0))
      else
        .rat (if decide (x.num < 0) then -f.roundMagnitude x.num.natAbs x.den
          else f.roundMagnitude x.num.natAbs x.den) := by
    cases f
    · exact absurd rfl hf
    · rfl
    · rfl
  have hnonneg : (0 : Rat) ≤ M * 2 ^ k := by positivity
  have hzero : (M : Rat) * 2 ^ k = 0 ↔ M = 0 := by simp [zpow_ne_zero]
  simp only [hdef, hmag, Rat.num_eq_zero, hx, if_false, Rat.num_neg, hzero, decide_eq_true_eq]
  by_cases hM : M = 0
  · rw [if_pos hM, if_pos hM]
  · have hlog := lt_floorLog2_iff (n := ((M : Rat) * 2 ^ k).num.natAbs) (d := ((M : Rat) * 2 ^ k).den)
      (by simpa [Int.natAbs_pos, hzero] using hM) (Rat.den_pos _) f.maxExp
    rw [natAbs_num_div_den, abs_of_nonneg hnonneg] at hlog
    simp only [hM, if_false, hlog, onSideOf]

@[simp] theorem round_zero (f : NumFormat) : Number.round f 0 = .rat 0 := by cases f <;> rfl

theorem signedZero_eq {f : NumFormat} (hf : f ≠ .rational) (neg : Bool) :
    signedZero f neg = if neg then .negZero else .rat 0 := by
  cases f
  · exact absurd rfl hf
  · rfl
  · rfl

theorem inFormat_rat_iff {f : NumFormat} (hf : f ≠ .rational) (x : Rat) :
    (Number.rat x).inFormat f = true ↔ Number.round f x = .rat x := by
  cases f
  · exact absurd rfl hf
  · exact decide_eq_true_iff
  · exact decide_eq_true_iff

/-- From the bound on a number rounds to the infinity of its sign. -/
theorem round_of_overflowBound_le {f : NumFormat} (hf : f ≠ .rational) {x : Rat}
    (h : overflowBound f.precision f.maxExp ≤ |x|) : Number.round f x = .inf (decide (x < 0)) := by
  obtain ⟨hp, he⟩ := precision_pos hf
  have hbound : 0 < overflowBound f.precision f.maxExp :=
    lt_of_lt_of_le (by positivity) (overflowBound_mem (by omega)).1
  obtain ⟨M, k, hround, heq⟩ := round_of_ne_zero hf (abs_pos.mp (hbound.trans_le h))
  have hle := hround.le_value (by omega) he h
  have hM : M ≠ 0 := by
    rintro rfl
    rw [Nat.cast_zero, zero_mul] at hle
    exact absurd hle (not_le.mpr (by positivity))
  rw [heq, if_neg hM, if_pos hle]

/-- Below the bound a number rounds to the finite value nearest to it, ties to even. -/
theorem round_of_lt_overflowBound {f : NumFormat} (hf : f ≠ .rational) {x : Rat}
    (h : |x| < overflowBound f.precision f.maxExp) :
    ∃ r : Rat, Number.round f x = (if r = 0 ∧ x < 0 then .negZero else .rat r) ∧
      FiniteValue f.precision f.maxExp r ∧ (∀ r', FiniteValue f.precision f.maxExp r' → |x - r| ≤ |x - r'|) ∧
      (∀ r', FiniteValue f.precision f.maxExp r' → r' ≠ r → |x - r'| = |x - r| →
        EvenSignificand f.precision f.maxExp r) := by
  obtain ⟨hp, he⟩ := precision_pos hf
  rcases eq_or_ne x 0 with rfl | hx
  · exact ⟨0, by simp, finiteValue_zero he, fun r' _ => by simp, fun _ _ _ _ => evenSignificand_zero _ _⟩
  obtain ⟨M, k, hround, heq⟩ := round_of_ne_zero hf hx
  refine ⟨onSideOf x (M * 2 ^ k), ?_, (hround.finiteValue (by omega) he h).onSideOf x, fun r' hr' => ?_,
    fun r' hr' hne hdist => ?_⟩
  · rw [heq, if_neg (not_le.mpr (hround.value_lt (by omega) he h)), signedZero_eq hf]
    have hzero : onSideOf x (M * 2 ^ k) = 0 ↔ M = 0 := by rw [onSideOf_eq_zero_iff]; simp [zpow_ne_zero]
    simp only [hzero, decide_eq_true_eq]
    by_cases hM : M = 0
    · simp [hM]
    · simp [hM]
  · rw [abs_sub_onSideOf, abs_sub_eq_onSideOf x r']
    exact (hround.nearest (by omega) (hr'.onSideOf x)).1
  · rw [abs_sub_onSideOf, abs_sub_eq_onSideOf x r'] at hdist
    have hne' : onSideOf x r' ≠ M * 2 ^ k := fun h' => hne (by rw [← h', onSideOf_onSideOf])
    exact (hround.evenSignificand hp ((hround.nearest (by omega) (hr'.onSideOf x)).2 hne' hdist)).onSideOf x

/-- A binary `NUM` has exactly the finite values of its format: they are the numbers that rounding leaves alone. -/
theorem inFormat_rat_iff_finiteValue {f : NumFormat} (hf : f ≠ .rational) (x : Rat) :
    (Number.rat x).inFormat f = true ↔ FiniteValue f.precision f.maxExp x := by
  rw [inFormat_rat_iff hf]
  constructor
  · intro h
    rcases le_or_gt (overflowBound f.precision f.maxExp) |x| with hle | hlt
    · rw [round_of_overflowBound_le hf hle] at h
      cases h
    · obtain ⟨r, hr, hfinite, -⟩ := round_of_lt_overflowBound hf hlt
      rw [hr] at h
      split at h
      · cases h
      · exact Number.rat.inj h ▸ hfinite
  · intro h
    obtain ⟨r, hr, -, hnear, -⟩ := round_of_lt_overflowBound hf h.abs_lt_overflowBound
    have hzero : |x - r| = 0 := le_antisymm ((hnear x h).trans (by simp)) (abs_nonneg _)
    obtain rfl : x = r := sub_eq_zero.mp (abs_eq_zero.mp hzero)
    rw [hr, if_neg fun h' => h'.2.ne h'.1]

theorem roundsToNearestEven {f : NumFormat} (hf : f ≠ .rational) : RoundsToNearestEven f f.precision f.maxExp := fun x =>
  ⟨inFormat_rat_iff_finiteValue hf x, round_of_overflowBound_le hf, round_of_lt_overflowBound hf⟩

namespace Machine

/-- Settles O39: both formats by `roundsToNearestEven`, and the helper by its own lemma. -/
theorem roundingIsToNearestEven : Obligations.RoundingIsToNearestEven :=
  ⟨roundsToNearestEven (f := .binary64) nofun, roundsToNearestEven (f := .binary32) nofun, roundHalfEven_spec⟩

end Machine

/-! ### `NUM` is closed under the operations -/

/-- What is no finite number other than `-0` is in both binary formats. -/
theorem inFormat_of_ne_rat {f : NumFormat} (hf : f ≠ .rational) {a : Number} (h : ∀ x, a ≠ .rat x) :
    a.inFormat f = true := by
  cases f with
  | rational => exact absurd rfl hf
  | binary64 | binary32 =>
    cases a with
    | rat x => exact absurd rfl (h x)
    | negZero | inf _ | nan => rfl

theorem inFormat_rational_iff {a : Number} : a.inFormat .rational = true ↔ ∃ x, a = .rat x := by
  cases a with
  | rat x => exact ⟨fun _ => ⟨x, rfl⟩, fun _ => rfl⟩
  | negZero | inf _ | nan => exact ⟨nofun, nofun⟩

/-- Rounding gives an element of `NUM`. -/
theorem round_inFormat (f : NumFormat) (x : Rat) : (Number.round f x).inFormat f = true := by
  by_cases hf : f = .rational
  · subst hf; rfl
  · rcases le_or_gt (overflowBound f.precision f.maxExp) |x| with hle | hlt
    · rw [round_of_overflowBound_le hf hle]
      exact inFormat_of_ne_rat hf nofun
    · obtain ⟨r, hr, hfinite, -⟩ := round_of_lt_overflowBound hf hlt
      rw [hr]
      split
      · exact inFormat_of_ne_rat hf nofun
      · exact (inFormat_rat_iff_finiteValue hf r).mpr hfinite

theorem signedZero_inFormat (f : NumFormat) (neg : Bool) : (signedZero f neg).inFormat f = true := by
  by_cases hf : f = .rational
  · subst hf; rfl
  · rw [signedZero_eq hf]
    cases neg with
    | true => exact inFormat_of_ne_rat hf nofun
    | false => exact zero_inFormat f

/-- A sum is a rounded one of finite numbers, or one of the values that only the binary formats have. -/
theorem add_cases (f : NumFormat) (a b : Number) :
    (∃ x y, a.add f b = Number.addFinite f x y) ∨ ∀ x, a.add f b ≠ .rat x := by
  cases a with
  | nan => exact .inr nofun
  | rat x =>
    cases b with
    | rat y => exact .inl ⟨x, y, rfl⟩
    | negZero => exact .inl ⟨x, 0, rfl⟩
    | inf _ | nan => exact .inr nofun
  | negZero =>
    cases b with
    | rat y => exact .inl ⟨0, y, rfl⟩
    | negZero | inf _ | nan => exact .inr nofun
  | inf s =>
    cases b with
    | rat _ | negZero | nan => exact .inr nofun
    | inf t =>
      refine .inr fun x h => ?_
      simp only [Number.add] at h
      split at h <;> cases h

theorem addFinite_inFormat (f : NumFormat) (x y : Rat) : (Number.addFinite f x y).inFormat f = true := by
  rw [Number.addFinite]
  split
  · exact zero_inFormat f
  · exact round_inFormat f _

theorem mulInf_ne_rat (neg : Bool) (b : Number) (x : Rat) : Number.mulInf neg b ≠ .rat x := by
  cases b with
  | rat y =>
    rw [Number.mulInf]
    split <;> exact nofun
  | negZero | inf _ | nan => exact nofun

/-- A product is a rounded one of finite numbers, a zero, or one of the values that only the binary formats have. -/
theorem mul_cases (f : NumFormat) (a b : Number) :
    (∃ neg x y, a.mul f b = Number.mulFinite f neg x y) ∨ (∃ neg, a.mul f b = signedZero f neg) ∨
      ∀ x, a.mul f b ≠ .rat x := by
  cases a with
  | nan => exact .inr (.inr nofun)
  | inf s =>
    cases b with
    | nan => exact .inr (.inr nofun)
    | rat _ | negZero | inf _ => exact .inr (.inr fun _ => by simpa only [Number.mul] using mulInf_ne_rat _ _ _)
  | negZero =>
    cases b with
    | nan => exact .inr (.inr nofun)
    | inf _ => exact .inr (.inr fun _ => by simpa only [Number.mul] using mulInf_ne_rat _ _ _)
    | rat _ | negZero => exact .inr (.inl ⟨_, rfl⟩)
  | rat x =>
    cases b with
    | nan => exact .inr (.inr nofun)
    | inf _ => exact .inr (.inr fun _ => by simpa only [Number.mul] using mulInf_ne_rat _ _ _)
    | negZero => exact .inr (.inl ⟨_, rfl⟩)
    | rat y => exact .inl ⟨_, x, y, rfl⟩

theorem mulFinite_inFormat (f : NumFormat) (neg : Bool) (x y : Rat) : (Number.mulFinite f neg x y).inFormat f = true := by
  rw [Number.mulFinite]
  split
  · exact signedZero_inFormat f neg
  · exact round_inFormat f _

/-- In a binary format a sum is an element of it, whatever its terms. -/
theorem add_inFormat {f : NumFormat} (hf : f ≠ .rational) (a b : Number) : (a.add f b).inFormat f = true := by
  rcases add_cases f a b with ⟨x, y, h⟩ | h
  · rw [h]; exact addFinite_inFormat f x y
  · exact inFormat_of_ne_rat hf h

/-- And so is a product. -/
theorem mul_inFormat {f : NumFormat} (hf : f ≠ .rational) (a b : Number) : (a.mul f b).inFormat f = true := by
  rcases mul_cases f a b with ⟨neg, x, y, h⟩ | ⟨neg, h⟩ | h
  · rw [h]; exact mulFinite_inFormat f neg x y
  · rw [h]; exact signedZero_inFormat f neg
  · exact inFormat_of_ne_rat hf h

theorem inFormat_neg_rat {f : NumFormat} (hf : f ≠ .rational) {x : Rat} (h : (Number.rat x).inFormat f = true) :
    (Number.rat (-x)).inFormat f = true := by
  rw [inFormat_rat_iff_finiteValue hf] at h ⊢
  exact h.neg

/-- The formats are symmetric, so that inverses stay in a binary `NUM`. -/
theorem neg_inFormat {f : NumFormat} (hf : f ≠ .rational) {a : Number} (h : a.inFormat f = true) :
    (a.neg f).inFormat f = true := by
  cases a with
  | rat x =>
    rw [Number.neg]
    split
    · exact signedZero_inFormat f true
    · exact inFormat_neg_rat hf h
  | negZero => exact zero_inFormat f
  | inf _ | nan => exact inFormat_of_ne_rat hf nofun

theorem abs_inFormat {f : NumFormat} (hf : f ≠ .rational) {a : Number} (h : a.inFormat f = true) :
    a.abs.inFormat f = true := by
  cases a with
  | rat x =>
    rw [Number.abs]
    split
    · exact inFormat_neg_rat hf h
    · exact h
  | negZero => exact zero_inFormat f
  | inf _ | nan => exact inFormat_of_ne_rat hf nofun

namespace Machine

/-- Settles O40: in `Q` every operation gives a rational; in a binary format what is not rounded is a special value, and
inverting and taking the magnitude keep a format's finite values. -/
theorem arithmeticStaysInNum : Obligations.ArithmeticStaysInNum := by
  intro f a b ha hb
  by_cases hf : f = .rational
  · subst hf
    obtain ⟨x, rfl⟩ := inFormat_rational_iff.mp ha
    obtain ⟨y, rfl⟩ := inFormat_rational_iff.mp hb
    rw [add_rational, sub_rational, mul_rational, neg_rational, abs_rat]
    exact ⟨rfl, rfl, rfl, rfl, rfl⟩
  · exact ⟨add_inFormat hf a b, add_inFormat hf a _, mul_inFormat hf a b, neg_inFormat hf ha, abs_inFormat hf ha⟩

end Machine

end Sys2Proof
end
